-- ==== Sys2Proof/Word.lean ====
section
/-! DEFINITION. The word types of the block (00_scope.md R6, R8, R11; 20_memory.md R50). -/

namespace Sys2Proof

/-- A register or a command word: 32 bits, unsigned (00_scope.md R6 REG_W, R8). -/
abbrev Word := BitVec 32

/-- A symbol, an input byte or an output byte: 8 bits, unsigned (00_scope.md R6). -/
abbrev Byte := BitVec 8

/-- A node handle: 9 bits, unsigned (00_scope.md R6 HANDLE_W, R11). -/
abbrev Handle := BitVec 9

/-- A byte offset into the 16 MiB aperture: 24 bits (20_memory.md R50). -/
abbrev Offset := BitVec 24

/-- One element of a bit sequence (00_scope.md R8): `false` is 0 and `true` is 1. -/
abbrev Bit := Bool

end Sys2Proof
end

