-- ==== Sys2Proof/Config.lean ====
section
/-! DEFINITION. What is fixed for this hardware (00_scope.md R6), the named parameters a model takes
as arguments (00_scope.md R7), and the values the spec leaves open, which have no body here. -/

namespace Sys2Proof.Config

/-- ALPHABET_SIZE: the symbols are the unsigned byte values 0..255 (00_scope.md R6). -/
def alphabetSize : Nat := 256

/-- MAX_NODES = 2 × 256 − 1 (00_scope.md R6). -/
def maxNodes : Nat := 511

/-- MAX_CODE_LEN (00_scope.md R6). -/
def maxCodeLen : Nat := 255

/-- The named capacities of 00_scope.md R7. BASE, the fourth named parameter, is `Config.base`. -/
structure Params where
  /-- IBUF_CAP, bytes -/
  ibufCap : Nat
  /-- OBUF_CAP, bytes -/
  obufCap : Nat
  /-- BITBUF_CAP, bits -/
  bitbufCap : Nat
  deriving DecidableEq, Repr

/-- The defaults of 00_scope.md R7. -/
def Params.defaults : Params :=
  { ibufCap := 1048576, obufCap := 1048576, bitbufCap := 8388608 }

/-- The n-th free value: a byte the spec leaves unspecified (93_implementation_defined.md U1, U2, U3).
It has no body, so nothing can be proved of it (assumption log 7). -/
opaque freeByte : Nat → Byte

/-- Which 16 MiB block of the host's address space the aperture fills: left to the platform, no default
(00_scope.md R7, 93_implementation_defined.md U8; assumption log 6). -/
opaque baseBlock : Nat

/-- BASE: a multiple of 2^24 (00_scope.md R7). -/
def base : Nat := baseBlock * 2 ^ 24

/-- The host byte address of an aperture offset (20_memory.md R50). -/
def hostAddress (o : Offset) : Nat := base + o.toNat

end Sys2Proof.Config
end

