-- ==== Sys2Proof/Syntax.lean ====
section
/-! DEFINITION. The syntax: the command set (30_encoding.md R70), the host's turns at the bus
(20_memory.md R43, R50; 30_encoding.md R75, R78) and the host script notation (30_encoding.md R74–R79). -/

namespace Sys2Proof

/-- The command set: one constructor for each row of the opcode map (30_encoding.md R70). No command
has an operand field: the T bit of UNPACK separates the two rows `unpack` and `unpackT`, and every other
operand is implicit (30_encoding.md R69). -/
inductive Instr where
  | freq
  | tree
  | codes
  | build
  | encode
  | pack
  | unpack
  | unpackT
  | decode
  | clear
  deriving DecidableEq, Repr

/-- The widths of a host access: n = 1, 2 or 4 bytes (20_memory.md R43, R45). -/
inductive AccessSize where
  | byte
  | half
  | word
  deriving DecidableEq, Repr

/-- One turn of the run, as the model's agenda lists it (assumption log 1): what the host does next, or
that it is the block's turn (00_scope.md R13, 20_memory.md R60). -/
inductive Turn where
  /-- `MemRead(o, n)` (00_scope.md R9) -/
  | read (o : Offset) (n : AccessSize)
  /-- `MemWrite(o, n, v)` (00_scope.md R9) -/
  | write (o : Offset) (n : AccessSize) (v : Word)
  /-- the host asserts reset (70_reset_and_hazards.md R141) -/
  | reset
  /-- the host polls STATUS until BUSY = 0 (30_encoding.md R78) -/
  | wait
  /-- the block's turn: it performs the pending command if there is one (45_control.md R116) -/
  | block
  deriving DecidableEq, Repr

/-- The named registers (10_state.md R17). -/
inductive Reg where
  | cmd
  | status
  | arg
  | errpos
  | ibufLen
  | obufLen
  | bitlen
  | nodeCount
  | root
  | rootWeight
  | ibufCapR
  | obufCapR
  | bitbufCapR
  deriving DecidableEq, Repr

/-- What a script statement addresses: a register or an element of a window (30_encoding.md R74). -/
inductive Elem where
  | reg (r : Reg)
  /-- `IBUF+i` -/
  | ibuf (i : Nat)
  /-- `OBUF+k` -/
  | obuf (k : Nat)
  /-- `BITBUF+k` -/
  | bitbuf (k : Nat)
  /-- `FREQ+s` -/
  | freq (s : Byte)
  /-- `CODE_LEN+s` -/
  | codeLen (s : Byte)
  /-- `NODE+h`, the weight word -/
  | node (h : Handle)
  /-- `NODE+h.D`, the descriptor word -/
  | nodeD (h : Handle)
  /-- `CODE_BITS+s.m`, word m of symbol s's code storage -/
  | codeBits (s : Byte) (m : Fin 8)
  deriving DecidableEq, Repr

/-- Script statements: the primitives of 30_encoding.md R75 and the pseudo-instructions of R76–R79. -/
inductive Stmt where
  | wr (x : Elem) (v : Word)
  | wrh (x : Elem) (v : Word)
  | wrb (x : Elem) (v : Word)
  | rd (x : Elem)
  | rdh (x : Elem)
  | rdb (x : Elem)
  | cmd (i : Instr)
  | run (i : Instr)
  | load (bytes : List Byte)
  | wait
  | copyout
  deriving DecidableEq, Repr

end Sys2Proof
end

