-- ==== Sys2Proof/WellFormed.lean ====
section
/-! DEFINITION. Which terms of the syntax and which parameters are well-formed. The well-formedness of a
host access (20_memory.md R45) is `Sys2Proof.Machine.accessWellFormed`, beside the bus that applies it. -/

namespace Sys2Proof

/-- A command is well-formed when it is a row of the opcode map. A command has no operand field to check
(30_encoding.md R69), so every term of `Instr` is. -/
def Instr.wellFormed : Instr → Bool
  | .freq => true
  | .tree => true
  | .codes => true
  | .build => true
  | .encode => true
  | .pack => true
  | .unpack => true
  | .unpackT => true
  | .decode => true
  | .clear => true

/-- The constraints of 00_scope.md R7 on the named parameters. -/
def Config.Params.wellFormed (p : Config.Params) : Bool :=
  decide (1 ≤ p.ibufCap) && decide (p.ibufCap ≤ 2 ^ 20)
    && decide (1 ≤ p.obufCap) && decide (p.obufCap ≤ 2 ^ 20)
    && decide (8 ≤ p.bitbufCap) && decide (p.bitbufCap ≤ 2 ^ 23)
    && decide (p.bitbufCap % 8 = 0)

/-- A `load` names at most IBUF_CAP bytes (30_encoding.md R77) and a script's window element lies in its
window (30_encoding.md R74, 20_memory.md R50). -/
def Elem.wellFormed : Elem → Bool
  | .reg _ => true
  | .ibuf i => decide (i < 2 ^ 20)
  | .obuf k => decide (k < 2 ^ 20)
  | .bitbuf k => decide (k < 2 ^ 20)
  | .freq _ => true
  | .codeLen _ => true
  | .node _ => true
  | .nodeD _ => true
  | .codeBits _ _ => true

/-- A statement is well-formed when its element is and, for `load`, the bytes fit IBUF
(30_encoding.md R74, R77). -/
def Stmt.wellFormed (p : Config.Params) : Stmt → Bool
  | .wr x _ => x.wellFormed
  | .wrh x _ => x.wellFormed
  | .wrb x _ => x.wellFormed
  | .rd x => x.wellFormed
  | .rdh x => x.wellFormed
  | .rdb x => x.wellFormed
  | .cmd i => i.wellFormed
  | .run i => i.wellFormed
  | .load bytes => decide (bytes.length ≤ p.ibufCap)
  | .wait => true
  | .copyout => true

end Sys2Proof
end

