-- ==== Sys2Proof/Decode.lean ====
section
/-! DEFINITION. The decoder, total on every 32-bit word (30_encoding.md R71), then the encoder
(30_encoding.md R70). -/

namespace Sys2Proof

/-- Why a word is an illegal command: the three items of 30_encoding.md R72. -/
inductive Illegal where
  /-- a reserved bit [31:5] is set -/
  | reservedBits
  /-- T = 1 with OP ≠ 0x7 -/
  | trimFlag
  /-- OP = 0x0, or OP in 0xA..0xF -/
  | opcode
  deriving DecidableEq, Repr

/-- The OP field, bits [3:0] (30_encoding.md R67). -/
def opField (w : Word) : BitVec 4 := w.extractLsb' 0 4

/-- The T field, bit [4] (30_encoding.md R67). -/
def trimField (w : Word) : Bool := w.getLsbD 4

/-- The reserved field, bits [31:5] (30_encoding.md R67). -/
def reservedField (w : Word) : BitVec 27 := w.extractLsb' 5 27

/-- The decoding procedure of 30_encoding.md R71. -/
def decode (w : Word) : Except Illegal Instr :=
  if reservedField w ≠ 0 then .error .reservedBits
  else if trimField w = true ∧ opField w ≠ 0x7 then .error .trimFlag
  else
    match (opField w).toNat with
    | 0x1 => .ok .freq
    | 0x2 => .ok .tree
    | 0x3 => .ok .codes
    | 0x4 => .ok .build
    | 0x5 => .ok .encode
    | 0x6 => .ok .pack
    | 0x7 => if trimField w then .ok .unpackT else .ok .unpack
    | 0x8 => .ok .decode
    | 0x9 => .ok .clear
    | _ => .error .opcode

/-- The decoder on an opcode-table word of `nbits` bits: a command is exactly one 32-bit word
(30_encoding.md R68), and a bit above `nbits` is 0. -/
def decodeTableWord (nbits w : Nat) : Option Instr :=
  if nbits ≤ 32 ∧ w < 2 ^ 32 then
    match decode (BitVec.ofNat 32 w) with
    | .ok i => some i
    | .error _ => none
  else none

/-- The OP number of a command (30_encoding.md R70). -/
def opOf : Instr → BitVec 4
  | .freq => 0x1
  | .tree => 0x2
  | .codes => 0x3
  | .build => 0x4
  | .encode => 0x5
  | .pack => 0x6
  | .unpack => 0x7
  | .unpackT => 0x7
  | .decode => 0x8
  | .clear => 0x9

/-- The T bit of a command (30_encoding.md R70). -/
def trimOf : Instr → BitVec 1
  | .unpackT => 1
  | .freq => 0
  | .tree => 0
  | .codes => 0
  | .build => 0
  | .encode => 0
  | .pack => 0
  | .unpack => 0
  | .decode => 0
  | .clear => 0

/-- The encoder: 27 reserved zeros, T, OP, most significant bit first (30_encoding.md R67). -/
def encode (i : Instr) : Word := (0 : BitVec 27) ++ trimOf i ++ opOf i

end Sys2Proof
end

