-- ==== Sys2Proof/Machine/Bits.lean ====
section
/-! DEFINITION. The one bit order between bit sequences and bytes (20_memory.md R42) and the one byte order
of host accesses (20_memory.md R43). -/

namespace Sys2Proof.Machine

/-- Byte `k` of a bit sequence: bit 8k + j of the sequence is bit 7 − j of the byte, and a bit past the end
of the sequence is 0 (20_memory.md R42, R55, R56; 44_bit_packer.md R109). -/
def seqByte (bits : List Bit) (k : Nat) : Byte :=
  (List.range 8).foldl
    (fun byte j => byte ||| ((BitVec.ofBool (bits.getD (8 * k + j) false)).setWidth 8 <<< (7 - j))) 0

/-- ceil(n / 8) (00_scope.md R9). -/
def ceilDiv8 (n : Nat) : Nat := (n + 7) / 8

/-- The bytes of a bit sequence, zero-padded to a whole byte (44_bit_packer.md R108). -/
def packBits (bits : List Bit) : List Byte := (List.range (ceilDiv8 bits.length)).map (seqByte bits)

/-- Bit `i` of the bits of `byte` taken most significant first: bit 7 − (i mod 8)
(20_memory.md R42, 44_bit_packer.md R111). -/
def byteBit (byte : Byte) (i : Nat) : Bit := byte.getLsbD (7 - i % 8)

/-- The byte at offset o + t of an access with value `v`: bits [8t+7 : 8t] (20_memory.md R43). -/
def wordByte (v : Word) (t : Nat) : Byte := v.extractLsb' (8 * t) 8

/-- The value of an access whose bytes are `bytes`, lowest address first, zero-extended to 32 bits
(20_memory.md R43; assumption log 13). -/
def wordOfBytes : List Byte → Word
  | [] => 0
  | b :: rest => b.setWidth 32 ||| (wordOfBytes rest <<< 8)

end Sys2Proof.Machine
end

