-- ==== Sys2Proof/Machine/State.lean ====
section
/-! DEFINITION. The state of the block as 10_state.md R41 lists it, with four fields of the model's own
beside it (`params`, `agenda`, `hostReads`, `freeCtr`), the reasons a step can stop, and the state right
after reset (10_state.md R40). -/

namespace Sys2Proof.Machine

/-- A node of the arena (10_state.md R28). -/
inductive Node where
  | leaf (sym : Byte) (weight : Word)
  | internal (weight : Word) (left right : Handle)
  deriving DecidableEq, Repr

/-- A table with one entry for each symbol 0..255 (10_state.md R26, R30). -/
abbrev Table (α : Type) := Vector α 256

/-- IBUF: the written cells as (cell index, byte), indexes strictly rising; a cell that is not listed is
unwritten and reads as no value (10_state.md R32; assumption log 10). -/
abbrev Memory := List Host.Cell

/-- The canonical form of `Memory`: the listed indexes rise strictly. An unlisted cell has no value, so no
entry can equal what an unlisted cell reads as. -/
abbrev Memory.wf (m : Memory) : Prop := m.Pairwise (fun a b => a.1 < b.1)

/-- The error codes of 60_exceptions.md R125. -/
inductive ErrorCode where
  | none
  | illegalCmd
  | emptyAlphabet
  | unknownSymbol
  | truncatedStream
  | invalidCode
  | noTree
  | noCodes
  | bitbufOverflow
  | obufOverflow
  | badLength
  deriving DecidableEq, Repr

/-- Why the machine stops with a fault. -/
inductive Fault where
  /-- `UnwrittenInput(i)`: raised by the perform step of FREQ, BUILD, ENCODE, UNPACK or UNPACK.T when it
  reads IBUF cell `i` and nothing has written that cell since reset (20_memory.md R62, 45_control.md R123).
  A model-only verdict: the chip reads some byte and goes on. Safe (assumption log 10). -/
  | unwrittenInput (i : Nat)
  deriving DecidableEq, Repr

/-- Why the model declines to give a step a meaning. -/
inductive Refusal where
  /-- Raised by an arm of `exec` whose instruction has no meaning yet; no arm does now. Safe. -/
  | notModelled (mnemonic : String)
  /-- Raised by the host's turn when its access is not well-formed (20_memory.md R46, 45_control.md R123,
  93_implementation_defined.md U3). Safe (assumption log 11). -/
  | illFormedAccess (o : Offset) (n : AccessSize)
  deriving DecidableEq, Repr

/-- The machine: one block (10_state.md R41) and, in the last three fields, the host beside it. -/
structure State where
  /-- the named parameters of 00_scope.md R7; no step writes them (assumption log 5) -/
  params : Config.Params
  /-- PENDING: none, or the accepted command word (10_state.md R37) -/
  pending : Option Word
  /-- STATUS.TREE_VALID (10_state.md R34) -/
  treeValid : Bool
  /-- STATUS.CODES_VALID (10_state.md R34) -/
  codesValid : Bool
  /-- STATUS.DONE (10_state.md R35) -/
  done : Bool
  /-- STATUS.ERR (10_state.md R35) -/
  err : Bool
  /-- STATUS.OVERRUN (10_state.md R36) -/
  overrun : Bool
  /-- STATUS.ERRCODE (10_state.md R19) -/
  errcode : Byte
  /-- ERRPOS (10_state.md R21) -/
  errpos : Word
  /-- ARG (10_state.md R20) -/
  arg : Word
  /-- IBUF_LEN, 0..IBUF_CAP (10_state.md R22) -/
  ibufLen : Nat
  /-- the written cells of IBUF (10_state.md R32) -/
  ibuf : Memory
  /-- FREQ (10_state.md R26) -/
  freq : Table Word
  /-- NODE (10_state.md R28) -/
  nodes : List Node
  /-- CODE (10_state.md R30) -/
  code : Table (List Bit)
  /-- BITBUF (10_state.md R27) -/
  bitbuf : List Bit
  /-- OBUF (10_state.md R33) -/
  obuf : List Byte
  /-- the turns still to come, oldest first (assumption log 1) -/
  agenda : List Turn
  /-- the values the host's reads have returned, oldest first (assumption log 14) -/
  hostReads : List Word
  /-- the number of free bytes handed out so far (assumption log 7) -/
  freeCtr : Nat
  deriving DecidableEq, Repr

/-- The state right after reset (10_state.md R40) with the default parameters (00_scope.md R7). The values
of `agenda`, `hostReads` and `freeCtr` are the model's (DESIGN CHOICE, assumption log 23). -/
def State.reset : State :=
  { params := Config.Params.defaults
    pending := none
    treeValid := false
    codesValid := false
    done := false
    err := false
    overrun := false
    errcode := 0
    errpos := 0
    arg := 0
    ibufLen := 0
    ibuf := []
    freq := Vector.replicate 256 0
    nodes := []
    code := Vector.replicate 256 []
    bitbuf := []
    obuf := []
    agenda := []
    hostReads := []
    freeCtr := 0 }

end Sys2Proof.Machine
end

