-- ==== Sys2Proof/Machine/Ops.lean ====
section
/-! DEFINITION. The named operations over the tables, IBUF, the node arena and the command lifecycle:
acceptance, the raise of an error and completion (45_control.md R115–R117, 60_exceptions.md R126), reset
(70_reset_and_hazards.md R141). The block has no trap: the raise of an error and its completion are what
stands in an exception's place (60_exceptions.md R132, R133). -/

namespace Sys2Proof.Machine

/-! ### Tables indexed by symbol -/

/-- `x[s]` (00_scope.md R9). -/
def Table.get {α : Type} (t : Table α) (s : Byte) : α := t[s.toNat]'s.isLt

/-- `x[s] <- v` (00_scope.md R9). -/
def Table.set {α : Type} (t : Table α) (s : Byte) (v : α) : Table α := Vector.set t s.toNat v s.isLt

/-- A table whose 256 entries are all `v`. -/
def Table.all {α : Type} (v : α) : Table α := Vector.replicate 256 v

/-- The symbols in increasing unsigned order (40_tree_builder.md R84). -/
def allSymbols : List Byte := (List.range 256).map (BitVec.ofNat 8)

/-! ### IBUF cells -/

/-- The byte of cell `i`, none when the cell is unwritten (10_state.md R32). -/
def Memory.read (m : Memory) (i : Nat) : Option Byte :=
  match m with
  | [] => none
  | c :: rest => if c.1 = i then some c.2 else Memory.read rest i

/-- `IBUF[i] <- b`: the cell is then written (20_memory.md R52). The canonical form is kept. -/
def Memory.write (m : Memory) (i : Nat) (b : Byte) : Memory :=
  match m with
  | [] => [(i, b)]
  | c :: rest =>
    if i < c.1 then (i, b) :: c :: rest
    else if i = c.1 then (i, b) :: rest
    else c :: Memory.write rest i b

/-! ### The node arena -/

/-- weight(h) (00_scope.md R11); 0 where there is no node (assumption log 18). -/
def weightOf (nodes : List Node) (h : Nat) : Nat :=
  match nodes[h]? with
  | some (.leaf _ w) => w.toNat
  | some (.internal w _ _) => w.toNat
  | none => 0

/-- The symbol of the Leaf at `h`, none when `h` is no Leaf (00_scope.md R11). -/
def leafSym (nodes : List Node) (h : Nat) : Option Byte :=
  match nodes[h]? with
  | some (.leaf sym _) => some sym
  | some (.internal _ _ _) => none
  | none => none

/-- The children (left(h), right(h)) of the Internal node at `h`, none when `h` is no Internal node
(00_scope.md R11). -/
def children (nodes : List Node) (h : Nat) : Option (Nat × Nat) :=
  match nodes[h]? with
  | some (.internal _ l r) => some (l.toNat, r.toNat)
  | some (.leaf _ _) => none
  | none => none

/-- The root handle |nodes| − 1 (10_state.md R24, R41). -/
def rootHandle (nodes : List Node) : Nat := nodes.length - 1

/-! ### The command lifecycle -/

/-- Acceptance of the command word `w` (45_control.md R115). -/
def State.accept (s : State) (w : Word) : State :=
  { s with pending := some w, done := false, err := false, errcode := 0, errpos := 0 }

/-- The number of an error code (60_exceptions.md R125). -/
def ErrorCode.number : ErrorCode → Byte
  | .none => 0x00
  | .illegalCmd => 0x01
  | .emptyAlphabet => 0x02
  | .unknownSymbol => 0x03
  | .truncatedStream => 0x04
  | .invalidCode => 0x05
  | .noTree => 0x06
  | .noCodes => 0x07
  | .bitbufOverflow => 0x08
  | .obufOverflow => 0x09
  | .badLength => 0x0A

/-- Completion: `complete(code, pos)` (45_control.md R117). -/
def State.complete (s : State) (code : ErrorCode) (pos : Nat) : State :=
  { s with
    errcode := code.number
    err := decide (code.number ≠ 0)
    errpos := BitVec.ofNat 32 pos
    done := true
    pending := none }

/-- How a loop inside a command ends: with a value, with `raise Error(code, pos)` (00_scope.md R9), or at an
unwritten IBUF cell (20_memory.md R62). -/
inductive Run (α : Type) where
  | ok (a : α)
  | raised (code : ErrorCode) (pos : Nat)
  | unwritten (i : Nat)
  deriving DecidableEq, Repr

/-- Apply `f` to the value of a run. -/
def Run.map {α β : Type} (f : α → β) : Run α → Run β
  | .ok a => .ok (f a)
  | .raised code pos => .raised code pos
  | .unwritten i => .unwritten i

/-- How a command's pseudocode ends, with the state it leaves: state written before a raise stays written
(60_exceptions.md R126). -/
inductive Body where
  | ok (s : State)
  | raised (s : State) (code : ErrorCode) (pos : Nat)
  | unwritten (i : Nat)

/-- One body after another; a raise ends the whole (40_tree_builder.md R90). -/
def Body.andThen (b : Body) (next : State → Body) : Body :=
  match b with
  | .ok s => next s
  | .raised s code pos => .raised s code pos
  | .unwritten i => .unwritten i

/-- The end of a command whose loop ran from state `s`: on success the result is stored by `commit`, on a
raise `s` is what was written before it. -/
def Body.ofRun {α : Type} (s : State) (commit : α → State) : Run α → Body
  | .ok a => .ok (commit a)
  | .raised code pos => .raised s code pos
  | .unwritten i => .unwritten i

/-- The end of the perform step: completion with success or with the raised error (45_control.md R116, R117;
60_exceptions.md R126), or the model fault (45_control.md R123). -/
def finish : Body → Host.Outcome State Fault Refusal
  | .ok s => .next (s.complete .none 0)
  | .raised s code pos => .next (s.complete code pos)
  | .unwritten i => .fault (.unwrittenInput i)

/-! ### Reset -/

/-- The reset input: every piece of the block's state takes its reset value (70_reset_and_hazards.md R141,
R142). The parameters and the host's own fields are no state of the block (assumption log 15). -/
def State.hardReset (s : State) : State :=
  { State.reset with
    params := s.params
    agenda := s.agenda
    hostReads := s.hostReads
    freeCtr := s.freeCtr }

end Sys2Proof.Machine
end

