-- ==== Sys2Proof/Machine/Operands.lean ====
section
/-! DEFINITION. The implicit operands of the commands (30_encoding.md R69): the input bytes
IBUF[0..IBUF_LEN) and ARG. -/

namespace Sys2Proof.Machine

/-- The input bytes from cell `i` on, `n` of them, read in increasing order; the first unwritten cell ends
the command in the model fault (20_memory.md R62). -/
def readInput (m : Memory) : (n i : Nat) → Run (List Byte)
  | 0, _ => .ok []
  | n + 1, i =>
    match m.read i with
    | none => .unwritten i
    | some b => (readInput m n (i + 1)).map (b :: ·)

/-- The number of bits a plain UNPACK gives: 8 × IBUF_LEN (44_bit_packer.md R111). -/
def State.inputBits (s : State) : Nat := 8 * s.ibufLen

/-- ARG as the 32-bit unsigned bit count UNPACK.T compares (30_encoding.md R69, 44_bit_packer.md R112). -/
def State.argBits (s : State) : Nat := s.arg.toNat

end Sys2Proof.Machine
end

