-- ==== Sys2Proof/Machine/BitPacker.lean ====
section
/-! DEFINITION. The bit packer and unpacker family: PACK, UNPACK, UNPACK.T (44_bit_packer.md R108–R113). -/

namespace Sys2Proof.Machine

/-- PACK without its completion (44_bit_packer.md R108, R110). -/
def packBody (s : State) : Body :=
  let s0 := { s with obuf := [] }
  if s.params.obufCap < ceilDiv8 s.bitbuf.length then .raised s0 .obufOverflow 0
  else .ok { s0 with obuf := packBits s.bitbuf }

/-- PACK (44_bit_packer.md R108). -/
def execPack (s : State) : Host.Outcome State Fault Refusal := finish (packBody s)

/-- The loop of UNPACK over the bits `i`, `i + 1`, …, `n` of them: bit i is bit 7 − (i mod 8) of cell
i div 8 (44_bit_packer.md R111). -/
def unpackFrom (m : Memory) : (n i : Nat) → Run (List Bit)
  | 0, _ => .ok []
  | n + 1, i =>
    match m.read (i / 8) with
    | none => .unwritten (i / 8)
    | some byte => (unpackFrom m n (i + 1)).map (byteBit byte i :: ·)

/-- UNPACK's common end, with `len` bits to keep (44_bit_packer.md R111); `s0` has BITBUF emptied. -/
def unpackBits (s0 : State) (len : Nat) : Body :=
  if s0.params.bitbufCap < len then .raised s0 .bitbufOverflow 0
  else Body.ofRun s0 (fun bits => { s0 with bitbuf := bits }) (unpackFrom s0.ibuf len 0)

/-- UNPACK with T = 0, without its completion (44_bit_packer.md R111). -/
def unpackBody (s : State) : Body := unpackBits { s with bitbuf := [] } s.inputBits

/-- UNPACK (44_bit_packer.md R111). -/
def execUnpack (s : State) : Host.Outcome State Fault Refusal := finish (unpackBody s)

/-- UNPACK with T = 1, without its completion: BAD_LENGTH is checked first (44_bit_packer.md R111, R112). -/
def unpackTrimBody (s : State) : Body :=
  let s0 := { s with bitbuf := [] }
  if s.inputBits < s.argBits then .raised s0 .badLength 0 else unpackBits s0 s.argBits

/-- UNPACK.T (44_bit_packer.md R111, R112). -/
def execUnpackT (s : State) : Host.Outcome State Fault Refusal := finish (unpackTrimBody s)

end Sys2Proof.Machine
end

