-- ==== Sys2Proof/Machine/CodeGenerator.lean ====
section
/-! DEFINITION. The code generator family: CODES (41_code_generator.md R93–R97). -/

namespace Sys2Proof.Machine

/-- `walk(h, p)`: depth first, left before right; at a Leaf the path is recorded
(41_code_generator.md R93, R96). `fuel` bounds the depth: a tree of at most 256 leaves is at most 255 deep
(assumption log 18). -/
def walk (nodes : List Node) : (fuel h : Nat) → List Bit → Table (List Bit) → Table (List Bit)
  | 0, _, _, code => code
  | fuel + 1, h, p, code =>
    match nodes[h]? with
    | some (.leaf sym _) => code.set sym p
    | some (.internal _ l r) =>
      walk nodes fuel r.toNat (p ++ [true]) (walk nodes fuel l.toNat (p ++ [false]) code)
    | none => code

/-- The code table of a tree: a single Leaf gets the code `0` (41_code_generator.md R95), any other tree its
paths (41_code_generator.md R96). -/
def codeTable (nodes : List Node) : Table (List Bit) :=
  match leafSym nodes (rootHandle nodes) with
  | some sym => (Table.all []).set sym [false]
  | none => walk nodes (Config.maxCodeLen + 1) (rootHandle nodes) [] (Table.all [])

/-- CODES without its completion (41_code_generator.md R93, R94). -/
def codesBody (s : State) : Body :=
  let s0 := { s with codesValid := false }
  if s.treeValid then .ok { s0 with code := codeTable s.nodes, codesValid := true }
  else .raised s0 .noTree 0

/-- CODES (41_code_generator.md R93). -/
def execCodes (s : State) : Host.Outcome State Fault Refusal := finish (codesBody s)

end Sys2Proof.Machine
end

