-- ==== Sys2Proof/Machine/TreeBuilder.lean ====
section
/-! DEFINITION. The tree builder family: FREQ and TREE (40_tree_builder.md R81–R89). BUILD is in
Machine/Build.lean, after the code generator it ends with. -/

namespace Sys2Proof.Machine

/-! ### FREQ -/

/-- The frequency table of a byte buffer: from an all-zero table, one pass in order
(40_tree_builder.md R81, R82). -/
def countBytes (bytes : List Byte) : Table Word :=
  bytes.foldl (fun freq s => freq.set s (freq.get s + 1)) (Table.all 0)

/-- FREQ without its completion (40_tree_builder.md R81). -/
def freqBody (s : State) : Body :=
  Body.ofRun s (fun bytes => { s with freq := countBytes bytes }) (readInput s.ibuf s.ibufLen 0)

/-- FREQ (40_tree_builder.md R81). -/
def execFreq (s : State) : Host.Outcome State Fault Refusal := finish (freqBody s)

/-! ### TREE -/

/-- The alphabet S: the symbols with a non-zero count, in increasing order (40_tree_builder.md R84). -/
def alphabet (freq : Table Word) : List Byte := allSymbols.filter (fun s => decide (freq.get s ≠ 0))

/-- The leaves, handle k for the k-th symbol of the alphabet (40_tree_builder.md R84, R85). -/
def seedLeaves (freq : Table Word) : List Node := (alphabet freq).map (fun s => Node.leaf s (freq.get s))

/-- The key order (weight(h), h), lexicographic (40_tree_builder.md R87). -/
def keyLt (nodes : List Node) (a b : Nat) : Bool :=
  decide (weightOf nodes a < weightOf nodes b)
    || (decide (weightOf nodes a = weightOf nodes b) && decide (a < b))

/-- The handle with the least key among `h` and those of `rest` (40_tree_builder.md R87). -/
def minKey (nodes : List Node) (h : Nat) (rest : List Nat) : Nat :=
  rest.foldl (fun best x => if keyLt nodes x best then x else best) h

/-- The merge loop of TREE on the working set Q; `fuel` bounds the number of merges, and |Q| is enough
(40_tree_builder.md R85, R86). The new node's weight is the sum of the two, 32 bits (assumption log 17). -/
def mergeLoop : (fuel : Nat) → List Node → List Nat → List Node
  | 0, nodes, _ => nodes
  | _ + 1, nodes, [] => nodes
  | _ + 1, nodes, [_] => nodes
  | fuel + 1, nodes, q0 :: q1 :: qs =>
    let q := q0 :: q1 :: qs
    let a := minKey nodes q0 (q1 :: qs)
    match q.erase a with
    | [] => nodes
    | r0 :: rs =>
      let b := minKey nodes r0 rs
      let merged := Node.internal (BitVec.ofNat 32 (weightOf nodes a + weightOf nodes b))
        (BitVec.ofNat 9 a) (BitVec.ofNat 9 b)
      mergeLoop fuel (nodes ++ [merged]) ((r0 :: rs).erase b ++ [nodes.length])

/-- The tree of a frequency table: seed, then merge until one handle is left (40_tree_builder.md R85). -/
def buildTree (freq : Table Word) : List Node :=
  mergeLoop (alphabet freq).length (seedLeaves freq) (List.range (alphabet freq).length)

/-- TREE without its completion (40_tree_builder.md R85, R89). -/
def treeBody (s : State) : Body :=
  let s0 := { s with treeValid := false, codesValid := false, nodes := [], code := Table.all [] }
  if (alphabet s.freq).length = 0 then .raised s0 .emptyAlphabet 0
  else .ok { s0 with nodes := buildTree s.freq, treeValid := true }

/-- TREE (40_tree_builder.md R85). -/
def execTree (s : State) : Host.Outcome State Fault Refusal := finish (treeBody s)

end Sys2Proof.Machine
end

