-- ==== Sys2Proof/Machine/Build.lean ====
section
/-! DEFINITION. BUILD: count, build and generate with one completion (40_tree_builder.md R90, R91). -/

namespace Sys2Proof.Machine

/-- BUILD without its completion: the three bodies in turn, the first raise ends it
(40_tree_builder.md R90). -/
def buildBody (s : State) : Body := ((freqBody s).andThen treeBody).andThen codesBody

/-- BUILD (40_tree_builder.md R90). -/
def execBuild (s : State) : Host.Outcome State Fault Refusal := finish (buildBody s)

end Sys2Proof.Machine
end

