-- ==== Sys2Proof/Machine/Control.lean ====
section
/-! DEFINITION. The control family: CLEAR, and what an illegal command word does
(45_control.md R120, R121). -/

namespace Sys2Proof.Machine

/-- CLEAR without its completion (45_control.md R120). -/
def clearBody (s : State) : Body :=
  .ok { s with
    freq := Table.all 0
    code := Table.all []
    nodes := []
    treeValid := false
    codesValid := false
    bitbuf := []
    obuf := []
    overrun := false }

/-- CLEAR (45_control.md R120). -/
def execClear (s : State) : Host.Outcome State Fault Refusal := finish (clearBody s)

/-- Performing an illegal word changes nothing but the completion status: `complete(ILLEGAL_CMD, 0)`
(45_control.md R121, 30_encoding.md R72). -/
def performIllegal (s : State) : Host.Outcome State Fault Refusal := finish (.raised s .illegalCmd 0)

end Sys2Proof.Machine
end

