-- ==== Sys2Proof/Machine/Decoder.lean ====
section
/-! DEFINITION. The decoder family: DECODE (43_decoder.md R102–R107). -/

namespace Sys2Proof.Machine

/-- left(cur) on bit 0, right(cur) on bit 1 (43_decoder.md R103); a cursor with no children stays
(assumption log 18). -/
def child (nodes : List Node) (b : Bit) (cur : Nat) : Nat :=
  match children nodes cur with
  | some (l, r) => if b then r else l
  | none => cur

/-- The loop of DECODE when the root is an Internal node, at bit `i` with the cursor at `cur`, the current
codeword begun at bit `start` and `count` symbols emitted: the symbols still to come
(43_decoder.md R102–R104, R106). -/
def decodeTree (nodes : List Node) (root cap : Nat) : List Bit → (i cur start count : Nat) → Run (List Byte)
  | [], _, cur, start, _ => if cur = root then .ok [] else .raised .truncatedStream start
  | b :: bits, i, cur, start, count =>
    match leafSym nodes (child nodes b cur) with
    | some sym =>
      if count = cap then .raised .obufOverflow i
      else (decodeTree nodes root cap bits (i + 1) root (i + 1) (count + 1)).map (sym :: ·)
    | none => decodeTree nodes root cap bits (i + 1) (child nodes b cur) start count

/-- The loop of DECODE when the root is the Leaf of `sym`: each 0 emits it, a 1 is invalid
(43_decoder.md R105, R106). -/
def decodeLeaf (sym : Byte) (cap : Nat) : List Bit → (i count : Nat) → Run (List Byte)
  | [], _, _ => .ok []
  | b :: bits, i, count =>
    if b then .raised .invalidCode i
    else if count = cap then .raised .obufOverflow i
    else (decodeLeaf sym cap bits (i + 1) (count + 1)).map (sym :: ·)

/-- Decoding a whole bit sequence through a tree, from the root (43_decoder.md R102; 10_state.md R38). -/
def decodeBits (nodes : List Node) (cap : Nat) (bits : List Bit) : Run (List Byte) :=
  match leafSym nodes (rootHandle nodes) with
  | some sym => decodeLeaf sym cap bits 0 0
  | none => decodeTree nodes (rootHandle nodes) cap bits 0 (rootHandle nodes) 0 0

/-- DECODE without its completion (43_decoder.md R102). -/
def decodeBody (s : State) : Body :=
  let s0 := { s with obuf := [] }
  if s.treeValid then
    Body.ofRun s0 (fun bytes => { s0 with obuf := bytes }) (decodeBits s.nodes s.params.obufCap s.bitbuf)
  else .raised s0 .noTree 0

/-- DECODE (43_decoder.md R102). -/
def execDecode (s : State) : Host.Outcome State Fault Refusal := finish (decodeBody s)

end Sys2Proof.Machine
end

