-- ==== Sys2Proof/Machine/Encoder.lean ====
section
/-! DEFINITION. The encoder family: ENCODE (42_encoder.md R98–R101). -/

namespace Sys2Proof.Machine

/-- The loop of ENCODE over the cells `i`, `i + 1`, …, `n` of them, with `used` bits already in the output:
the bits it appends (42_encoder.md R98). At one byte UNKNOWN_SYMBOL is checked before BITBUF_OVERFLOW
(60_exceptions.md R129). -/
def encodeFrom (m : Memory) (code : Table (List Bit)) (cap : Nat) : (n i used : Nat) → Run (List Bit)
  | 0, _, _ => .ok []
  | n + 1, i, used =>
    match m.read i with
    | none => .unwritten i
    | some s =>
      if (code.get s).length = 0 then .raised .unknownSymbol i
      else if cap < used + (code.get s).length then .raised .bitbufOverflow i
      else (encodeFrom m code cap n (i + 1) (used + (code.get s).length)).map (code.get s ++ ·)

/-- ENCODE without its completion (42_encoder.md R98, R101). -/
def encodeBody (s : State) : Body :=
  let s0 := { s with bitbuf := [] }
  if s.codesValid then
    Body.ofRun s0 (fun bits => { s0 with bitbuf := bits })
      (encodeFrom s.ibuf s.code s.params.bitbufCap s.ibufLen 0 0)
  else .raised s0 .noCodes 0

/-- ENCODE (42_encoder.md R98). -/
def execEncode (s : State) : Host.Outcome State Fault Refusal := finish (encodeBody s)

end Sys2Proof.Machine
end

