-- ==== Sys2Proof/Machine/Flags.lean ====
section
/-! DEFINITION. STATUS: its fields (10_state.md R19) and how it reads while BUSY = 1 (20_memory.md R57).
The flags themselves are fields of State; the operations that write them all are `State.accept` and
`State.complete` (10_state.md R35). -/

namespace Sys2Proof.Machine

/-- STATUS.BUSY = (PENDING ≠ none) (10_state.md R19, R37). -/
def State.busy (s : State) : Bool := s.pending.isSome

/-- STATUS assembled from its fields, reserved bits 0 (10_state.md R19). -/
def statusOf (busy done err treeValid codesValid overrun : Bool) (errcode : Byte) : Word :=
  (0 : BitVec 16) ++ errcode ++ (0 : BitVec 2) ++ BitVec.ofBool overrun ++ BitVec.ofBool codesValid
    ++ BitVec.ofBool treeValid ++ BitVec.ofBool err ++ BitVec.ofBool done ++ BitVec.ofBool busy

/-- A read of STATUS with BUSY = 0 (10_state.md R19). -/
def State.statusIdle (s : State) : Word :=
  statusOf false s.done s.err s.treeValid s.codesValid s.overrun s.errcode

/-- A read of STATUS with BUSY = 1: DONE, ERR and ERRCODE read 0, OVERRUN is the current one, and
TREE_VALID and CODES_VALID are bits 3 and 4 of a free byte (20_memory.md R57; assumption log 8). -/
def State.statusBusy (s : State) : Word :=
  statusOf true false false ((Config.freeByte s.freeCtr).getLsbD 3) ((Config.freeByte s.freeCtr).getLsbD 4)
    s.overrun 0

/-- A read of STATUS (10_state.md R19, 20_memory.md R57). -/
def State.status (s : State) : Word := if s.busy then s.statusBusy else s.statusIdle

end Sys2Proof.Machine
end

