-- ==== Sys2Proof/Machine/HostBus.lean ====
section
/-! DEFINITION. The host bus: which accesses are well-formed (20_memory.md R45), what a read of the aperture
returns and what a write to it does (10_state.md R17–R25, 20_memory.md R50–R58). -/

namespace Sys2Proof.Machine

/-- The number n of bytes of an access (20_memory.md R43). -/
def sizeBytes : AccessSize → Nat
  | .byte => 1
  | .half => 2
  | .word => 4

/-- Well-formed: naturally aligned, and 4 bytes in the register region (20_memory.md R45). -/
def accessWellFormed (o : Offset) (n : AccessSize) : Bool :=
  decide (o.toNat % sizeBytes n = 0) && (decide (0x100000 ≤ o.toNat) || decide (n = .word))

/-! ### The register region -/

/-- NODE_COUNT (10_state.md R24). -/
def State.nodeCount (s : State) : Nat := if s.treeValid then s.nodes.length else 0

/-- ROOT (10_state.md R24). -/
def State.root (s : State) : Nat := if s.treeValid then rootHandle s.nodes else 0

/-- ROOT_WEIGHT (10_state.md R24). -/
def State.rootWeight (s : State) : Nat := if s.treeValid then weightOf s.nodes (rootHandle s.nodes) else 0

/-- A read of the control registers with BUSY = 0 (10_state.md R17–R25, 20_memory.md R51); a reserved offset
reads 0 (20_memory.md R58). -/
def State.readRegister (s : State) (o : Nat) : Word :=
  match o with
  | 0x004 => s.statusIdle
  | 0x008 => s.arg
  | 0x00C => s.errpos
  | 0x010 => BitVec.ofNat 32 s.ibufLen
  | 0x014 => BitVec.ofNat 32 s.obuf.length
  | 0x018 => BitVec.ofNat 32 s.bitbuf.length
  | 0x01C => BitVec.ofNat 32 s.nodeCount
  | 0x020 => BitVec.ofNat 32 s.root
  | 0x024 => BitVec.ofNat 32 s.rootWeight
  | 0x028 => BitVec.ofNat 32 s.params.ibufCap
  | 0x02C => BitVec.ofNat 32 s.params.obufCap
  | 0x030 => BitVec.ofNat 32 s.params.bitbufCap
  | _ => 0

/-- The weight word of node `h` (20_memory.md R54). -/
def weightWord (nodes : List Node) (h : Nat) : Word := BitVec.ofNat 32 (weightOf nodes h)

/-- The descriptor word of node `h` (20_memory.md R54). -/
def descriptorWord (nodes : List Node) (h : Nat) : Word :=
  match nodes[h]? with
  | some (.leaf sym _) => (1 : BitVec 1) ++ (0 : BitVec 23) ++ sym
  | some (.internal _ l r) => (0 : BitVec 7) ++ r ++ (0 : BitVec 7) ++ l
  | none => 0

/-- The NODE window at byte `d` from its start (20_memory.md R54). -/
def nodeWindow (nodes : List Node) (d : Nat) : Word :=
  if d % 8 = 0 then weightWord nodes (d / 8) else descriptorWord nodes (d / 8)

/-- Word `m` of a symbol's code storage, which holds the bits of `code` (20_memory.md R55). -/
def codeBitsWord (code : List Bit) (m : Nat) : Word :=
  wordOfBytes ((List.range 4).map (fun t => seqByte code (4 * m + t)))

/-- A well-formed read in the register region with BUSY = 0 (20_memory.md R50, R51, R53–R55, R58). -/
def State.readRegion (s : State) (o : Nat) : Word :=
  if o < 0x40 then s.readRegister o
  else if o < 0x400 then 0
  else if o < 0x800 then s.freq.get (BitVec.ofNat 8 ((o - 0x400) / 4))
  else if o < 0xC00 then BitVec.ofNat 32 (s.code.get (BitVec.ofNat 8 ((o - 0x800) / 4))).length
  else if o < 0x1000 then 0
  else if o < 0x2000 then nodeWindow s.nodes (o - 0x1000)
  else if o < 0x4000 then codeBitsWord (s.code.get (BitVec.ofNat 8 ((o - 0x2000) / 32))) ((o - 0x2000) % 32 / 4)
  else 0

/-! ### The buffer windows -/

/-- The byte at offset `o ≥ 0x100000` with BUSY = 0 (20_memory.md R50, R52, R56, R58). `free` is the byte an
unwritten IBUF cell reads as (93_implementation_defined.md U1; assumption log 9). -/
def State.windowByte (s : State) (free : Byte) (o : Nat) : Byte :=
  if o < 0x200000 then
    if o - 0x100000 < s.params.ibufCap then (s.ibuf.read (o - 0x100000)).getD free else 0
  else if o < 0x300000 then s.obuf.getD (o - 0x200000) 0
  else if o < 0x400000 then seqByte s.bitbuf (o - 0x300000)
  else 0

/-! ### Reads -/

/-- The free bytes of one access of `n` bytes, as its value (assumption log 7). -/
def freeValue (ctr : Nat) (n : AccessSize) : Word :=
  wordOfBytes ((List.range (sizeBytes n)).map (fun t => Config.freeByte (ctr + t)))

/-- A well-formed read with BUSY = 0 (20_memory.md R43, R51–R58). -/
def State.readIdle (s : State) (o : Offset) (n : AccessSize) : Word :=
  if o.toNat < 0x100000 then s.readRegion o.toNat
  else wordOfBytes ((List.range (sizeBytes n)).map
    (fun t => s.windowByte (Config.freeByte (s.freeCtr + t)) (o.toNat + t)))

/-- A well-formed read with BUSY = 1 (20_memory.md R57). -/
def State.readBusy (s : State) (o : Offset) (n : AccessSize) : Word :=
  match o.toNat with
  | 0x004 => s.statusBusy
  | 0x028 => BitVec.ofNat 32 s.params.ibufCap
  | 0x02C => BitVec.ofNat 32 s.params.obufCap
  | 0x030 => BitVec.ofNat 32 s.params.bitbufCap
  | _ => freeValue s.freeCtr n

/-- `MemRead(o, n)` (00_scope.md R9): an ill-formed read returns an unspecified value (20_memory.md R46). -/
def State.busRead (s : State) (o : Offset) (n : AccessSize) : Word :=
  if accessWellFormed o n then (if s.busy then s.readBusy o n else s.readIdle o n)
  else freeValue s.freeCtr n

/-- What a read leaves: the host has its value, and no state of the block changes (20_memory.md R49;
assumption log 7, 14). -/
def State.afterRead (s : State) (v : Word) : State :=
  { s with hostReads := s.hostReads ++ [v], freeCtr := s.freeCtr + 4 }

/-! ### Writes -/

/-- A well-formed write in the register region with BUSY = 0 (10_state.md R18, R20, R22; 20_memory.md R51, R58). -/
def State.writeRegister (s : State) (o : Nat) (v : Word) : State :=
  match o with
  | 0x000 => s.accept v
  | 0x008 => { s with arg := v }
  | 0x010 => { s with ibufLen := min v.toNat s.params.ibufCap }
  | _ => s

/-- `IBUF[i] <- b` for i < IBUF_CAP; at or past it the write is dropped (20_memory.md R52). -/
def State.writeCell (s : State) (i : Nat) (b : Byte) : State :=
  if i < s.params.ibufCap then { s with ibuf := s.ibuf.write i b } else s

/-- The first `n` bytes of `v` to the IBUF cells from `i` on (20_memory.md R43, R52). -/
def State.writeCells (s : State) (i n : Nat) (v : Word) : State :=
  (List.range n).foldl (fun s t => s.writeCell (i + t) (wordByte v t)) s

/-- A well-formed write with BUSY = 0 (20_memory.md R51, R52, R56, R58). -/
def State.writeIdle (s : State) (o : Offset) (n : AccessSize) (v : Word) : State :=
  if o.toNat < 0x100000 then s.writeRegister o.toNat v
  else if o.toNat < 0x200000 then s.writeCells (o.toNat - 0x100000) (sizeBytes n) v
  else s

/-- A well-formed write with BUSY = 1: dropped, and a CMD write sets OVERRUN
(20_memory.md R57, 10_state.md R36). -/
def State.writeBusy (s : State) (o : Offset) : State :=
  if o.toNat = 0x000 then { s with overrun := true } else s

/-- `MemWrite(o, n, v)` (00_scope.md R9): an ill-formed write is dropped (20_memory.md R46). -/
def State.busWrite (s : State) (o : Offset) (n : AccessSize) (v : Word) : State :=
  if accessWellFormed o n then (if s.busy then s.writeBusy o else s.writeIdle o n v) else s

end Sys2Proof.Machine
end

