-- ==== Sys2Proof/Machine/Agents.lean ====
section
/-! DEFINITION. The two agents' moves (00_scope.md R13): the block's perform step (45_control.md R116) and the
host's accesses and reset (20_memory.md R60, 70_reset_and_hazards.md R141), and which of them is next
(assumption log 1, 2, 3). -/

namespace Sys2Proof.Machine

/-- The perform step on the accepted word `w`: decode it and run that command, or complete with ILLEGAL_CMD
(45_control.md R116, R121). -/
def performWord (w : Word) (s : State) : Host.Outcome State Fault Refusal :=
  match decode w with
  | .ok i => exec i s
  | .error _ => performIllegal s

/-- The block's turn: it performs the pending command; with none pending no state changes
(45_control.md R116; assumption log 2). -/
def blockTurn (s : State) : Host.Outcome State Fault Refusal :=
  match s.pending with
  | some w => performWord w s
  | none => .next s

/-- The host's read: the value is recorded, an ill-formed access is refused (20_memory.md R46, R49). -/
def readTurn (s : State) (o : Offset) (n : AccessSize) : Host.Outcome State Fault Refusal :=
  if accessWellFormed o n then .next (s.afterRead (s.busRead o n)) else .refused (.illFormedAccess o n)

/-- The host's write; an ill-formed access is refused (20_memory.md R46, 45_control.md R123). -/
def writeTurn (s : State) (o : Offset) (n : AccessSize) (v : Word) : Host.Outcome State Fault Refusal :=
  if accessWellFormed o n then .next (s.busWrite o n v) else .refused (.illFormedAccess o n)

/-- The offset of STATUS (10_state.md R17). -/
def statusOffset : Offset := 0x000004

/-- `wait` (30_encoding.md R78): while BUSY = 1 the turn goes to the block and the host goes on waiting;
else the STATUS read that ends the loop (assumption log 3). `s` is the state with the turn taken off. -/
def waitTurn (s : State) : Host.Outcome State Fault Refusal :=
  if s.busy then blockTurn { s with agenda := .wait :: s.agenda } else readTurn s statusOffset .word

/-- One turn; `s` is the state with the turn taken off its agenda. -/
def takeTurn (t : Turn) (s : State) : Host.Outcome State Fault Refusal :=
  match t with
  | .read o n => readTurn s o n
  | .write o n v => writeTurn s o n v
  | .reset => .next s.hardReset
  | .wait => waitTurn s
  | .block => blockTurn s

/-- The next move: the first turn of the agenda; when the host has nothing left to do, the block's. -/
def nextMove (s : State) : Host.Outcome State Fault Refusal :=
  match s.agenda with
  | [] => blockTurn s
  | t :: rest => takeTurn t { s with agenda := rest }

/-- `s` with the command word `w` accepted and the block next to move: PENDING is where the block fetches a
command from (20_memory.md R65; assumption log 16). -/
def withCommand (s : State) (w : Word) : State := { s with pending := some w, agenda := [] }

end Sys2Proof.Machine
end

