-- ==== Sys2Proof/Machine/Step.lean ====
section
/-! DEFINITION. One step of the machine (45_control.md R123), and the state whose next step performs a given
command word. -/

namespace Sys2Proof.Machine

/-- One step: a host access, a reset or a perform step (45_control.md R123). -/
def step (s : State) : Host.Outcome State Fault Refusal := nextMove s

/-- `s` with the opcode-table word `w` (of `nbits` bits, the bits above them 0) pending and the block next to
move (assumption log 16). -/
def State.withFetchWord (s : State) (nbits w : Nat) : State :=
  withCommand s (BitVec.ofNat 32 (w % 2 ^ nbits))

end Sys2Proof.Machine
end

