-- ==== Sys2Proof/Machine/Script.lean ====
section
/-! DEFINITION. The host script notation (30_encoding.md R74–R80): the offset of each named element, the bus
transactions of each statement, the run of a script for every place the perform steps may fall
(20_memory.md R60; assumption log 24), and where a run ends (45_control.md R124; assumption log 20). -/

namespace Sys2Proof.Machine

/-- The offset of a named register (10_state.md R17). -/
def regOffset : Reg → Offset
  | .cmd => 0x000
  | .status => 0x004
  | .arg => 0x008
  | .errpos => 0x00C
  | .ibufLen => 0x010
  | .obufLen => 0x014
  | .bitlen => 0x018
  | .nodeCount => 0x01C
  | .root => 0x020
  | .rootWeight => 0x024
  | .ibufCapR => 0x028
  | .obufCapR => 0x02C
  | .bitbufCapR => 0x030

/-- offset(X) (30_encoding.md R74, 20_memory.md R50). -/
def elemOffset : Elem → Offset
  | .reg r => regOffset r
  | .ibuf i => BitVec.ofNat 24 (0x100000 + i)
  | .obuf k => BitVec.ofNat 24 (0x200000 + k)
  | .bitbuf k => BitVec.ofNat 24 (0x300000 + k)
  | .freq s => BitVec.ofNat 24 (0x400 + 4 * s.toNat)
  | .codeLen s => BitVec.ofNat 24 (0x800 + 4 * s.toNat)
  | .node h => BitVec.ofNat 24 (0x1000 + 8 * h.toNat)
  | .nodeD h => BitVec.ofNat 24 (0x1000 + 8 * h.toNat + 4)
  | .codeBits s m => BitVec.ofNat 24 (0x2000 + 32 * s.toNat + 4 * m.val)

/-- `load` (30_encoding.md R77): the bytes from cell `i` on, one write each. R77 also lets an assembler write each
aligned group of four bytes with one 4-byte `wr`, as the programs of 95_test_vectors.md do; that the layer takes the
byte writes is the model's choice (DESIGN CHOICE, assumption log 25). -/
def loadBytes : List Byte → Nat → List Turn
  | [], _ => []
  | b :: bytes, i => .write (elemOffset (.ibuf i)) .byte (b.setWidth 32) :: loadBytes bytes (i + 1)

/-- The bus transactions of a statement that moves no value the host has read (30_encoding.md R75–R78); none for
`copyout`, whose transactions depend on what its reads return. -/
def transactions : Stmt → Option (List Turn)
  | .wr x v => some [.write (elemOffset x) .word v]
  | .wrh x v => some [.write (elemOffset x) .half v]
  | .wrb x v => some [.write (elemOffset x) .byte v]
  | .rd x => some [.read (elemOffset x) .word]
  | .rdh x => some [.read (elemOffset x) .half]
  | .rdb x => some [.read (elemOffset x) .byte]
  | .cmd i => some [.write (regOffset .cmd) .word (encode i)]
  | .run i => some [.write (regOffset .cmd) .word (encode i), .wait]
  | .load bytes =>
    some (loadBytes bytes 0 ++ [.write (regOffset .ibufLen) .word (BitVec.ofNat 32 bytes.length)])
  | .wait => some [.wait]
  | .copyout => none

/-! ### Running the host -/

/-- Where the perform steps fall: one entry for each access of the host, true where the block has its turn
before that access. 20_memory.md R60 lets a pending command be performed between any two host accesses, and
95_test_vectors.md V-BUS-10 says that both outcomes are allowed. The model chooses none: `Slots` is an argument
of every run below, and a claim about a script is about all of them. Past the end of the list the block has no
turn of its own, and a `wait` still gives it one (assumption log 3, 24). -/
abbrev Slots := List Bool

/-- How a part of a host's run ends: with a state and the slots still to come, or with a step that stops. -/
abbrev HostRun := Host.Outcome (State × Slots) Fault Refusal

/-- One part of a run after another; a fault or a refusal ends the whole. -/
def HostRun.andThen (r : HostRun) (next : State → Slots → HostRun) : HostRun :=
  match r with
  | .next (s, slots) => next s slots
  | .fault f => .fault f
  | .refused r => .refused r

/-- Steps until the agenda is empty, at most `fuel` of them. -/
def drain : (fuel : Nat) → State → Host.Outcome State Fault Refusal
  | 0, s => .next s
  | fuel + 1, s =>
    match s.agenda with
    | [] => .next s
    | _ :: _ =>
      match step s with
      | .next s' => drain fuel s'
      | .fault f => .fault f
      | .refused r => .refused r

/-- The block's turn, if this slot gives it one, and then the host's turns `turns`, at most one: an access is one
step, and a `wait` is one step or, with a command pending, two. -/
def runSlot (turns : List Turn) (s : State) (slots : Slots) : HostRun :=
  let blockFirst : List Turn := if slots.headD false then [.block] else []
  match drain 2 { s with agenda := blockFirst ++ turns } with
  | .next s' => .next (s', slots.tail)
  | .fault f => .fault f
  | .refused r => .refused r

/-- Host turns one after another, each with its slot. -/
def runTurns : List Turn → State → Slots → HostRun
  | [], s, slots => .next (s, slots)
  | t :: turns, s, slots => (runSlot [t] s slots).andThen (runTurns turns)

/-- The value the host's last read returned (30_encoding.md R75: the `name` of a `rd`). -/
def State.lastRead (s : State) : Word := s.hostReads.getLastD 0

/-- The loop of `copyout`, `n` bytes from byte `k` on: each byte is read from OBUF and the value that read
returned is written to IBUF (30_encoding.md R79). -/
def copyBytes : (n k : Nat) → State → Slots → HostRun
  | 0, _, s, slots => .next (s, slots)
  | n + 1, k, s, slots =>
    (runSlot [.read (elemOffset (.obuf k)) .byte] s slots).andThen fun s slots =>
      (runSlot [.write (elemOffset (.ibuf k)) .byte s.lastRead] s slots).andThen (copyBytes n (k + 1))

/-- `copyout` (30_encoding.md R79): the length and the bytes are what the host's own reads return. It requires a
length of at most IBUF_CAP. -/
def runCopyout (s : State) (slots : Slots) : HostRun :=
  (runSlot [.read (regOffset .obufLen) .word] s slots).andThen fun s slots =>
    let n := s.lastRead
    (copyBytes n.toNat 0 s slots).andThen (runSlot [.write (regOffset .ibufLen) .word n])

/-- One statement (30_encoding.md R75–R79). -/
def runStmt (st : Stmt) (s : State) (slots : Slots) : HostRun :=
  match transactions st with
  | some turns => runTurns turns s slots
  | none => runCopyout s slots

/-- The statements of a script in order, then the slot after the last of them (20_memory.md R60). -/
def runScript : List Stmt → State → Slots → HostRun
  | [], s, slots => runSlot [] s slots
  | st :: script, s, slots => (runStmt st s slots).andThen (runScript script)

/-- The end of a run (45_control.md R124): a script's run has ended when its last statement is over and no command
is pending, as after a `wait`, and the final state is the block's state at that point. A script whose last
statement leaves a command pending has not ended, and a run that stops has no final state. -/
def endOfRun (script : List Stmt) (s : State) (slots : Slots) : Option State :=
  match runScript script s slots with
  | .next (t, _) => if t.pending.isNone then some t else none
  | .fault _ => none
  | .refused _ => none

end Sys2Proof.Machine
end

