-- ==== Sys2Proof/Safety.lean ====
section
/-! DEFINITION. The terms the claims are stated in: what the input of a command is, how a command's
completion leaves the status, paths in the tree, the tree invariant (10_state.md R29), and the invariant of
the whole machine. A run is safe when every state of it satisfies `Inv`. -/

namespace Sys2Proof.Machine

/-! ### Input and completion -/

/-- The input bytes IBUF[0..IBUF_LEN) are all written, and they are `bytes` (10_state.md R32). -/
def State.InputIs (s : State) (bytes : List Byte) : Prop :=
  s.ibufLen = bytes.length ∧ ∀ i, i < bytes.length → s.ibuf.read i = bytes[i]?

/-- `s` after `complete(0x00, 0)` (45_control.md R117). -/
def State.succeeded (s : State) : State :=
  { s with pending := none, done := true, err := false, errcode := 0x00, errpos := 0 }

/-- `s` after `complete(number, pos)` with a non-zero `number` (45_control.md R117). -/
def State.failed (s : State) (number : Byte) (pos : Nat) : State :=
  { s with pending := none, done := true, err := true, errcode := number, errpos := BitVec.ofNat 32 pos }

/-- An outcome with `f` applied to its next state. -/
def mapNext (f : State → State) : Host.Outcome State Fault Refusal → Host.Outcome State Fault Refusal
  | .next s => .next (f s)
  | .fault e => .fault e
  | .refused r => .refused r

/-- The next state of an outcome, none where there is no next state. -/
def nextOf : Host.Outcome State Fault Refusal → Option State
  | .next s => some s
  | .fault _ => none
  | .refused _ => none

/-! ### Tables -/

/-- The sum of FREQ[0..255] (40_tree_builder.md R83). -/
def freqTotal (freq : Table Word) : Nat := (allSymbols.map (fun a => (freq.get a).toNat)).sum

/-- The bits of `bytes` through a code table, in order (42_encoder.md R98). -/
def codedBits (code : Table (List Bit)) (bytes : List Byte) : List Bit := bytes.flatMap code.get

/-! ### The tree -/

/-- n, the number of Leaf nodes of a tree of 2n − 1 nodes (10_state.md R29). -/
def leafCount (nodes : List Node) : Nat := (nodes.length + 1) / 2

/-- `h` is an Internal node and `c` is its left or its right child. -/
def IsChild (nodes : List Node) (h c : Nat) : Prop :=
  ∃ l r, children nodes h = some (l, r) ∧ (c = l ∨ c = r)

/-- A path down the tree: 0 for a step to a left child, 1 for a step to a right child
(41_code_generator.md R96). -/
inductive Path (nodes : List Node) : Nat → List Bit → Nat → Prop where
  | here (h : Nat) : Path nodes h [] h
  | left {h l r k : Nat} {p : List Bit} :
      children nodes h = some (l, r) → Path nodes l p k → Path nodes h (false :: p) k
  | right {h l r k : Nat} {p : List Bit} :
      children nodes h = some (l, r) → Path nodes r p k → Path nodes h (true :: p) k

/-- The tree invariant of 10_state.md R29, with n = `leafCount nodes`. -/
structure TreeShape (nodes : List Node) : Prop where
  /-- 1 ≤ n -/
  nonempty : 1 ≤ leafCount nodes
  /-- n ≤ 256 -/
  bounded : leafCount nodes ≤ 256
  /-- |NODE| = 2n − 1 -/
  size : nodes.length = 2 * leafCount nodes - 1
  /-- handles 0..n−1 are Leaves -/
  leaves : ∀ h, h < leafCount nodes → ∃ a, leafSym nodes h = some a
  /-- their symbols strictly increase with the handle -/
  sorted : ∀ h k a b, h < k → leafSym nodes h = some a → leafSym nodes k = some b → a.toNat < b.toNat
  /-- handles n..2n−2 are Internal; left(h) < h, right(h) < h, left(h) ≠ right(h), and the weight of h is
  the sum of its children's -/
  internals : ∀ h, leafCount nodes ≤ h → h < nodes.length →
    ∃ l r, children nodes h = some (l, r) ∧ l < h ∧ r < h ∧ l ≠ r
      ∧ weightOf nodes h = weightOf nodes l + weightOf nodes r
  /-- every handle except the root is the child of exactly one Internal node -/
  oneParent : ∀ c, c < rootHandle nodes → ∃ h, IsChild nodes h c ∧ ∀ g, IsChild nodes g c → g = h

/-! ### Commands, merges and accesses, as the claims speak of them -/

/-- The ten rows of the opcode map, written out from 30_encoding.md R70. -/
def opcodeMap : List (Word × Instr) :=
  [(0x00000001, .freq), (0x00000002, .tree), (0x00000003, .codes), (0x00000004, .build),
   (0x00000005, .encode), (0x00000006, .pack), (0x00000007, .unpack), (0x00000017, .unpackT),
   (0x00000008, .decode), (0x00000009, .clear)]

/-- Handle `x` is in the working set Q when node `h` is made: it exists and is no child yet
(40_tree_builder.md R85). -/
def Available (nodes : List Node) (h x : Nat) : Prop := x < h ∧ ∀ g, g < h → ¬ IsChild nodes g x

/-- The key order of 40_tree_builder.md R87: by weight, then by handle. -/
def KeyBefore (nodes : List Node) (a b : Nat) : Prop :=
  weightOf nodes a < weightOf nodes b ∨ (weightOf nodes a = weightOf nodes b ∧ a < b)

/-- The state after a host's read that returned `v`: the host has the value and nothing of the block has
changed (20_memory.md R49). That the read advances the model's free-value counter is the model's (log 7). -/
def afterReading (s : State) (rest : List Turn) (v : Word) : State :=
  { s with agenda := rest, hostReads := s.hostReads ++ [v], freeCtr := s.freeCtr + 4 }

/-- The host's read at offset `o` returns `v`, whatever is pending. -/
def ReadGives (s : State) (o : Nat) (n : AccessSize) (v : Word) : Prop :=
  ∀ rest, step { s with agenda := .read (BitVec.ofNat 24 o) n :: rest } = .next (afterReading s rest v)

/-- The host's write at offset `o` is dropped. -/
def WriteDropped (s : State) (o : Nat) (n : AccessSize) (v : Word) : Prop :=
  ∀ rest, step { s with agenda := .write (BitVec.ofNat 24 o) n v :: rest } = .next { s with agenda := rest }

/-! ### The invariant of the machine -/

/-- What holds of every state of a safe run. -/
structure Inv (s : State) : Prop where
  /-- the parameters meet 00_scope.md R7 -/
  params : s.params.wellFormed = true
  /-- IBUF_LEN is in 0..IBUF_CAP (10_state.md R22) -/
  ibufLen : s.ibufLen ≤ s.params.ibufCap
  /-- IBUF keeps its canonical form -/
  ibufForm : Memory.wf s.ibuf
  /-- only cells 0..IBUF_CAP−1 are written (10_state.md R32) -/
  ibufCells : ∀ c ∈ s.ibuf, c.1 < s.params.ibufCap
  /-- the counts are those of at most IBUF_CAP bytes (40_tree_builder.md R83, 00_scope.md R7) -/
  counts : freqTotal s.freq ≤ s.params.ibufCap
  /-- every node weight is at most IBUF_CAP (00_scope.md R7) -/
  weights : ∀ h, weightOf s.nodes h ≤ s.params.ibufCap
  /-- |BITBUF| ≤ BITBUF_CAP (10_state.md R27) -/
  bitbuf : s.bitbuf.length ≤ s.params.bitbufCap
  /-- |OBUF| ≤ OBUF_CAP (10_state.md R33) -/
  obuf : s.obuf.length ≤ s.params.obufCap
  /-- |CODE[s]| ≤ 255 (10_state.md R30) -/
  codeLen : ∀ a, (s.code.get a).length ≤ 255
  /-- the tree invariant (10_state.md R29) -/
  tree : s.treeValid = true → TreeShape s.nodes
  /-- with no tree the arena is empty (40_tree_builder.md R85, 45_control.md R120) -/
  noTree : s.treeValid = false → s.nodes = []
  /-- CODES_VALID = 1 implies TREE_VALID = 1 (10_state.md R34) -/
  codesNeedTree : s.codesValid = true → s.treeValid = true
  /-- with CODES_VALID = 1 the code table is the one of the current tree (10_state.md R34) -/
  codes : s.codesValid = true → s.code = codeTable s.nodes
  /-- with CODES_VALID = 0 the code table is empty (40_tree_builder.md R85, 41_code_generator.md R94) -/
  noCodes : s.codesValid = false → ∀ a, s.code.get a = []
  /-- ERR = (ERRCODE ≠ 0) (10_state.md R19) -/
  errFlag : s.err = decide (s.errcode ≠ 0)
  /-- ERRCODE is no reserved code (60_exceptions.md R125, 93_implementation_defined.md U7) -/
  errcode : s.errcode.toNat ≤ 0x0A
  /-- ERRPOS is 0 when there is no error (10_state.md R21) -/
  errpos : s.errcode = 0 → s.errpos = 0
  /-- no error is reported before a completion (10_state.md R35) -/
  notDone : s.done = false → s.errcode = 0
  /-- DONE = 0 while BUSY = 1 (45_control.md R115) -/
  busy : s.pending.isSome = true → s.done = false

end Sys2Proof.Machine
end

