-- ==== Sys2Proof/Certificates/Slice0/Obligations.lean ====
section
/-! DEFINITION. The statements for the provers, in the order of the spec's rules. Each docstring names the
rule it formalises. A clause that rests on a choice of the model says so. -/

open Sys2Proof Sys2Proof.Machine

/-! ### Reset -/

/-- 10_state.md R40: the value of every piece of state after reset. -/
def Obligations.ResetValues : Prop :=
  State.reset.pending = none ∧ State.reset.status = 0x00000000
    ∧ State.reset.done = false ∧ State.reset.err = false ∧ State.reset.treeValid = false
    ∧ State.reset.codesValid = false ∧ State.reset.overrun = false ∧ State.reset.errcode = 0x00
    ∧ State.reset.arg = 0 ∧ State.reset.errpos = 0 ∧ State.reset.ibufLen = 0
    ∧ (∀ i, State.reset.ibuf.read i = none)
    ∧ (∀ a, State.reset.freq.get a = 0)
    ∧ State.reset.nodes = [] ∧ State.reset.nodeCount = 0 ∧ State.reset.root = 0 ∧ State.reset.rootWeight = 0
    ∧ (∀ a, State.reset.code.get a = [])
    ∧ State.reset.bitbuf = [] ∧ State.reset.obuf = []
    ∧ State.reset.busRead 0x000028 .word = BitVec.ofNat 32 State.reset.params.ibufCap
    ∧ State.reset.busRead 0x00002C .word = BitVec.ofNat 32 State.reset.params.obufCap
    ∧ State.reset.busRead 0x000030 .word = BitVec.ofNat 32 State.reset.params.bitbufCap

/-- 70_reset_and_hazards.md R142: a reset discards the pending command; whether the command was performed
before the reset or never is, the state after reset is that of reset. The parameters and the host's own fields
(agenda, hostReads, freeCtr) are no state of the block: that they stay is the model's choice (log 15). -/
def Obligations.ResetDiscardsPendingCommand : Prop :=
  ∀ (s : State) (rest : List Turn),
    (s.agenda = .reset :: rest →
      step s = .next { State.reset with
        params := s.params, agenda := rest, hostReads := s.hostReads, freeCtr := s.freeCtr })
    ∧ (∀ s1, s.agenda = .block :: .reset :: rest → step s = .next s1 →
      step s1 = .next { State.reset with
        params := s.params, agenda := rest, hostReads := s.hostReads, freeCtr := s.freeCtr })

/-! ### The command word -/

/-- Each row's word decodes to the row's command (a sanity statement; 30_encoding.md R70). -/
def Obligations.TableWordsDecode : Prop :=
  ∀ row ∈ opcodeMap, decode row.1 = .ok row.2

/-- 30_encoding.md R70: among all 2^32 words, the decoder gives command `i` exactly for the word that encodes
`i`, which is the word of the row of `i`; the two UNPACK rows are the words with (w & 0xFFFFFFEF) = 7; a word
matches at most one row, and one that matches none is illegal. -/
def Obligations.DecodeInvertsEncodeOnAllWords : Prop :=
  ∀ w : Word,
    (∀ i : Instr, (decode w = .ok i ↔ encode i = w) ∧ (decode w = .ok i ↔ (w, i) ∈ opcodeMap))
    ∧ (w &&& 0xFFFFFFEF = 0x00000007 ↔ decode w = .ok .unpack ∨ decode w = .ok .unpackT)
    ∧ (∀ i j : Instr, (w, i) ∈ opcodeMap → (w, j) ∈ opcodeMap → i = j)
    ∧ ((∀ i : Instr, (w, i) ∉ opcodeMap) ↔ ∃ e, decode w = .error e)

/-- 30_encoding.md R72: the illegal words are exactly those of its three items, and performing one, on the
block's turn, changes nothing except the completion status: ERRCODE = 0x01, ERRPOS = 0. -/
def Obligations.IllegalWordsFailAndChangeNothing : Prop :=
  (∀ w : Word,
    ((∃ e, decode w = .error e) ↔
      (w.toNat % 16 = 0 ∨ 0xA ≤ w.toNat % 16) ∨ w.toNat / 32 ≠ 0
        ∨ (w.getLsbD 4 = true ∧ w.toNat % 16 ≠ 0x7)))
  ∧ ∀ (s : State) (w : Word) (rest : List Turn), s.agenda = .block :: rest → s.pending = some w →
    (∃ e, decode w = .error e) → step s = .next ({ s with agenda := rest }.failed 0x01 0)

/-! ### The lifecycle -/

/-- 45_control.md R115: a well-formed 4-byte write of `w` to CMD with PENDING = none is accepted, whatever `w`
is; with a command pending it is not accepted, and sets OVERRUN. -/
def Obligations.CommandWriteIsAccepted : Prop :=
  ∀ (s : State) (rest : List Turn) (w : Word), s.agenda = .write 0x000000 .word w :: rest →
    (s.pending = none → step s = .next { s with
      agenda := rest, pending := some w, done := false, err := false, errcode := 0x00, errpos := 0 })
    ∧ (s.pending.isSome = true → step s = .next { s with agenda := rest, overrun := true })

/-- A step runs the decoded command (45_control.md R116): when the block is to move (the agenda is empty, its
head is the block's turn, or the host waits) and a word that decodes to `i` is pending, the step is `exec i`;
with an illegal word pending the step completes with ILLEGAL_CMD, and with nothing pending the block's turn
changes nothing but the agenda. That the block moves when the agenda is empty, and while the host waits, is the
model's choice (log 2, 3). -/
def Obligations.StepRunsDecodedCommand : Prop :=
  ∀ (s : State) (rest : List Turn),
    (∀ w i, s.pending = some w → decode w = .ok i →
      (s.agenda = [] → step s = exec i s)
      ∧ (s.agenda = .block :: rest → step s = exec i { s with agenda := rest })
      ∧ (s.agenda = .wait :: rest → step s = exec i s))
    ∧ (∀ w e, s.pending = some w → decode w = .error e →
      (s.agenda = [] → step s = .next (s.failed 0x01 0))
      ∧ (s.agenda = .block :: rest → step s = .next ({ s with agenda := rest }.failed 0x01 0))
      ∧ (s.agenda = .wait :: rest → step s = .next (s.failed 0x01 0)))
    ∧ (s.pending = none →
      (s.agenda = [] → step s = .next s)
      ∧ (s.agenda = .block :: rest → step s = .next { s with agenda := rest })
      ∧ (s.agenda = .wait :: rest → step s = .next { s with
          agenda := rest, hostReads := s.hostReads ++ [s.statusIdle], freeCtr := s.freeCtr + 4 }))

/-- 45_control.md R117: what every command that completes leaves in PENDING, DONE, ERR, ERRCODE and ERRPOS. -/
def Obligations.CompletionStatus : Prop :=
  ∀ (i : Instr) (s t : State), exec i s = .next t →
    t.pending = none ∧ t.done = true ∧ t.err = decide (t.errcode ≠ 0x00)
      ∧ (t.errcode = 0x00 → t.errpos = 0)

/-- 45_control.md R123: a perform step never ends in a refusal, and the one fault it can end in is
UnwrittenInput(i), for an unwritten cell i < IBUF_LEN of the input. -/
def Obligations.OnlyUnwrittenInputFaults : Prop :=
  ∀ (i : Instr) (s : State),
    (∃ t, exec i s = .next t)
    ∨ ∃ j, j < s.ibufLen ∧ s.ibuf.read j = none ∧ exec i s = .fault (.unwrittenInput j)

/-- 20_memory.md R62: a command that comes to an unwritten IBUF cell ends in UnwrittenInput of that cell. For
FREQ and BUILD that is the first unwritten cell of the input; for ENCODE the cells before it hold bytes with
codes that fit; for UNPACK and UNPACK.T it is the first unwritten cell among those they read. -/
def Obligations.UnwrittenCellFaults : Prop :=
  ∀ (s : State) (before : List Byte),
    (∀ j, j < before.length → s.ibuf.read j = before[j]?) → s.ibuf.read before.length = none →
    (before.length < s.ibufLen →
      exec .freq s = .fault (.unwrittenInput before.length)
      ∧ exec .build s = .fault (.unwrittenInput before.length)
      ∧ (s.codesValid = true → (∀ b ∈ before, s.code.get b ≠ []) →
          (codedBits s.code before).length ≤ s.params.bitbufCap →
          exec .encode s = .fault (.unwrittenInput before.length))
      ∧ (8 * s.ibufLen ≤ s.params.bitbufCap → exec .unpack s = .fault (.unwrittenInput before.length)))
    ∧ (8 * before.length < s.arg.toNat → s.arg.toNat ≤ 8 * s.ibufLen → s.arg.toNat ≤ s.params.bitbufCap →
        exec .unpackT s = .fault (.unwrittenInput before.length))

/-- Which state a command can write (30_encoding.md R69): apart from the completion status, FREQ writes FREQ;
TREE writes NODE, CODE, TREE_VALID and CODES_VALID; CODES writes CODE and CODES_VALID; BUILD writes FREQ and
these; ENCODE, UNPACK and UNPACK.T write BITBUF; PACK and DECODE write OBUF; CLEAR writes all of them and
OVERRUN. Everything else is unchanged: every IBUF cell, IBUF_LEN, ARG and the host's side among it. -/
def Obligations.CommandsWriteOnlyTheirDestination : Prop :=
  ∀ (i : Instr) (s t : State), exec i s = .next t →
    t = { s with
      pending := none, done := true, err := t.err, errcode := t.errcode, errpos := t.errpos
      freq := if i = .freq ∨ i = .build ∨ i = .clear then t.freq else s.freq
      nodes := if i = .tree ∨ i = .build ∨ i = .clear then t.nodes else s.nodes
      code := if i = .tree ∨ i = .codes ∨ i = .build ∨ i = .clear then t.code else s.code
      treeValid := if i = .tree ∨ i = .build ∨ i = .clear then t.treeValid else s.treeValid
      codesValid := if i = .tree ∨ i = .codes ∨ i = .build ∨ i = .clear then t.codesValid else s.codesValid
      bitbuf := if i = .encode ∨ i = .unpack ∨ i = .unpackT ∨ i = .clear then t.bitbuf else s.bitbuf
      obuf := if i = .pack ∨ i = .decode ∨ i = .clear then t.obuf else s.obuf
      overrun := if i = .clear then t.overrun else s.overrun }

/-- 10_state.md R34: TREE_VALID and CODES_VALID after each command and after reset, and the invariant that
ties them to the code table. -/
def Obligations.ValidFlags : Prop :=
  (∀ (i : Instr) (s t : State), exec i s = .next t →
    t.treeValid = (if i = .tree ∨ i = .build then !t.err else if i = .clear then false else s.treeValid)
    ∧ t.codesValid = (if i = .codes ∨ i = .build then !t.err
        else if i = .tree ∨ i = .clear then false else s.codesValid))
  ∧ (∀ s : State, s.hardReset.treeValid = false ∧ s.hardReset.codesValid = false)
  ∧ ∀ s : State, Inv s → s.codesValid = true → s.treeValid = true ∧ exec .codes s = .next s.succeeded

/-- The error numbers each command can report (60_exceptions.md R125, the column "raised by"). -/
def Obligations.ErrorCodesOfEachCommand : Prop :=
  ∀ (i : Instr) (s t : State), exec i s = .next t → t.errcode ≠ 0x00 →
    match i with
    | .freq => False
    | .tree => t.errcode = 0x02
    | .codes => t.errcode = 0x06
    | .build => t.errcode = 0x02
    | .encode => t.errcode = 0x03 ∨ t.errcode = 0x07 ∨ t.errcode = 0x08
    | .pack => t.errcode = 0x09
    | .unpack => t.errcode = 0x08
    | .unpackT => t.errcode = 0x08 ∨ t.errcode = 0x0A
    | .decode => t.errcode = 0x04 ∨ t.errcode = 0x05 ∨ t.errcode = 0x06 ∨ t.errcode = 0x09
    | .clear => False

/-- 60_exceptions.md R127: the state a failed command leaves, and the one an illegal word leaves. For CODES "the
code table was already empty" needs the machine's invariant. -/
def Obligations.StateAfterAnError : Prop :=
  (∀ (i : Instr) (s t : State), Inv s → exec i s = .next t → t.err = true →
    match i with
    | .freq => False
    | .clear => False
    | .tree =>
      t = { s with nodes := [], code := Table.all [], treeValid := false, codesValid := false }.failed
        t.errcode t.errpos.toNat
    | .build =>
      (∃ bytes, s.InputIs bytes ∧ ∀ a, t.freq.get a = BitVec.ofNat 32 (bytes.count a))
      ∧ t = { s with
          freq := t.freq, nodes := [], code := Table.all [], treeValid := false, codesValid := false }.failed
        t.errcode t.errpos.toNat
    | .codes => t = s.failed t.errcode t.errpos.toNat ∧ ∀ a, s.code.get a = []
    | .encode => t = { s with bitbuf := [] }.failed t.errcode t.errpos.toNat
    | .unpack => t = { s with bitbuf := [] }.failed t.errcode t.errpos.toNat
    | .unpackT => t = { s with bitbuf := [] }.failed t.errcode t.errpos.toNat
    | .pack => t = { s with obuf := [] }.failed t.errcode t.errpos.toNat
    | .decode => t = { s with obuf := [] }.failed t.errcode t.errpos.toNat)
  ∧ ∀ (s t : State) (w : Word), (∃ e, decode w = .error e) → performWord w s = .next t →
    t = s.failed t.errcode t.errpos.toNat

/-! ### The invariant -/

/-- The invariant holds at reset (10_state.md R29, R34, R40). -/
def Obligations.InvHoldsAtReset : Prop := Inv State.reset

/-- Every step, whichever agent moves and whatever the agenda holds, keeps the invariant: the tree invariant
of 10_state.md R29 whenever TREE_VALID = 1, the code table of the current tree whenever CODES_VALID = 1
(R34), the bounds of every buffer (R22, R27, R30, R33), the canonical form of IBUF, and the coherence of the
status fields (R19, R21, R35; 45_control.md R115). -/
def Obligations.StepKeepsInv : Prop :=
  ∀ s t : State, Inv s → step s = .next t → Inv t

/-! ### FREQ -/

/-- FREQ on written input (40_tree_builder.md R81, R82): from a fresh table it counts each symbol of
IBUF[0..IBUF_LEN), and only FREQ and the completion status change. -/
def Obligations.FreqCountsInput : Prop :=
  ∀ (s : State) (bytes : List Byte), s.InputIs bytes →
    ∃ freq, exec .freq s = .next { s with freq := freq }.succeeded
      ∧ ∀ a, freq.get a = BitVec.ofNat 32 (bytes.count a)

/-- 40_tree_builder.md R83: after FREQ or BUILD the counts sum to the IBUF_LEN of that command. -/
def Obligations.FrequenciesSumToInputLength : Prop :=
  ∀ s t : State, s.ibufLen ≤ 2 ^ 20 → (exec .freq s = .next t ∨ exec .build s = .next t) →
    freqTotal t.freq = s.ibufLen

/-! ### TREE -/

/-- TREE on a non-empty alphabet (40_tree_builder.md R84, R85): it completes with a tree whose k-th leaf is the
k-th symbol of the alphabet in increasing order, with that symbol's count; the code table is emptied, and only
NODE, CODE, the two valid flags and the completion status change. -/
def Obligations.TreeSeedsLeavesInSymbolOrder : Prop :=
  ∀ (s : State) (symbols : List Byte), symbols ≠ [] →
    symbols.Pairwise (fun a b => a.toNat < b.toNat) → (∀ a, a ∈ symbols ↔ s.freq.get a ≠ 0) →
    ∃ nodes : List Node, exec .tree s = .next
        { s with nodes := nodes, code := Table.all [], treeValid := true, codesValid := false }.succeeded
      ∧ ∀ (k : Nat) (a : Byte), symbols[k]? = some a → nodes[k]? = some (Node.leaf a (s.freq.get a))

/-- 40_tree_builder.md R86: a TREE or BUILD that succeeds with n distinct symbols leaves n Leaves, then n − 1
Internal nodes; the root is the last node, and its weight is the sum of all leaf weights, which is the sum of
the counts, and after BUILD the input length. -/
def Obligations.TreeResultShape : Prop :=
  ∀ (i : Instr) (s t : State), i = .tree ∨ i = .build → exec i s = .next t → t.err = false →
    freqTotal t.freq < 2 ^ 32 →
    ∃ n, n = (allSymbols.filter (fun a => decide (t.freq.get a ≠ 0))).length
      ∧ 1 ≤ n ∧ t.nodes.length = 2 * n - 1
      ∧ (∀ h, h < n → ∃ a w, t.nodes[h]? = some (.leaf a w))
      ∧ (∀ h, n ≤ h → h < 2 * n - 1 → ∃ w l r, t.nodes[h]? = some (.internal w l r))
      ∧ t.root = 2 * n - 2
      ∧ t.rootWeight = ((List.range n).map (weightOf t.nodes)).sum
      ∧ t.rootWeight = freqTotal t.freq
      ∧ (i = .build → s.ibufLen < 2 ^ 32 → t.rootWeight = s.ibufLen)

/-- 40_tree_builder.md R87: each merge takes the two least keys of the working set, the least as the left child
and the next as the right child. -/
def Obligations.TreeMergesTheTwoLeastKeys : Prop :=
  ∀ s t : State, exec .tree s = .next t → t.err = false → freqTotal s.freq < 2 ^ 32 →
    ∀ h, leafCount t.nodes ≤ h → h < t.nodes.length →
      ∃ l r, children t.nodes h = some (l, r)
        ∧ Available t.nodes h l ∧ Available t.nodes h r ∧ KeyBefore t.nodes l r
        ∧ ∀ x, Available t.nodes h x → x ≠ l → x ≠ r → KeyBefore t.nodes r x

/-- 40_tree_builder.md R88, R89: TREE on an alphabet of one symbol leaves the single Leaf; on an empty alphabet it
ends in EMPTY_ALPHABET with the tree empty. -/
def Obligations.TreeOfOneSymbolAndOfNone : Prop :=
  (∀ (s : State) (a : Byte), s.freq.get a ≠ 0 → (∀ b, b ≠ a → s.freq.get b = 0) →
    ∃ t, exec .tree s = .next t
      ∧ t = { s with
          nodes := [Node.leaf a (s.freq.get a)], code := Table.all [], treeValid := true
          codesValid := false }.succeeded
      ∧ t.root = 0 ∧ t.nodeCount = 1)
  ∧ ∀ s : State, (∀ a, s.freq.get a = 0) →
    exec .tree s = .next ({ s with
      nodes := [], code := Table.all [], treeValid := false, codesValid := false }.failed 0x02 0)

/-- 40_tree_builder.md R92: the tree depends only on FREQ, and the order of the symbols in IBUF does not
matter. -/
def Obligations.TreeDependsOnlyOnFrequencies : Prop :=
  (∀ s s' t t' : State, s.freq = s'.freq → exec .tree s = .next t → exec .tree s' = .next t' →
    t.nodes = t'.nodes ∧ t.treeValid = t'.treeValid)
  ∧ ∀ (s s' t t' : State) (bytes bytes' : List Byte), s.InputIs bytes → s'.InputIs bytes' →
    bytes.Perm bytes' → exec .build s = .next t → exec .build s' = .next t' →
    t.freq = t'.freq ∧ t.nodes = t'.nodes ∧ t.code = t'.code

/-! ### BUILD -/

/-- BUILD on non-empty written input completes with the counts of that input, a tree of the input's symbols in
which each Leaf weighs its symbol's count, and the tree's code table: the Leaf's path, or `0` for a single Leaf,
and no code for any other symbol (40_tree_builder.md R90); on empty input it fails with EMPTY_ALPHABET and
all-zero counts. Nothing else changes. -/
def Obligations.BuildMakesTreeAndCodes : Prop :=
  ∀ (s : State) (bytes : List Byte), s.InputIs bytes → bytes.length ≤ 2 ^ 20 →
    (bytes ≠ [] → ∃ freq nodes code,
      exec .build s = .next { s with
        freq := freq, nodes := nodes, code := code, treeValid := true, codesValid := true }.succeeded
      ∧ (∀ a, freq.get a = BitVec.ofNat 32 (bytes.count a))
      ∧ TreeShape nodes
      ∧ (∀ a, (∃ h, leafSym nodes h = some a) ↔ a ∈ bytes)
      ∧ (∀ h a, leafSym nodes h = some a →
          weightOf nodes h = bytes.count a
          ∧ (nodes.length = 1 → code.get a = [false])
          ∧ (nodes.length ≠ 1 → Path nodes (rootHandle nodes) (code.get a) h))
      ∧ weightOf nodes (rootHandle nodes) = bytes.length
      ∧ ∀ a, code.get a ≠ [] ↔ a ∈ bytes)
    ∧ (bytes = [] → exec .build s = .next ({ s with
        freq := Table.all 0, nodes := [], code := Table.all [], treeValid := false
        codesValid := false }.failed 0x02 0))

/-- 40_tree_builder.md R91: BUILD's result is that of FREQ, then TREE, then CODES, except for the completion
status in between: after a successful TREE nothing differs, and after a failed one only the error report of
CODES does. BUILD makes one completion. -/
def Obligations.BuildIsFreqThenTreeThenCodes : Prop :=
  ∀ s s1 s2 s3 : State, exec .freq s = .next s1 → exec .tree s1 = .next s2 → exec .codes s2 = .next s3 →
    ∃ t, exec .build s = .next t
      ∧ (s2.err = false → t = s3)
      ∧ (s2.err = true → t = s2)
      ∧ { t with err := s3.err, errcode := s3.errcode, errpos := s3.errpos } = s3

/-! ### CODES -/

/-- 41_code_generator.md R94, R95: CODES with no tree ends in NO_TREE and changes nothing else, the code table
being already empty (the premise is the machine's invariant); with a Leaf at the root its symbol gets the code
`0` and no other symbol gets one. -/
def Obligations.CodesWithoutATreeAndWithOneLeaf : Prop :=
  (∀ s : State, Inv s → s.treeValid = false →
    exec .codes s = .next (s.failed 0x06 0) ∧ ∀ a, s.code.get a = [])
  ∧ ∀ (s : State) (a : Byte), s.treeValid = true → leafSym s.nodes (rootHandle s.nodes) = some a →
    ∃ code, exec .codes s = .next { s with code := code, codesValid := true }.succeeded
      ∧ code.get a = [false] ∧ ∀ b, b ≠ a → code.get b = []

/-- 41_code_generator.md R96: with an Internal root, the code of each Leaf's symbol is its path from the root,
of length 1 to n − 1, and no other symbol has a code. -/
def Obligations.CodesArePathsFromTheRoot : Prop :=
  ∀ s : State, s.treeValid = true → TreeShape s.nodes → leafSym s.nodes (rootHandle s.nodes) = none →
    ∃ code, exec .codes s = .next { s with code := code, codesValid := true }.succeeded
      ∧ (∀ h a, leafSym s.nodes h = some a →
          Path s.nodes (rootHandle s.nodes) (code.get a) h
          ∧ 1 ≤ (code.get a).length ∧ (code.get a).length ≤ leafCount s.nodes - 1
          ∧ (code.get a).length ≤ 255)
      ∧ ∀ a, (∀ h, leafSym s.nodes h ≠ some a) → code.get a = []

/-- 10_state.md R31: whenever CODES_VALID = 1, a symbol has a code exactly when it is a Leaf's, the code is the
Leaf's path from the root, or `0` when the tree is a single Leaf, and no code is a prefix of another. -/
def Obligations.CodeTableInvariant : Prop :=
  ∀ s : State, Inv s → s.codesValid = true →
    (∀ a, 1 ≤ (s.code.get a).length ↔ ∃ h, leafSym s.nodes h = some a)
    ∧ (∀ h a, leafSym s.nodes h = some a →
        (s.nodes.length = 1 → s.code.get a = [false])
        ∧ (s.nodes.length ≠ 1 → Path s.nodes (rootHandle s.nodes) (s.code.get a) h))
    ∧ ∀ a b, a ≠ b → s.code.get a ≠ [] → s.code.get b ≠ [] → ¬ (s.code.get a).IsPrefix (s.code.get b)

/-- 41_code_generator.md R97, third item: for n ≥ 2 the sum of 2^(−|CODE[s]|) over the coded symbols is 1
(here multiplied by 2^255). -/
def Obligations.KraftSumIsOne : Prop :=
  ∀ s t : State, s.treeValid = true → TreeShape s.nodes → 2 ≤ leafCount s.nodes → exec .codes s = .next t →
    ((allSymbols.filter (fun a => decide (t.code.get a ≠ []))).map
      (fun a => 2 ^ (255 - (t.code.get a).length))).sum = 2 ^ 255

/-- 41_code_generator.md R97, fourth item: the encoded length of the counted input is the sum of the weights of
the Internal nodes for n ≥ 2, and the count of the one symbol for n = 1. -/
def Obligations.EncodedLengthIsInternalWeight : Prop :=
  ∀ s t u : State, freqTotal s.freq < 2 ^ 32 → exec .tree s = .next t → t.err = false →
    exec .codes t = .next u →
    (allSymbols.map (fun a => (s.freq.get a).toNat * (u.code.get a).length)).sum =
      if leafCount t.nodes = 1 then freqTotal s.freq
      else (((List.range t.nodes.length).filter (fun h => decide (leafCount t.nodes ≤ h))).map
        (weightOf t.nodes)).sum

/-! ### ENCODE -/

/-- ENCODE with codes for every input byte that fit BITBUF: the concatenation of the codes, in order, replaces
BITBUF (42_encoder.md R98), and nothing else but the completion status changes. -/
def Obligations.EncodeConcatenatesCodes : Prop :=
  ∀ (s : State) (bytes : List Byte), s.codesValid = true → s.InputIs bytes →
    (∀ b ∈ bytes, s.code.get b ≠ []) → (codedBits s.code bytes).length ≤ s.params.bitbufCap →
    exec .encode s = .next { s with bitbuf := codedBits s.code bytes }.succeeded

/-- 42_encoder.md R99, R100: when every input byte before index i has a code and these codes fit, byte i ends
ENCODE in UNKNOWN_SYMBOL at i if it has no code, and in BITBUF_OVERFLOW at i if its code no longer fits; BITBUF
is left empty. -/
def Obligations.EncodeErrorsNameTheirByte : Prop :=
  ∀ (s : State) (before : List Byte) (b : Byte), s.codesValid = true → before.length < s.ibufLen →
    (∀ j, j < before.length → s.ibuf.read j = before[j]?) → s.ibuf.read before.length = some b →
    (∀ c ∈ before, s.code.get c ≠ []) → (codedBits s.code before).length ≤ s.params.bitbufCap →
    (s.code.get b = [] → exec .encode s = .next ({ s with bitbuf := [] }.failed 0x03 before.length))
    ∧ (s.code.get b ≠ [] →
      s.params.bitbufCap < (codedBits s.code before).length + (s.code.get b).length →
      exec .encode s = .next ({ s with bitbuf := [] }.failed 0x08 before.length))

/-- 42_encoder.md R101: ENCODE with CODES_VALID = 0 ends in NO_CODES; what it does does not depend on the tree
or on TREE_VALID, and the bit sequence an earlier command left in BITBUF does not enter its result. -/
def Obligations.EncodeReadsOnlyTheCodeTable : Prop :=
  (∀ s : State, s.codesValid = false → exec .encode s = .next ({ s with bitbuf := [] }.failed 0x07 0))
  ∧ ∀ (s : State) (nodes : List Node) (treeValid : Bool) (bits : List Bit),
    exec .encode { s with nodes := nodes, treeValid := treeValid, bitbuf := bits } =
      mapNext (fun t => { t with nodes := nodes, treeValid := treeValid }) (exec .encode s)

/-! ### PACK and UNPACK -/

/-- 44_bit_packer.md R109, R110: PACK that fits OBUF completes: bit 8k + j of the sequence is bit 7 − j of output
byte k, the tail is padded with 0, there is nothing else in the output, and nothing else but the completion
status changes. A PACK that does not fit ends in OBUF_OVERFLOW with OBUF empty, which cannot happen with the
default parameters. -/
def Obligations.PackIsMostSignificantBitFirst : Prop :=
  (∀ s : State, s.bitbuf.length ≤ 8 * s.params.obufCap →
    ∃ out, exec .pack s = .next { s with obuf := out }.succeeded
      ∧ s.bitbuf.length ≤ 8 * out.length ∧ 8 * out.length < s.bitbuf.length + 8
      ∧ ∀ k j, k < out.length → j < 8 →
        (out.getD k 0).getLsbD (7 - j) = s.bitbuf.getD (8 * k + j) false)
  ∧ (∀ s : State, 8 * s.params.obufCap < s.bitbuf.length →
    exec .pack s = .next ({ s with obuf := [] }.failed 0x09 0))
  ∧ ∀ s t : State, s.params = Config.Params.defaults → s.bitbuf.length ≤ s.params.bitbufCap →
    exec .pack s = .next t → t.err = false

/-- UNPACK of written input that fits BITBUF (44_bit_packer.md R111): exactly 8 bits for each byte, most
significant first; an input that does not fit ends in BITBUF_OVERFLOW before any cell is read, so whether or not
its cells are written. Nothing else changes. -/
def Obligations.UnpackGivesEightBitsAByte : Prop :=
  ∀ s : State,
    (∀ bytes : List Byte, s.InputIs bytes → 8 * bytes.length ≤ s.params.bitbufCap → ∃ bits,
      exec .unpack s = .next { s with bitbuf := bits }.succeeded
      ∧ bits.length = 8 * bytes.length
      ∧ ∀ i, i < bits.length → bits.getD i false = (bytes.getD (i / 8) 0).getLsbD (7 - i % 8))
    ∧ (s.params.bitbufCap < 8 * s.ibufLen →
      exec .unpack s = .next ({ s with bitbuf := [] }.failed 0x08 0))

/-- UNPACK.T (44_bit_packer.md R111, R112): it keeps the first ARG of the 8 × IBUF_LEN bits, reading only the
cells it needs; ARG > 8 × IBUF_LEN ends in BAD_LENGTH, and a count that does not fit BITBUF in
BITBUF_OVERFLOW. Nothing else changes. -/
def Obligations.UnpackTrimKeepsArgBits : Prop :=
  ∀ s : State,
    (∀ bytes : List Byte, s.arg.toNat ≤ 8 * s.ibufLen → s.arg.toNat ≤ s.params.bitbufCap →
      s.arg.toNat ≤ 8 * bytes.length → 8 * bytes.length < s.arg.toNat + 8 →
      (∀ i, i < bytes.length → s.ibuf.read i = bytes[i]?) →
      ∃ bits, exec .unpackT s = .next { s with bitbuf := bits }.succeeded
        ∧ bits.length = s.arg.toNat
        ∧ ∀ i, i < bits.length → bits.getD i false = (bytes.getD (i / 8) 0).getLsbD (7 - i % 8))
    ∧ (8 * s.ibufLen < s.arg.toNat → exec .unpackT s = .next ({ s with bitbuf := [] }.failed 0x0A 0))
    ∧ (s.arg.toNat ≤ 8 * s.ibufLen → s.params.bitbufCap < s.arg.toNat →
      exec .unpackT s = .next ({ s with bitbuf := [] }.failed 0x08 0))

/-- 44_bit_packer.md R113: UNPACK of what PACK gave is the sequence again, followed by zeros up to a whole byte;
UNPACK.T with ARG its length is exactly the sequence. `u` is any state whose input is PACK's output (after the
host's copyout). -/
def Obligations.PackUnpackRoundTrip : Prop :=
  ∀ s t u : State, exec .pack s = .next t → t.err = false → u.InputIs t.obuf →
    (8 * t.obuf.length ≤ u.params.bitbufCap → ∃ v, exec .unpack u = .next v ∧ v.err = false
      ∧ v.bitbuf = s.bitbuf ++ List.replicate ((8 - s.bitbuf.length % 8) % 8) false)
    ∧ (s.bitbuf.length ≤ u.params.bitbufCap → u.arg.toNat = s.bitbuf.length →
      ∃ v, exec .unpackT u = .next v ∧ v.err = false ∧ v.bitbuf = s.bitbuf)

/-- 10_state.md R20: ARG keeps all 32 bits written to it, a read returns them, only UNPACK.T depends on it, and
no command (CLEAR among them) changes it. -/
def Obligations.ArgRegister : Prop :=
  (∀ (s : State) (v : Word) (rest : List Turn), s.pending = none →
    (s.agenda = .write 0x000008 .word v :: rest → step s = .next { s with agenda := rest, arg := v })
    ∧ (s.agenda = .read 0x000008 .word :: rest → step s = .next { s with
        agenda := rest, hostReads := s.hostReads ++ [s.arg], freeCtr := s.freeCtr + 4 }))
  ∧ State.reset.arg = 0
  ∧ (∀ (i : Instr) (s : State) (v : Word), i ≠ .unpackT →
    exec i { s with arg := v } = mapNext (fun t => { t with arg := v }) (exec i s))
  ∧ ∀ (i : Instr) (s t : State), exec i s = .next t → t.arg = s.arg

/-! ### DECODE -/

/-- DECODE inverts the code table of its tree, whatever CODE holds (43_decoder.md R102, R103): when BITBUF is the
codes of `bytes` in that table, in order, DECODE completes with OBUF = `bytes`, and nothing else but the completion
status changes. -/
def Obligations.DecodeInvertsTheCodeTable : Prop :=
  ∀ (s : State) (bytes : List Byte), s.treeValid = true → TreeShape s.nodes →
    (∀ b ∈ bytes, (codeTable s.nodes).get b ≠ []) → s.bitbuf = codedBits (codeTable s.nodes) bytes →
    bytes.length ≤ s.params.obufCap →
    exec .decode s = .next { s with obuf := bytes }.succeeded

/-- 43_decoder.md R104: bits left over after the last whole codeword, a proper non-empty part of another code,
end DECODE in TRUNCATED_STREAM at the first of them. -/
def Obligations.DecodeTruncatedStreamFails : Prop :=
  ∀ (s t : State) (bytes : List Byte) (a : Byte) (p q : List Bit), s.treeValid = true → TreeShape s.nodes →
    exec .codes s = .next t → (∀ b ∈ bytes, t.code.get b ≠ []) → p ≠ [] → q ≠ [] → t.code.get a = p ++ q →
    s.bitbuf = codedBits t.code bytes ++ p → bytes.length ≤ s.params.obufCap →
    exec .decode s = .next ({ s with obuf := [] }.failed 0x04 (codedBits t.code bytes).length)

/-- 43_decoder.md R105: with a Leaf at the root each `0` emits its symbol, and a `1` ends DECODE in
INVALID_CODE at that bit, while the output has not overflowed. -/
def Obligations.DecodeOfTheOnlySymbol : Prop :=
  ∀ (s : State) (a : Byte) (k : Nat), s.treeValid = true → leafSym s.nodes (rootHandle s.nodes) = some a →
    k ≤ s.params.obufCap →
    (s.bitbuf = List.replicate k false →
      exec .decode s = .next { s with obuf := List.replicate k a }.succeeded)
    ∧ (∀ rest, s.bitbuf = List.replicate k false ++ true :: rest →
      exec .decode s = .next ({ s with obuf := [] }.failed 0x05 k))

/-- 43_decoder.md R106: a symbol emitted when the output already holds OBUF_CAP bytes ends DECODE in
OBUF_OVERFLOW at the bit that completes it. -/
def Obligations.DecodeOverflowFails : Prop :=
  ∀ (s t : State) (bytes : List Byte) (a : Byte) (rest : List Bit), s.treeValid = true → TreeShape s.nodes →
    exec .codes s = .next t → (∀ b ∈ bytes, t.code.get b ≠ []) → t.code.get a ≠ [] →
    bytes.length = s.params.obufCap →
    s.bitbuf = codedBits t.code bytes ++ t.code.get a ++ rest →
    exec .decode s = .next ({ s with obuf := [] }.failed 0x09
      ((codedBits t.code bytes).length + (t.code.get a).length - 1))

/-- DECODE with TREE_VALID = 0 ends in NO_TREE, and what it does does not depend on the code table or on
CODES_VALID, or on what OBUF held (43_decoder.md R102). -/
def Obligations.DecodeReadsOnlyTheTree : Prop :=
  (∀ s : State, s.treeValid = false → exec .decode s = .next ({ s with obuf := [] }.failed 0x06 0))
  ∧ ∀ (s : State) (code : Table (List Bit)) (codesValid : Bool) (out : List Byte),
    exec .decode { s with code := code, codesValid := codesValid, obuf := out } =
      mapNext (fun t => { t with code := code, codesValid := codesValid }) (exec .decode s)

/-! ### The pipeline -/

/-- The round trip of 44_bit_packer.md R114: BUILD, ENCODE, DECODE on non-empty input give it back, unless
ENCODE overflows BITBUF. -/
def Obligations.PipelineRoundTrip : Prop :=
  ∀ (s : State) (bytes : List Byte), s.InputIs bytes → bytes ≠ [] → bytes.length ≤ 2 ^ 20 →
    bytes.length ≤ s.params.obufCap →
    ∃ s1 s2, exec .build s = .next s1 ∧ s1.err = false ∧ exec .encode s1 = .next s2
      ∧ (s2.errcode = 0x00 ∨ s2.errcode = 0x08)
      ∧ (s2.errcode = 0x00 → ∃ s3, exec .decode s2 = .next s3 ∧ s3.err = false ∧ s3.obuf = bytes)

/-- The round trip of 44_bit_packer.md R114 through packed bytes: BUILD, ENCODE, PACK, then any state `u` that
keeps the tree and holds PACK's output as input and the bit count as ARG, then UNPACK.T and DECODE. -/
def Obligations.PackedPipelineRoundTrip : Prop :=
  ∀ (s s1 s2 s3 u : State) (bytes : List Byte), s.InputIs bytes → bytes ≠ [] → bytes.length ≤ 2 ^ 20 →
    bytes.length ≤ s.params.obufCap → s.params.wellFormed = true →
    exec .build s = .next s1 → exec .encode s1 = .next s2 → s2.err = false →
    exec .pack s2 = .next s3 → s3.err = false →
    u.InputIs s3.obuf → u.arg = BitVec.ofNat 32 s2.bitbuf.length → u.params = s3.params →
    u.nodes = s3.nodes → u.treeValid = s3.treeValid →
    ∃ v x, exec .unpackT u = .next v ∧ v.err = false ∧ exec .decode v = .next x ∧ x.err = false
      ∧ x.obuf = bytes

/-! ### CLEAR -/

/-- 45_control.md R120: CLEAR's word, what CLEAR empties, that it leaves the rest, that it is the only command that
clears OVERRUN, and that on the reset state only DONE changes. -/
def Obligations.ClearEmptiesTheWorkingTables : Prop :=
  decode 0x00000009 = .ok .clear ∧
  (∀ s : State, exec .clear s = .next { s with
    freq := Table.all 0, code := Table.all [], nodes := [], treeValid := false, codesValid := false
    bitbuf := [], obuf := [], overrun := false }.succeeded)
  ∧ (∀ (i : Instr) (s t : State), i ≠ .clear → exec i s = .next t → t.overrun = s.overrun)
  ∧ exec .clear State.reset = .next { State.reset with done := true }

/-! ### The host bus -/

/-- Which accesses the machine refuses (20_memory.md R45, R46; 45_control.md R123): exactly those that are not
naturally aligned, or narrower than 4 bytes in the register region. Every other read or write completes, a
read with a value and no other effect on the block. At the bus an ill-formed write changes nothing. That 'exactly'
is the model's choice: 45_control.md R123 also lists as a refusal a read while BUSY = 1 whose value 20_memory.md R57
leaves unspecified, where a claim depends on it, and in the model such a read completes with a free value (log 8,
DEDUCED); the refusal of an ill-formed access at the host's turn is log 11 (DEDUCED). -/
def Obligations.IllFormedAccessesAreRefused : Prop :=
  ∀ (s : State) (o : Offset) (n : AccessSize) (v : Word) (rest : List Turn),
    ((o.toNat % sizeBytes n ≠ 0 ∨ (o.toNat < 0x100000 ∧ n ≠ .word)) →
      step { s with agenda := .read o n :: rest } = .refused (.illFormedAccess o n)
      ∧ step { s with agenda := .write o n v :: rest } = .refused (.illFormedAccess o n)
      ∧ s.busWrite o n v = s)
    ∧ (o.toNat % sizeBytes n = 0 → (0x100000 ≤ o.toNat ∨ n = .word) →
      (∃ x, step { s with agenda := .read o n :: rest } = .next (afterReading s rest x))
      ∧ ∃ t, step { s with agenda := .write o n v :: rest } = .next t)

/-- 20_memory.md R57: accesses while BUSY = 1. Every write is dropped, and one to CMD sets OVERRUN. STATUS reads
BUSY = 1, DONE = ERR = 0, the current OVERRUN, ERRCODE = 0 and reserved bits 0 (nothing is said of its bits 3
and 4); the capacity registers read the parameters; every other read gives some value. -/
def Obligations.AccessesWhileBusy : Prop :=
  ∀ s : State, s.pending.isSome = true → s.params.wellFormed = true →
    (∀ (o : Nat) (n : AccessSize) (v : Word), o < 2 ^ 24 → o ≠ 0 → o % sizeBytes n = 0 →
      (0x100000 ≤ o ∨ n = .word) → WriteDropped s o n v)
    ∧ (∀ (w : Word) (rest : List Turn),
      step { s with agenda := .write 0x000000 .word w :: rest } =
        .next { s with agenda := rest, overrun := true })
    ∧ (∃ v : Word, ReadGives s 0x004 .word v
      ∧ v.getLsbD 0 = true ∧ v.getLsbD 1 = false ∧ v.getLsbD 2 = false ∧ v.getLsbD 5 = s.overrun
      ∧ ∀ k, 6 ≤ k → v.getLsbD k = false)
    ∧ (∃ v : Word, ReadGives s 0x028 .word v ∧ v.toNat = s.params.ibufCap)
    ∧ (∃ v : Word, ReadGives s 0x02C .word v ∧ v.toNat = s.params.obufCap)
    ∧ (∃ v : Word, ReadGives s 0x030 .word v ∧ v.toNat = s.params.bitbufCap)
    ∧ (∀ (o : Nat) (n : AccessSize), o < 2 ^ 24 → o % sizeBytes n = 0 → (0x100000 ≤ o ∨ n = .word) →
      ∃ v, ReadGives s o n v)

/-- 20_memory.md R49: a well-formed read changes no state of the block; writing the same value twice is writing
it once, except at CMD, where the second write sets OVERRUN. -/
def Obligations.ReadsAndRepeatedWrites : Prop :=
  (∀ (s t : State) (o : Offset) (n : AccessSize) (rest : List Turn), s.agenda = .read o n :: rest →
    step s = .next t → ∃ x, t = afterReading s rest x)
  ∧ (∀ (s : State) (o : Offset) (n : AccessSize) (v : Word), o ≠ 0 →
    (s.busWrite o n v).busWrite o n v = s.busWrite o n v)
  ∧ (∀ (s : State) (v : Word), s.pending = none →
    s.busWrite 0x000000 .word v = { s with
      pending := some v, done := false, err := false, errcode := 0x00, errpos := 0 }
    ∧ (s.busWrite 0x000000 .word v).busWrite 0x000000 .word v =
      { s.busWrite 0x000000 .word v with overrun := true })

/-- IBUF_LEN (10_state.md R22): a write stores min(v, IBUF_CAP), a read returns the stored value, and no command
changes it. -/
def Obligations.InputLengthIsClamped : Prop :=
  (∀ (s : State) (v : Word) (rest : List Turn), s.pending = none →
    step { s with agenda := .write 0x000010 .word v :: rest } =
      .next { s with agenda := rest, ibufLen := min v.toNat s.params.ibufCap })
  ∧ (∀ s : State, Inv s → s.pending = none → ∃ v : Word, ReadGives s 0x010 .word v ∧ v.toNat = s.ibufLen)
  ∧ ∀ (i : Instr) (s t : State), exec i s = .next t → t.ibufLen = s.ibufLen

/-- The read-only registers when BUSY = 0: the fields of STATUS (10_state.md R19), OBUF_LEN and BITLEN (R23),
NODE_COUNT, ROOT and ROOT_WEIGHT (R24), the capacity registers (R25), and CMD, which reads 0 (R18). A write to
any of them but CMD is ignored (R17). The premise is the machine's invariant. -/
def Obligations.ReadOnlyRegisters : Prop :=
  ∀ s : State, Inv s → s.pending = none →
    (∃ v : Word, ReadGives s 0x004 .word v
      ∧ v.getLsbD 0 = false ∧ v.getLsbD 1 = s.done ∧ v.getLsbD 2 = s.err ∧ v.getLsbD 3 = s.treeValid
      ∧ v.getLsbD 4 = s.codesValid ∧ v.getLsbD 5 = s.overrun ∧ v.getLsbD 6 = false ∧ v.getLsbD 7 = false
      ∧ (∀ k, k < 8 → v.getLsbD (8 + k) = s.errcode.getLsbD k) ∧ ∀ k, 16 ≤ k → v.getLsbD k = false)
    ∧ ReadGives s 0x00C .word s.errpos
    ∧ (∃ v : Word, ReadGives s 0x014 .word v ∧ v.toNat = s.obuf.length)
    ∧ (∃ v : Word, ReadGives s 0x018 .word v ∧ v.toNat = s.bitbuf.length)
    ∧ (∃ count root weight : Word, ReadGives s 0x01C .word count ∧ ReadGives s 0x020 .word root
      ∧ ReadGives s 0x024 .word weight
      ∧ (s.treeValid = true → count.toNat = s.nodes.length ∧ root.toNat = s.nodes.length - 1
        ∧ weight.toNat = weightOf s.nodes (s.nodes.length - 1))
      ∧ (s.treeValid = false → count = 0 ∧ root = 0 ∧ weight = 0))
    ∧ (∃ v : Word, ReadGives s 0x028 .word v ∧ v.toNat = s.params.ibufCap)
    ∧ (∃ v : Word, ReadGives s 0x02C .word v ∧ v.toNat = s.params.obufCap)
    ∧ (∃ v : Word, ReadGives s 0x030 .word v ∧ v.toNat = s.params.bitbufCap)
    ∧ ReadGives s 0x000 .word 0
    ∧ ∀ (o : Nat) (v : Word), o ∈ [0x004, 0x00C, 0x014, 0x018, 0x01C, 0x020, 0x024, 0x028, 0x02C, 0x030] →
      WriteDropped s o .word v

/-- 20_memory.md R53: the FREQ window. -/
def Obligations.FreqWindow : Prop :=
  ∀ (s : State) (a : Byte), s.pending = none →
    ReadGives s (0x400 + 4 * a.toNat) .word (s.freq.get a)
    ∧ ∀ v, WriteDropped s (0x400 + 4 * a.toNat) .word v

/-- 20_memory.md R54: the NODE window, the weight word and the descriptor word of each handle; both are 0 past the
arena, and, by the machine's invariant, at every handle when TREE_VALID = 0. -/
def Obligations.NodeWindow : Prop :=
  ∀ (s : State) (h : Nat), s.pending = none → h < 512 →
    (∀ v, WriteDropped s (0x1000 + 8 * h) .word v ∧ WriteDropped s (0x1000 + 8 * h + 4) .word v)
    ∧ (∀ a w, s.nodes[h]? = some (.leaf a w) →
      ReadGives s (0x1000 + 8 * h) .word w
      ∧ ReadGives s (0x1000 + 8 * h + 4) .word (BitVec.ofNat 32 (2 ^ 31 + a.toNat)))
    ∧ (∀ w l r, s.nodes[h]? = some (.internal w l r) →
      ReadGives s (0x1000 + 8 * h) .word w
      ∧ ReadGives s (0x1000 + 8 * h + 4) .word (BitVec.ofNat 32 (2 ^ 16 * r.toNat + l.toNat)))
    ∧ (s.nodes.length ≤ h ∨ (Inv s ∧ s.treeValid = false) →
      ReadGives s (0x1000 + 8 * h) .word 0 ∧ ReadGives s (0x1000 + 8 * h + 4) .word 0)

/-- 20_memory.md R55: the CODE_LEN and CODE_BITS windows. Word m of symbol s's storage holds its bits 32m ..
32m + 31, bit 32m + 8t + j in bit 8t + 7 − j. -/
def Obligations.CodeWindows : Prop :=
  ∀ (s : State) (a : Byte), s.pending = none →
    ReadGives s (0x800 + 4 * a.toNat) .word (BitVec.ofNat 32 (s.code.get a).length)
    ∧ (∀ v, WriteDropped s (0x800 + 4 * a.toNat) .word v)
    ∧ ∀ m, m < 8 → ∃ w : Word, ReadGives s (0x2000 + 32 * a.toNat + 4 * m) .word w
      ∧ (∀ t j, t < 4 → j < 8 →
        w.getLsbD (8 * t + (7 - j)) = (s.code.get a).getD (32 * m + 8 * t + j) false)
      ∧ ∀ v, WriteDropped s (0x2000 + 32 * a.toNat + 4 * m) .word v

/-- 20_memory.md R56: the OBUF and BITBUF windows, byte by byte; the BITBUF window begins with the bytes PACK
would produce. -/
def Obligations.OutputAndBitWindows : Prop :=
  ∀ (s : State) (k : Nat), s.pending = none → k < 2 ^ 20 →
    ReadGives s (0x200000 + k) .byte ((s.obuf.getD k 0).setWidth 32)
    ∧ (∀ v, WriteDropped s (0x200000 + k) .byte v ∧ WriteDropped s (0x300000 + k) .byte v)
    ∧ ∃ b : Byte, ReadGives s (0x300000 + k) .byte (b.setWidth 32)
      ∧ (∀ j, j < 8 → b.getLsbD (7 - j) = s.bitbuf.getD (8 * k + j) false)
      ∧ ∀ t, exec .pack s = .next t → t.err = false →
        (k < t.obuf.length → t.obuf.getD k 0 = b) ∧ (t.obuf.length ≤ k → b = 0)

/-- 20_memory.md R52: the IBUF window, byte by byte. A write below IBUF_CAP sets its cell and no other; a read
gives the byte of a written cell and some byte for an unwritten one; at and past IBUF_CAP a read gives 0 and a
write is dropped. IBUF_LEN does not change. -/
def Obligations.InputWindow : Prop :=
  ∀ (s : State) (i : Nat), s.pending = none → Memory.wf s.ibuf → i < 2 ^ 20 →
    (i < s.params.ibufCap →
      (∀ (v : Word) (rest : List Turn), ∃ m,
        step { s with agenda := .write (BitVec.ofNat 24 (0x100000 + i)) .byte v :: rest } =
          .next { s with agenda := rest, ibuf := m }
        ∧ Memory.wf m
        ∧ ∀ j, m.read j = if j = i then some (BitVec.ofNat 8 v.toNat) else s.ibuf.read j)
      ∧ (∀ b, s.ibuf.read i = some b → ReadGives s (0x100000 + i) .byte (b.setWidth 32))
      ∧ (s.ibuf.read i = none → ∃ b : Byte, ReadGives s (0x100000 + i) .byte (b.setWidth 32)))
    ∧ (s.params.ibufCap ≤ i →
      ReadGives s (0x100000 + i) .byte 0 ∧ ∀ v, WriteDropped s (0x100000 + i) .byte v)

/-- The byte order of host accesses (20_memory.md R43): a 2- or 4-byte access to a buffer window sees and
writes the same bytes as single-byte accesses, the byte at offset o + t in bits [8t+7 : 8t]. For reads the IBUF
cells in question are written, since an unwritten cell has no value. That an access which straddles a
buffer's capacity also acts byte by byte, the bytes below the capacity read and written and the others read as 0
and dropped, is the model's choice (log 12, unsafe). -/
def Obligations.AccessesAreLittleEndian : Prop :=
  ∀ (s : State) (o : Offset) (n : AccessSize), s.pending = none → 0x100000 ≤ o.toNat →
    o.toNat % sizeBytes n = 0 →
    ((∀ t, t < sizeBytes n → o.toNat + t < 0x200000 → o.toNat + t - 0x100000 < s.params.ibufCap →
        s.ibuf.read (o.toNat + t - 0x100000) ≠ none) →
      ∀ t, t < sizeBytes n →
        (s.busRead o n).toNat / 256 ^ t % 256 = (s.busRead (o + BitVec.ofNat 24 t) .byte).toNat)
    ∧ ∀ v : Word, s.busWrite o n v =
      (List.range (sizeBytes n)).foldl
        (fun s t => s.busWrite (o + BitVec.ofNat 24 t) .byte (BitVec.ofNat 32 (v.toNat / 256 ^ t % 256))) s

/-- 20_memory.md R58: reserved offsets, and offsets past a buffer's capacity inside its window, read 0 and drop
writes. -/
def Obligations.ReservedOffsetsReadZero : Prop :=
  ∀ (s : State) (o : Nat) (n : AccessSize), s.pending = none → Inv s → o < 2 ^ 24 → o % sizeBytes n = 0 →
    (n = .word ∧ ((0x034 ≤ o ∧ o < 0x400) ∨ (0xC00 ≤ o ∧ o < 0x1000) ∨ (0x4000 ≤ o ∧ o < 0x100000))
      ∨ 0x400000 ≤ o
      ∨ (0x100000 + s.params.ibufCap ≤ o ∧ o < 0x200000)
      ∨ (0x200000 + s.params.obufCap ≤ o ∧ o < 0x300000)
      ∨ (0x300000 + s.params.bitbufCap / 8 ≤ o ∧ o < 0x400000)) →
    ReadGives s o n 0 ∧ ∀ v, WriteDropped s o n v

/-! ### The host's run -/

/-- The end of a run (45_control.md R124): wherever the perform steps fall (`slots`), a script that ends in a
`wait`, or in a `run`, which expands to one (30_encoding.md R76), ends with no command pending in the state it
reaches, unless one of its steps stops; a script whose last statement is a CMD write has not ended there when the
block has had no turn outside its waits. That a `wait` gives the block its turn, and that the places of the
perform steps are a list, is the model's choice (log 3, 24). -/
def Obligations.RunEndsWithNothingPending : Prop :=
  ∀ (script : List Stmt) (s : State) (slots : Slots),
    (∀ t, endOfRun script s slots = some t → t.pending = none)
    ∧ (∀ last t slots', (last = .wait ∨ ∃ i, last = .run i) →
      runScript (script ++ [last]) s slots = .next (t, slots') →
      t.pending = none ∧ endOfRun (script ++ [last]) s slots = some t)
    ∧ ∀ i : Instr, endOfRun (script ++ [.cmd i]) s [] = none
end

