-- ==== Sys2Proof/Laws/Bits.lean ====
section
/-! SUPPORT. The bit order in a byte (20_memory.md R42) and the byte order of an access (20_memory.md R43). -/

namespace Sys2Proof.Machine

/-- Bit 7 − j of byte k of a sequence is bit 8k + j of the sequence, 0 past its end (20_memory.md R42). -/
theorem seqByte_bit (bits : List Bit) (k j : Nat) (hj : j < 8) :
    (seqByte bits k).getLsbD (7 - j) = bits.getD (8 * k + j) false := by
  have h8 : List.range 8 = [0, 1, 2, 3, 4, 5, 6, 7] := by decide
  interval_cases j <;> simp [seqByte, h8]

@[simp] theorem packBits_length (bits : List Bit) : (packBits bits).length = (bits.length + 7) / 8 := by
  simp [packBits, ceilDiv8]

theorem packBits_getD (bits : List Bit) (k : Nat) (h : k < (packBits bits).length) :
    (packBits bits).getD k 0 = seqByte bits k := by
  simp only [packBits_length] at h
  simp [packBits, ceilDiv8, List.getD, h]

/-- Past the end of the sequence every byte is 0 (20_memory.md R56). -/
theorem seqByte_past_end (bits : List Bit) (k : Nat) (h : bits.length ≤ 8 * k) : seqByte bits k = 0 := by
  apply BitVec.eq_of_getLsbD_eq
  intro i hi
  have := seqByte_bit bits k (7 - i) (by omega)
  rw [show 7 - (7 - i) = i by omega] at this
  rw [this]
  simp [List.getD, List.getElem?_eq_none (show bits.length ≤ 8 * k + (7 - i) by omega)]

@[simp] theorem wordOfBytes_single (b : Byte) : wordOfBytes [b] = b.setWidth 32 := by
  simp [wordOfBytes]

/-- Byte t of an access's value is its t-th byte (20_memory.md R43). -/
theorem wordOfBytes_bit (bytes : List Byte) (h : bytes.length ≤ 4) (t j : Nat) (ht : t < 4) (hj : j < 8) :
    (wordOfBytes bytes).getLsbD (8 * t + j) = (bytes.getD t 0).getLsbD j := by
  induction bytes generalizing t with
  | nil => simp [wordOfBytes]
  | cons b rest ih =>
    have hr : rest.length ≤ 3 := Nat.le_of_succ_le_succ h
    simp only [wordOfBytes, BitVec.getLsbD_or, BitVec.getLsbD_setWidth, BitVec.getLsbD_shiftLeft]
    cases t with
    | zero =>
      simp [hj]
      omega
    | succ t =>
      have := ih (by omega) t (by omega)
      have h1 : 8 * (t + 1) + j < 32 := by omega
      have h2 : ¬ 8 * (t + 1) + j < 8 := by omega
      have h3 : 8 * (t + 1) + j - 8 = 8 * t + j := by omega
      have h4 : b.getLsbD (8 * (t + 1) + j) = false := BitVec.getLsbD_of_ge _ _ (by omega)
      simp [h1, h2, h3, h4, this]

theorem wordByte_toNat (v : Word) (t : Nat) : (wordByte v t).toNat = v.toNat / 256 ^ t % 256 := by
  simp [wordByte, BitVec.extractLsb'_toNat, Nat.shiftRight_eq_div_pow, Nat.pow_mul]

end Sys2Proof.Machine
end

