-- ==== Sys2Proof/Laws/Memory.lean ====
section
/-! SUPPORT. IBUF: read after write, and that a write keeps the canonical form (10_state.md R32,
20_memory.md R52). -/

namespace Sys2Proof.Machine

theorem Memory.read_write (m : Memory) (i j : Nat) (b : Byte) :
    (m.write i b).read j = if j = i then some b else m.read j := by
  induction m with
  | nil =>
    simp only [Memory.write, Memory.read]
    by_cases h : i = j <;> simp [h, eq_comm]
  | cons c rest ih =>
    simp only [Memory.write]
    split
    · simp only [Memory.read]
      by_cases h : i = j <;> simp [h, eq_comm]
    · split
      · next h =>
        simp only [Memory.read, ← h]
        by_cases h' : i = j
        · simp [h']
        · simp [h', Ne.symm h']
      · next h1 h2 =>
        simp only [Memory.read, ih]
        by_cases h3 : c.1 = j
        · have : j ≠ i := by omega
          simp [h3, this]
        · simp [h3]

@[simp] theorem Memory.read_write_same (m : Memory) (i : Nat) (b : Byte) : (m.write i b).read i = some b := by
  simp [Memory.read_write]

theorem Memory.read_write_other (m : Memory) {i j : Nat} (b : Byte) (h : j ≠ i) :
    (m.write i b).read j = m.read j := by
  simp [Memory.read_write, h]

/-- The cells a write leaves are the old ones and the written one. -/
theorem Memory.mem_write {m : Memory} {i : Nat} {b : Byte} {c : Host.Cell} (h : c ∈ m.write i b) :
    c = (i, b) ∨ c ∈ m := by
  induction m with
  | nil => simpa [Memory.write] using h
  | cons d rest ih =>
    simp only [Memory.write] at h
    split at h
    · simpa using h
    · split at h
      · rcases List.mem_cons.1 h with h | h
        · exact .inl h
        · exact .inr (List.mem_cons_of_mem _ h)
      · rcases List.mem_cons.1 h with h | h
        · exact .inr (h ▸ List.mem_cons_self)
        · rcases ih h with h | h
          · exact .inl h
          · exact .inr (List.mem_cons_of_mem _ h)

/-- A write keeps the canonical form: cell indexes strictly rising. -/
theorem Memory.write_wf {m : Memory} (i : Nat) (b : Byte) (h : m.wf) : (m.write i b).wf := by
  induction m with
  | nil => simp [Memory.write, Memory.wf]
  | cons c rest ih =>
    have hc := List.pairwise_cons.1 h
    simp only [Memory.write]
    split
    · next hlt =>
      refine List.pairwise_cons.2 ⟨?_, h⟩
      intro d hd
      rcases List.mem_cons.1 hd with rfl | hd
      · exact hlt
      · exact Nat.lt_trans hlt (hc.1 d hd)
    · split
      · next heq =>
        refine List.pairwise_cons.2 ⟨?_, hc.2⟩
        intro d hd
        have := hc.1 d hd
        simpa [heq] using this
      · next h1 h2 =>
        refine List.pairwise_cons.2 ⟨?_, ih hc.2⟩
        intro d hd
        rcases Memory.mem_write hd with rfl | hd
        · show c.1 < i
          omega
        · exact hc.1 d hd

/-- The memory at reset has the canonical form. -/
theorem reset_ibuf_wf : Memory.wf State.reset.ibuf := List.Pairwise.nil

/-- In canonical form, a cell that is read is a listed one. -/
theorem Memory.read_eq_some_mem {m : Memory} {i : Nat} {b : Byte} (h : m.read i = some b) : (i, b) ∈ m := by
  induction m with
  | nil => simp [Memory.read] at h
  | cons c rest ih =>
    simp only [Memory.read] at h
    split at h
    · next hc =>
      have hb : c.2 = b := by simpa using h
      exact List.mem_cons.2 (.inl (by rw [← hc, ← hb]))
    · exact List.mem_cons_of_mem _ (ih h)

/-- Writing a cell twice with the same byte is writing it once (20_memory.md R49). -/
theorem Memory.write_write_same (m : Memory) (i : Nat) (b : Byte) : (m.write i b).write i b = m.write i b := by
  induction m with
  | nil => simp [Memory.write]
  | cons c rest ih =>
    simp only [Memory.write]
    split
    · simp [Memory.write]
    · split
      · simp [Memory.write]
      · next h1 h2 => simp [Memory.write, h1, h2, ih]

/-- `write` at an index keeps a write at a lower index visible: the two commute up to the first. -/
theorem Memory.write_low_again (m : Memory) {i j : Nat} (b c : Byte) (h : i < j) :
    ((m.write i b).write j c).write i b = (m.write i b).write j c := by
  induction m with
  | nil =>
    have h1 : ¬ j < i := by omega
    have h2 : ¬ j = i := by omega
    simp [Memory.write, h1, h2]
  | cons d rest ih =>
    have h1 : ¬ j < i := by omega
    have h2 : ¬ j = i := by omega
    by_cases hd : i < d.1
    · simp [Memory.write, hd, h1, h2]
    · by_cases he : i = d.1
      · have h3 : ¬ j < d.1 := by omega
        have h4 : ¬ j = d.1 := by omega
        have h5 : ¬ d.1 < d.1 := by omega
        simp [Memory.write, he, h3, h4]
      · have h3 : ¬ j < d.1 := by omega
        have h4 : ¬ j = d.1 := by omega
        simp [Memory.write, hd, he, h3, h4, ih]

end Sys2Proof.Machine
end

