-- ==== Sys2Proof/Laws/State.lean ====
section
/-! SUPPORT. The field lemmas: what each named update of the state does to each field, true by rfl. Later proofs
cite these and unfold no record update. -/

namespace Sys2Proof.Machine

/-! ### State.accept -/

@[simp] theorem accept_params (s : State) (w : Word) : (s.accept w).params = s.params := rfl
@[simp] theorem accept_pending (s : State) (w : Word) : (s.accept w).pending = some w := rfl
@[simp] theorem accept_treeValid (s : State) (w : Word) : (s.accept w).treeValid = s.treeValid := rfl
@[simp] theorem accept_codesValid (s : State) (w : Word) : (s.accept w).codesValid = s.codesValid := rfl
@[simp] theorem accept_done (s : State) (w : Word) : (s.accept w).done = false := rfl
@[simp] theorem accept_err (s : State) (w : Word) : (s.accept w).err = false := rfl
@[simp] theorem accept_overrun (s : State) (w : Word) : (s.accept w).overrun = s.overrun := rfl
@[simp] theorem accept_errcode (s : State) (w : Word) : (s.accept w).errcode = 0 := rfl
@[simp] theorem accept_errpos (s : State) (w : Word) : (s.accept w).errpos = 0 := rfl
@[simp] theorem accept_arg (s : State) (w : Word) : (s.accept w).arg = s.arg := rfl
@[simp] theorem accept_ibufLen (s : State) (w : Word) : (s.accept w).ibufLen = s.ibufLen := rfl
@[simp] theorem accept_ibuf (s : State) (w : Word) : (s.accept w).ibuf = s.ibuf := rfl
@[simp] theorem accept_freq (s : State) (w : Word) : (s.accept w).freq = s.freq := rfl
@[simp] theorem accept_nodes (s : State) (w : Word) : (s.accept w).nodes = s.nodes := rfl
@[simp] theorem accept_code (s : State) (w : Word) : (s.accept w).code = s.code := rfl
@[simp] theorem accept_bitbuf (s : State) (w : Word) : (s.accept w).bitbuf = s.bitbuf := rfl
@[simp] theorem accept_obuf (s : State) (w : Word) : (s.accept w).obuf = s.obuf := rfl
@[simp] theorem accept_agenda (s : State) (w : Word) : (s.accept w).agenda = s.agenda := rfl
@[simp] theorem accept_hostReads (s : State) (w : Word) : (s.accept w).hostReads = s.hostReads := rfl
@[simp] theorem accept_freeCtr (s : State) (w : Word) : (s.accept w).freeCtr = s.freeCtr := rfl

/-! ### State.complete -/

@[simp] theorem complete_params (s : State) (code : ErrorCode) (pos : Nat) : (s.complete code pos).params = s.params := rfl
@[simp] theorem complete_pending (s : State) (code : ErrorCode) (pos : Nat) : (s.complete code pos).pending = none := rfl
@[simp] theorem complete_treeValid (s : State) (code : ErrorCode) (pos : Nat) : (s.complete code pos).treeValid = s.treeValid := rfl
@[simp] theorem complete_codesValid (s : State) (code : ErrorCode) (pos : Nat) : (s.complete code pos).codesValid = s.codesValid := rfl
@[simp] theorem complete_done (s : State) (code : ErrorCode) (pos : Nat) : (s.complete code pos).done = true := rfl
@[simp] theorem complete_err (s : State) (code : ErrorCode) (pos : Nat) : (s.complete code pos).err = decide (code.number ≠ 0) := rfl
@[simp] theorem complete_overrun (s : State) (code : ErrorCode) (pos : Nat) : (s.complete code pos).overrun = s.overrun := rfl
@[simp] theorem complete_errcode (s : State) (code : ErrorCode) (pos : Nat) : (s.complete code pos).errcode = code.number := rfl
@[simp] theorem complete_errpos (s : State) (code : ErrorCode) (pos : Nat) : (s.complete code pos).errpos = BitVec.ofNat 32 pos := rfl
@[simp] theorem complete_arg (s : State) (code : ErrorCode) (pos : Nat) : (s.complete code pos).arg = s.arg := rfl
@[simp] theorem complete_ibufLen (s : State) (code : ErrorCode) (pos : Nat) : (s.complete code pos).ibufLen = s.ibufLen := rfl
@[simp] theorem complete_ibuf (s : State) (code : ErrorCode) (pos : Nat) : (s.complete code pos).ibuf = s.ibuf := rfl
@[simp] theorem complete_freq (s : State) (code : ErrorCode) (pos : Nat) : (s.complete code pos).freq = s.freq := rfl
@[simp] theorem complete_nodes (s : State) (code : ErrorCode) (pos : Nat) : (s.complete code pos).nodes = s.nodes := rfl
@[simp] theorem complete_code (s : State) (code : ErrorCode) (pos : Nat) : (s.complete code pos).code = s.code := rfl
@[simp] theorem complete_bitbuf (s : State) (code : ErrorCode) (pos : Nat) : (s.complete code pos).bitbuf = s.bitbuf := rfl
@[simp] theorem complete_obuf (s : State) (code : ErrorCode) (pos : Nat) : (s.complete code pos).obuf = s.obuf := rfl
@[simp] theorem complete_agenda (s : State) (code : ErrorCode) (pos : Nat) : (s.complete code pos).agenda = s.agenda := rfl
@[simp] theorem complete_hostReads (s : State) (code : ErrorCode) (pos : Nat) : (s.complete code pos).hostReads = s.hostReads := rfl
@[simp] theorem complete_freeCtr (s : State) (code : ErrorCode) (pos : Nat) : (s.complete code pos).freeCtr = s.freeCtr := rfl

/-! ### State.succeeded -/

@[simp] theorem succeeded_params (s : State) : s.succeeded.params = s.params := rfl
@[simp] theorem succeeded_pending (s : State) : s.succeeded.pending = none := rfl
@[simp] theorem succeeded_treeValid (s : State) : s.succeeded.treeValid = s.treeValid := rfl
@[simp] theorem succeeded_codesValid (s : State) : s.succeeded.codesValid = s.codesValid := rfl
@[simp] theorem succeeded_done (s : State) : s.succeeded.done = true := rfl
@[simp] theorem succeeded_err (s : State) : s.succeeded.err = false := rfl
@[simp] theorem succeeded_overrun (s : State) : s.succeeded.overrun = s.overrun := rfl
@[simp] theorem succeeded_errcode (s : State) : s.succeeded.errcode = 0 := rfl
@[simp] theorem succeeded_errpos (s : State) : s.succeeded.errpos = 0 := rfl
@[simp] theorem succeeded_arg (s : State) : s.succeeded.arg = s.arg := rfl
@[simp] theorem succeeded_ibufLen (s : State) : s.succeeded.ibufLen = s.ibufLen := rfl
@[simp] theorem succeeded_ibuf (s : State) : s.succeeded.ibuf = s.ibuf := rfl
@[simp] theorem succeeded_freq (s : State) : s.succeeded.freq = s.freq := rfl
@[simp] theorem succeeded_nodes (s : State) : s.succeeded.nodes = s.nodes := rfl
@[simp] theorem succeeded_code (s : State) : s.succeeded.code = s.code := rfl
@[simp] theorem succeeded_bitbuf (s : State) : s.succeeded.bitbuf = s.bitbuf := rfl
@[simp] theorem succeeded_obuf (s : State) : s.succeeded.obuf = s.obuf := rfl
@[simp] theorem succeeded_agenda (s : State) : s.succeeded.agenda = s.agenda := rfl
@[simp] theorem succeeded_hostReads (s : State) : s.succeeded.hostReads = s.hostReads := rfl
@[simp] theorem succeeded_freeCtr (s : State) : s.succeeded.freeCtr = s.freeCtr := rfl

/-! ### State.failed -/

@[simp] theorem failed_params (s : State) (number : Byte) (pos : Nat) : (s.failed number pos).params = s.params := rfl
@[simp] theorem failed_pending (s : State) (number : Byte) (pos : Nat) : (s.failed number pos).pending = none := rfl
@[simp] theorem failed_treeValid (s : State) (number : Byte) (pos : Nat) : (s.failed number pos).treeValid = s.treeValid := rfl
@[simp] theorem failed_codesValid (s : State) (number : Byte) (pos : Nat) : (s.failed number pos).codesValid = s.codesValid := rfl
@[simp] theorem failed_done (s : State) (number : Byte) (pos : Nat) : (s.failed number pos).done = true := rfl
@[simp] theorem failed_err (s : State) (number : Byte) (pos : Nat) : (s.failed number pos).err = true := rfl
@[simp] theorem failed_overrun (s : State) (number : Byte) (pos : Nat) : (s.failed number pos).overrun = s.overrun := rfl
@[simp] theorem failed_errcode (s : State) (number : Byte) (pos : Nat) : (s.failed number pos).errcode = number := rfl
@[simp] theorem failed_errpos (s : State) (number : Byte) (pos : Nat) : (s.failed number pos).errpos = BitVec.ofNat 32 pos := rfl
@[simp] theorem failed_arg (s : State) (number : Byte) (pos : Nat) : (s.failed number pos).arg = s.arg := rfl
@[simp] theorem failed_ibufLen (s : State) (number : Byte) (pos : Nat) : (s.failed number pos).ibufLen = s.ibufLen := rfl
@[simp] theorem failed_ibuf (s : State) (number : Byte) (pos : Nat) : (s.failed number pos).ibuf = s.ibuf := rfl
@[simp] theorem failed_freq (s : State) (number : Byte) (pos : Nat) : (s.failed number pos).freq = s.freq := rfl
@[simp] theorem failed_nodes (s : State) (number : Byte) (pos : Nat) : (s.failed number pos).nodes = s.nodes := rfl
@[simp] theorem failed_code (s : State) (number : Byte) (pos : Nat) : (s.failed number pos).code = s.code := rfl
@[simp] theorem failed_bitbuf (s : State) (number : Byte) (pos : Nat) : (s.failed number pos).bitbuf = s.bitbuf := rfl
@[simp] theorem failed_obuf (s : State) (number : Byte) (pos : Nat) : (s.failed number pos).obuf = s.obuf := rfl
@[simp] theorem failed_agenda (s : State) (number : Byte) (pos : Nat) : (s.failed number pos).agenda = s.agenda := rfl
@[simp] theorem failed_hostReads (s : State) (number : Byte) (pos : Nat) : (s.failed number pos).hostReads = s.hostReads := rfl
@[simp] theorem failed_freeCtr (s : State) (number : Byte) (pos : Nat) : (s.failed number pos).freeCtr = s.freeCtr := rfl

/-! ### State.afterRead -/

@[simp] theorem afterRead_params (s : State) (v : Word) : (s.afterRead v).params = s.params := rfl
@[simp] theorem afterRead_pending (s : State) (v : Word) : (s.afterRead v).pending = s.pending := rfl
@[simp] theorem afterRead_treeValid (s : State) (v : Word) : (s.afterRead v).treeValid = s.treeValid := rfl
@[simp] theorem afterRead_codesValid (s : State) (v : Word) : (s.afterRead v).codesValid = s.codesValid := rfl
@[simp] theorem afterRead_done (s : State) (v : Word) : (s.afterRead v).done = s.done := rfl
@[simp] theorem afterRead_err (s : State) (v : Word) : (s.afterRead v).err = s.err := rfl
@[simp] theorem afterRead_overrun (s : State) (v : Word) : (s.afterRead v).overrun = s.overrun := rfl
@[simp] theorem afterRead_errcode (s : State) (v : Word) : (s.afterRead v).errcode = s.errcode := rfl
@[simp] theorem afterRead_errpos (s : State) (v : Word) : (s.afterRead v).errpos = s.errpos := rfl
@[simp] theorem afterRead_arg (s : State) (v : Word) : (s.afterRead v).arg = s.arg := rfl
@[simp] theorem afterRead_ibufLen (s : State) (v : Word) : (s.afterRead v).ibufLen = s.ibufLen := rfl
@[simp] theorem afterRead_ibuf (s : State) (v : Word) : (s.afterRead v).ibuf = s.ibuf := rfl
@[simp] theorem afterRead_freq (s : State) (v : Word) : (s.afterRead v).freq = s.freq := rfl
@[simp] theorem afterRead_nodes (s : State) (v : Word) : (s.afterRead v).nodes = s.nodes := rfl
@[simp] theorem afterRead_code (s : State) (v : Word) : (s.afterRead v).code = s.code := rfl
@[simp] theorem afterRead_bitbuf (s : State) (v : Word) : (s.afterRead v).bitbuf = s.bitbuf := rfl
@[simp] theorem afterRead_obuf (s : State) (v : Word) : (s.afterRead v).obuf = s.obuf := rfl
@[simp] theorem afterRead_agenda (s : State) (v : Word) : (s.afterRead v).agenda = s.agenda := rfl
@[simp] theorem afterRead_hostReads (s : State) (v : Word) : (s.afterRead v).hostReads = s.hostReads ++ [v] := rfl
@[simp] theorem afterRead_freeCtr (s : State) (v : Word) : (s.afterRead v).freeCtr = s.freeCtr + 4 := rfl

/-! ### State.hardReset -/

@[simp] theorem hardReset_params (s : State) : s.hardReset.params = s.params := rfl
@[simp] theorem hardReset_pending (s : State) : s.hardReset.pending = State.reset.pending := rfl
@[simp] theorem hardReset_treeValid (s : State) : s.hardReset.treeValid = State.reset.treeValid := rfl
@[simp] theorem hardReset_codesValid (s : State) : s.hardReset.codesValid = State.reset.codesValid := rfl
@[simp] theorem hardReset_done (s : State) : s.hardReset.done = State.reset.done := rfl
@[simp] theorem hardReset_err (s : State) : s.hardReset.err = State.reset.err := rfl
@[simp] theorem hardReset_overrun (s : State) : s.hardReset.overrun = State.reset.overrun := rfl
@[simp] theorem hardReset_errcode (s : State) : s.hardReset.errcode = State.reset.errcode := rfl
@[simp] theorem hardReset_errpos (s : State) : s.hardReset.errpos = State.reset.errpos := rfl
@[simp] theorem hardReset_arg (s : State) : s.hardReset.arg = State.reset.arg := rfl
@[simp] theorem hardReset_ibufLen (s : State) : s.hardReset.ibufLen = State.reset.ibufLen := rfl
@[simp] theorem hardReset_ibuf (s : State) : s.hardReset.ibuf = State.reset.ibuf := rfl
@[simp] theorem hardReset_freq (s : State) : s.hardReset.freq = State.reset.freq := rfl
@[simp] theorem hardReset_nodes (s : State) : s.hardReset.nodes = State.reset.nodes := rfl
@[simp] theorem hardReset_code (s : State) : s.hardReset.code = State.reset.code := rfl
@[simp] theorem hardReset_bitbuf (s : State) : s.hardReset.bitbuf = State.reset.bitbuf := rfl
@[simp] theorem hardReset_obuf (s : State) : s.hardReset.obuf = State.reset.obuf := rfl
@[simp] theorem hardReset_agenda (s : State) : s.hardReset.agenda = s.agenda := rfl
@[simp] theorem hardReset_hostReads (s : State) : s.hardReset.hostReads = s.hostReads := rfl
@[simp] theorem hardReset_freeCtr (s : State) : s.hardReset.freeCtr = s.freeCtr := rfl

end Sys2Proof.Machine
end

