-- ==== Sys2Proof/Laws/Bus.lean ====
section
/-! SUPPORT. The host bus: everything a read and a write can do. -/

namespace Sys2Proof.Machine

/-- A read turn: a value and no other effect on the block, or a refusal (20_memory.md R46, R49). -/
theorem readTurn_next {s t : State} {o : Offset} {n : AccessSize} (h : readTurn s o n = .next t) :
    accessWellFormed o n = true ∧ t = s.afterRead (s.busRead o n) := by
  unfold readTurn at h
  split at h
  · next hw => exact ⟨hw, by simpa using h.symm⟩
  · simp at h

theorem writeTurn_next {s t : State} {o : Offset} {n : AccessSize} {v : Word}
    (h : writeTurn s o n v = .next t) : accessWellFormed o n = true ∧ t = s.busWrite o n v := by
  unfold writeTurn at h
  split at h
  · next hw => exact ⟨hw, by simpa using h.symm⟩
  · simp at h

/-- Writing cells changes IBUF only. -/
theorem writeCells_eq (s : State) (i n : Nat) (v : Word) :
    s.writeCells i n v = { s with ibuf := (s.writeCells i n v).ibuf } := by
  unfold State.writeCells
  generalize List.range n = l
  induction l generalizing s with
  | nil => rfl
  | cons t l ih =>
    simp only [List.foldl_cons]
    rw [ih (s.writeCell (i + t) (wordByte v t))]
    unfold State.writeCell
    split <;> rfl

/-- Everything a write at the bus can do: it is dropped, it sets OVERRUN, it accepts a command, it sets ARG or
IBUF_LEN, or it writes IBUF cells (20_memory.md R46, R51, R52, R57). -/
theorem busWrite_cases (s : State) (o : Offset) (n : AccessSize) (v : Word) :
    s.busWrite o n v = s
    ∨ (s.pending.isSome = true ∧ s.busWrite o n v = { s with overrun := true })
    ∨ (s.pending = none ∧ s.busWrite o n v = s.accept v)
    ∨ (s.pending = none ∧ s.busWrite o n v = { s with arg := v })
    ∨ (s.pending = none ∧ s.busWrite o n v = { s with ibufLen := min v.toNat s.params.ibufCap })
    ∨ (s.pending = none ∧ s.busWrite o n v = s.writeCells (o.toNat - 0x100000) (sizeBytes n) v) := by
  unfold State.busWrite
  split
  · by_cases hb : s.busy = true
    · rw [if_pos hb]
      unfold State.writeBusy
      split
      · exact .inr (.inl ⟨hb, rfl⟩)
      · exact .inl rfl
    · rw [if_neg hb]
      have hp : s.pending = none := by simpa [State.busy] using hb
      unfold State.writeIdle
      split
      · unfold State.writeRegister
        split
        · exact .inr (.inr (.inl ⟨hp, rfl⟩))
        · exact .inr (.inr (.inr (.inl ⟨hp, rfl⟩)))
        · exact .inr (.inr (.inr (.inr (.inl ⟨hp, rfl⟩))))
        · exact .inl rfl
      · split
        · exact .inr (.inr (.inr (.inr (.inr ⟨hp, rfl⟩))))
        · exact .inl rfl
  · exact .inl rfl

/-- An ill-formed access has no effect at the bus (20_memory.md R46). -/
theorem busWrite_illFormed {o : Offset} {n : AccessSize} (h : accessWellFormed o n = false) (s : State)
    (v : Word) : s.busWrite o n v = s := by
  simp [State.busWrite, h]

/-- Writing cells keeps the canonical form of IBUF. -/
theorem writeCells_wf {s : State} (i n : Nat) (v : Word) (h : Memory.wf s.ibuf) :
    Memory.wf (s.writeCells i n v).ibuf := by
  unfold State.writeCells
  generalize List.range n = l
  induction l generalizing s with
  | nil => exact h
  | cons t l ih =>
    simp only [List.foldl_cons]
    apply ih
    unfold State.writeCell
    split
    · exact Memory.write_wf _ _ h
    · exact h

/-- Writing cells writes no cell at or past IBUF_CAP (20_memory.md R52). -/
theorem writeCells_cells {s : State} (i n : Nat) (v : Word) (h : ∀ c ∈ s.ibuf, c.1 < s.params.ibufCap) :
    ∀ c ∈ (s.writeCells i n v).ibuf, c.1 < s.params.ibufCap := by
  unfold State.writeCells
  generalize List.range n = l
  induction l generalizing s with
  | nil => exact h
  | cons t l ih =>
    simp only [List.foldl_cons]
    by_cases hi : i + t < s.params.ibufCap
    · have hs : s.writeCell (i + t) (wordByte v t) =
          { s with ibuf := s.ibuf.write (i + t) (wordByte v t) } := by simp [State.writeCell, hi]
      rw [hs]
      refine ih (s := { s with ibuf := s.ibuf.write (i + t) (wordByte v t) }) ?_
      intro c hc
      rcases Memory.mem_write hc with rfl | hc
      · exact hi
      · exact h c hc
    · have hs : s.writeCell (i + t) (wordByte v t) = s := by simp [State.writeCell, hi]
      rw [hs]
      exact ih h

end Sys2Proof.Machine
end

