-- ==== Sys2Proof/Laws/Ops.lean ====
section
/-! SUPPORT. The shared operations of a command: completion, the end of a body, the reading of the input. -/

namespace Sys2Proof.Machine

/-! ### Completion -/

/-- Completion with success (45_control.md R117). -/
@[simp] theorem complete_none (s : State) : s.complete .none 0 = s.succeeded := by
  simp [State.complete, State.succeeded, ErrorCode.number]

/-- Every error code but NONE has a non-zero number (60_exceptions.md R125). -/
theorem number_ne_zero {code : ErrorCode} (h : code ≠ .none) : code.number ≠ 0 := by
  cases code <;> first | exact absurd rfl h | decide

/-- Completion with an error (45_control.md R117). -/
theorem complete_error (s : State) {code : ErrorCode} (pos : Nat) (h : code ≠ .none) :
    s.complete code pos = s.failed code.number pos := by
  have hn : ¬ code.number = 0#8 := number_ne_zero h
  simp [State.complete, State.failed, hn]

theorem number_le (code : ErrorCode) : code.number.toNat ≤ 0x0A := by
  cases code <;> decide

/-! ### The end of a body -/

@[simp] theorem finish_ok (s : State) : finish (.ok s) = .next s.succeeded := by
  simp [finish]

@[simp] theorem finish_unwritten (i : Nat) : finish (.unwritten i) = .fault (.unwrittenInput i) := rfl

@[simp] theorem finish_raised (s : State) (code : ErrorCode) (pos : Nat) :
    finish (.raised s code pos) = .next (s.complete code pos) := rfl

/-- Everything the end of a perform step can do. -/
theorem finish_next {b : Body} {t : State} (h : finish b = .next t) :
    (∃ s, b = .ok s ∧ t = s.succeeded)
    ∨ ∃ s code pos, b = .raised s code pos ∧ t = s.complete code pos := by
  cases b with
  | ok s => exact .inl ⟨s, rfl, by simpa using h.symm⟩
  | raised s code pos => exact .inr ⟨s, code, pos, rfl, by simpa using h.symm⟩
  | unwritten i => simp at h

/-- The end of a perform step is never a refusal, and a fault is an unwritten cell (45_control.md R123). -/
theorem finish_stops {b : Body} (h : ∀ t, finish b ≠ .next t) :
    ∃ i, b = .unwritten i ∧ finish b = .fault (.unwrittenInput i) := by
  cases b with
  | ok s => exact absurd rfl (h _)
  | raised s code pos => exact absurd rfl (h _)
  | unwritten i => exact ⟨i, rfl, rfl⟩

@[simp] theorem ofRun_ok {α : Type} (s : State) (commit : α → State) (a : α) :
    Body.ofRun s commit (.ok a) = .ok (commit a) := rfl

@[simp] theorem ofRun_raised {α : Type} (s : State) (commit : α → State) (code : ErrorCode) (pos : Nat) :
    Body.ofRun s commit (.raised code pos : Run α) = .raised s code pos := rfl

@[simp] theorem ofRun_unwritten {α : Type} (s : State) (commit : α → State) (i : Nat) :
    Body.ofRun s commit (.unwritten i : Run α) = .unwritten i := rfl

@[simp] theorem andThen_ok (s : State) (f : State → Body) : (Body.ok s).andThen f = f s := rfl

@[simp] theorem andThen_raised (s : State) (code : ErrorCode) (pos : Nat) (f : State → Body) :
    (Body.raised s code pos).andThen f = .raised s code pos := rfl

@[simp] theorem andThen_unwritten (i : Nat) (f : State → Body) : (Body.unwritten i).andThen f = .unwritten i := rfl

/-! ### Runs -/

@[simp] theorem Run.map_ok {α β : Type} (f : α → β) (a : α) : (Run.ok a).map f = .ok (f a) := rfl

@[simp] theorem Run.map_raised {α β : Type} (f : α → β) (code : ErrorCode) (pos : Nat) :
    (Run.raised code pos : Run α).map f = .raised code pos := rfl

@[simp] theorem Run.map_unwritten {α β : Type} (f : α → β) (i : Nat) :
    (Run.unwritten i : Run α).map f = .unwritten i := rfl

theorem Run.map_eq_ok {α β : Type} {f : α → β} {r : Run α} {b : β} (h : r.map f = .ok b) :
    ∃ a, r = .ok a ∧ b = f a := by
  cases r with
  | ok a => exact ⟨a, rfl, by simpa using h.symm⟩
  | raised code pos => simp at h
  | unwritten i => simp at h

theorem Run.map_eq_raised {α β : Type} {f : α → β} {r : Run α} {code : ErrorCode} {pos : Nat}
    (h : r.map f = .raised code pos) : r = .raised code pos := by
  cases r with
  | ok a => simp at h
  | raised c p => simpa using h
  | unwritten i => simp at h

theorem Run.map_eq_unwritten {α β : Type} {f : α → β} {r : Run α} {i : Nat}
    (h : r.map f = .unwritten i) : r = .unwritten i := by
  cases r with
  | ok a => simp at h
  | raised c p => simp at h
  | unwritten j => simpa using h

/-! ### Reading the input -/

/-- Written cells are read in order. -/
theorem readInput_ok (m : Memory) (bytes : List Byte) (i : Nat)
    (h : ∀ j, j < bytes.length → m.read (i + j) = bytes[j]?) : readInput m bytes.length i = .ok bytes := by
  induction bytes generalizing i with
  | nil => rfl
  | cons b rest ih =>
    have h0 := h 0 (by simp)
    simp only [Nat.add_zero, List.getElem?_cons_zero] at h0
    have hr := ih (i + 1) (fun j hj => by
      have := h (j + 1) (by simpa using hj)
      simpa [Nat.add_assoc, Nat.add_comm 1 j] using this)
    simp [readInput, h0, hr]

/-- The input bytes of a state are what the commands read (10_state.md R32). -/
theorem readInput_inputIs {s : State} {bytes : List Byte} (h : s.InputIs bytes) :
    readInput s.ibuf s.ibufLen 0 = .ok bytes := by
  rw [h.1]
  exact readInput_ok s.ibuf bytes 0 (fun j hj => by simpa using h.2 j hj)

/-- Reading that succeeds has read written cells. -/
theorem readInput_eq_ok {m : Memory} {n i : Nat} {bytes : List Byte} (h : readInput m n i = .ok bytes) :
    bytes.length = n ∧ ∀ j, j < n → m.read (i + j) = bytes[j]? := by
  induction n generalizing i bytes with
  | zero =>
    have : bytes = [] := by simpa [readInput, eq_comm] using h
    simp [this]
  | succ n ih =>
    rw [readInput] at h
    split at h
    · simp at h
    · next b hb =>
      obtain ⟨rest, hrest, rfl⟩ := Run.map_eq_ok h
      obtain ⟨hlen, hcells⟩ := ih hrest
      refine ⟨by simp [hlen], ?_⟩
      intro j hj
      cases j with
      | zero => simpa using hb
      | succ j =>
        have := hcells j (by omega)
        simpa [Nat.add_assoc, Nat.add_comm 1 j] using this

theorem inputIs_of_readInput {s : State} {bytes : List Byte} (h : readInput s.ibuf s.ibufLen 0 = .ok bytes) :
    s.InputIs bytes := by
  obtain ⟨hlen, hcells⟩ := readInput_eq_ok h
  exact ⟨hlen.symm, fun j hj => by simpa using hcells j (by omega)⟩

/-- Reading never raises an error, and it stops at the first unwritten cell (20_memory.md R62). -/
theorem readInput_stops {m : Memory} {n i : Nat} (h : ∀ bytes, readInput m n i ≠ .ok bytes) :
    ∃ j, j < n ∧ m.read (i + j) = none ∧ (∀ k, k < j → m.read (i + k) ≠ none)
      ∧ readInput m n i = .unwritten (i + j) := by
  induction n generalizing i with
  | zero => exact absurd rfl (h [])
  | succ n ih =>
    cases hb : m.read i with
    | none =>
      refine ⟨0, by omega, by simpa using hb, by omega, ?_⟩
      simp [readInput, hb]
    | some b =>
      have hrest : ∀ bytes, readInput m n (i + 1) ≠ .ok bytes := by
        intro bytes he
        exact h (b :: bytes) (by simp [readInput, hb, he])
      obtain ⟨j, hj, hnone, hbefore, hrun⟩ := ih hrest
      refine ⟨j + 1, by omega, ?_, ?_, ?_⟩
      · simpa [Nat.add_assoc, Nat.add_comm 1 j] using hnone
      · intro k hk
        cases k with
        | zero => simp [hb]
        | succ k =>
          have := hbefore k (by omega)
          simpa [Nat.add_assoc, Nat.add_comm 1 k] using this
      · simp [readInput, hb, hrun, Nat.add_assoc, Nat.add_comm 1 j]

/-! ### Nodes -/

theorem leafSym_eq_some {nodes : List Node} {h : Nat} {a : Byte} (e : leafSym nodes h = some a) :
    ∃ w, nodes[h]? = some (.leaf a w) := by
  unfold leafSym at e
  split at e
  · next sym w hn => exact ⟨w, by simpa [hn] using e⟩
  · simp at e
  · simp at e

theorem children_eq_some {nodes : List Node} {h l r : Nat} (e : children nodes h = some (l, r)) :
    ∃ w bl br, nodes[h]? = some (.internal w bl br) ∧ l = bl.toNat ∧ r = br.toNat := by
  unfold children at e
  split at e
  · next w bl br hn =>
    have he : bl.toNat = l ∧ br.toNat = r := by simpa using e
    exact ⟨w, bl, br, hn, he.1.symm, he.2.symm⟩
  · simp at e
  · simp at e

/-- A node with children is no Leaf. -/
theorem leafSym_of_children {nodes : List Node} {h : Nat} {p : Nat × Nat} (e : children nodes h = some p) :
    leafSym nodes h = none := by
  obtain ⟨w, bl, br, hn, -, -⟩ := children_eq_some (l := p.1) (r := p.2) (by simpa using e)
  simp [leafSym, hn]

theorem children_of_leaf {nodes : List Node} {h : Nat} {a : Byte} (e : leafSym nodes h = some a) :
    children nodes h = none := by
  obtain ⟨w, hn⟩ := leafSym_eq_some e
  simp [children, hn]

end Sys2Proof.Machine
end

