-- ==== Sys2Proof/Laws/Tables.lean ====
section
/-! SUPPORT. The tables indexed by symbol (00_scope.md R9): read after write, and equality entry by entry. -/

namespace Sys2Proof.Machine

@[simp] theorem Table.get_all {α : Type} (v : α) (a : Byte) : (Table.all v).get a = v := by
  simp [Table.get, Table.all]

@[simp] theorem Table.get_set_same {α : Type} (t : Table α) (a : Byte) (v : α) : (t.set a v).get a = v := by
  simp [Table.get, Table.set]

theorem Table.get_set_other {α : Type} (t : Table α) {a b : Byte} (v : α) (h : b ≠ a) :
    (t.set a v).get b = t.get b := by
  have hne : a.toNat ≠ b.toNat := fun e => h (BitVec.eq_of_toNat_eq e.symm)
  simp [Table.get, Table.set, hne]

theorem Table.get_set {α : Type} (t : Table α) (a b : Byte) (v : α) :
    (t.set a v).get b = if b = a then v else t.get b := by
  split
  · next h => rw [h, Table.get_set_same]
  · next h => exact Table.get_set_other t v h

/-- Two tables with the same 256 entries are equal. -/
theorem Table.ext_get {α : Type} {t u : Table α} (h : ∀ a, t.get a = u.get a) : t = u := by
  apply Vector.ext
  intro i hi
  have := h (BitVec.ofNat 8 i)
  simpa [Table.get, Nat.mod_eq_of_lt hi] using this

/-- Every symbol is in the list of symbols (40_tree_builder.md R84). -/
@[simp] theorem mem_allSymbols (a : Byte) : a ∈ allSymbols := by
  simp only [allSymbols, List.mem_map, List.mem_range]
  exact ⟨a.toNat, a.isLt, by simp⟩

/-- The list of symbols is in increasing unsigned order. -/
theorem allSymbols_sorted : allSymbols.Pairwise (fun a b => a.toNat < b.toNat) := by
  rw [allSymbols, List.pairwise_map]
  refine List.Pairwise.imp_of_mem ?_ (List.pairwise_lt_range (n := 256))
  intro a b ha hb hab
  simp only [List.mem_range] at ha hb
  simpa [Nat.mod_eq_of_lt ha, Nat.mod_eq_of_lt hb] using hab

theorem allSymbols_nodup : allSymbols.Nodup :=
  allSymbols_sorted.imp (fun h e => by simp [e] at h)

end Sys2Proof.Machine
end

