-- ==== Sys2Proof/Laws/Tree.lean ====
section
/-! SUPPORT. The merge loop of TREE: what holds of the arena and the working set Q at every turn of the loop, and
so of the tree it ends with (40_tree_builder.md R85–R87, 10_state.md R29). -/

namespace Sys2Proof.Machine

/-! ### The key order -/

theorem keyLt_iff (nodes : List Node) (a b : Nat) : keyLt nodes a b = true ↔ KeyBefore nodes a b := by
  simp [keyLt, KeyBefore]

theorem KeyBefore.total (nodes : List Node) {a b : Nat} (h : a ≠ b) :
    KeyBefore nodes a b ∨ KeyBefore nodes b a := by
  unfold KeyBefore
  omega

theorem KeyBefore.trans {nodes : List Node} {a b c : Nat} (h1 : KeyBefore nodes a b) (h2 : KeyBefore nodes b c) :
    KeyBefore nodes a c := by
  unfold KeyBefore at *
  omega

/-- `minKey` is in the list and its key is before every other's (40_tree_builder.md R87). -/
theorem minKey_spec (nodes : List Node) (h : Nat) (rest : List Nat) :
    minKey nodes h rest ∈ h :: rest
    ∧ ∀ x ∈ h :: rest, x ≠ minKey nodes h rest → KeyBefore nodes (minKey nodes h rest) x := by
  unfold minKey
  induction rest generalizing h with
  | nil => simp
  | cons y rest ih =>
    simp only [List.foldl_cons]
    obtain ⟨hmem, hleast⟩ := ih (if keyLt nodes y h then y else h)
    generalize hm : rest.foldl (fun best x => if keyLt nodes x best then x else best)
      (if keyLt nodes y h then y else h) = m at hmem hleast ⊢
    by_cases hk : keyLt nodes y h = true
    · rw [if_pos hk] at hmem hleast
      refine ⟨List.mem_cons_of_mem _ hmem, ?_⟩
      intro x hx hne
      rcases List.mem_cons.1 hx with rfl | hx
      · have hyx : KeyBefore nodes y x := (keyLt_iff _ _ _).1 hk
        by_cases hym : y = m
        · exact hym ▸ hyx
        · exact (hleast y (by simp) hym).trans hyx
      · exact hleast x hx hne
    · rw [if_neg hk] at hmem hleast
      refine ⟨?_, ?_⟩
      · rcases List.mem_cons.1 hmem with he | hmem
        · exact he ▸ List.mem_cons_self
        · exact List.mem_cons_of_mem _ (List.mem_cons_of_mem _ hmem)
      · intro x hx hne
        rcases List.mem_cons.1 hx with rfl | hx
        · exact hleast x (by simp) hne
        · rcases List.mem_cons.1 hx with rfl | hx
          · by_cases hxh : x = h
            · exact hleast x (hxh ▸ List.mem_cons_self) hne
            · have hhx : KeyBefore nodes h x := by
                rcases KeyBefore.total nodes hxh with h' | h'
                · exact absurd ((keyLt_iff _ _ _).2 h') hk
                · exact h'
              by_cases hhm : h = m
              · exact hhm ▸ hhx
              · exact (hleast h (by simp) hhm).trans hhx
          · exact hleast x (List.mem_cons_of_mem _ hx) hne

/-! ### Appending a node -/

theorem weightOf_append {nodes : List Node} (m : Node) {h : Nat} (hh : h < nodes.length) :
    weightOf (nodes ++ [m]) h = weightOf nodes h := by
  simp [weightOf, List.getElem?_append_left hh]

theorem leafSym_append {nodes : List Node} (m : Node) {h : Nat} (hh : h < nodes.length) :
    leafSym (nodes ++ [m]) h = leafSym nodes h := by
  simp [leafSym, List.getElem?_append_left hh]

theorem children_append {nodes : List Node} (m : Node) {h : Nat} (hh : h < nodes.length) :
    children (nodes ++ [m]) h = children nodes h := by
  simp [children, List.getElem?_append_left hh]

theorem children_lt {nodes : List Node} {h : Nat} {p : Nat × Nat} (e : children nodes h = some p) :
    h < nodes.length := by
  obtain ⟨w, bl, br, hn, -, -⟩ := children_eq_some (l := p.1) (r := p.2) (by simpa using e)
  exact (List.getElem?_eq_some_iff.1 hn).1

theorem isChild_lt {nodes : List Node} {h c : Nat} (e : IsChild nodes h c) : h < nodes.length := by
  obtain ⟨l, r, hc, -⟩ := e
  exact children_lt hc

theorem isChild_append {nodes : List Node} (m : Node) {h c : Nat} (hh : h < nodes.length) :
    IsChild (nodes ++ [m]) h c ↔ IsChild nodes h c := by
  simp [IsChild, children_append m hh]

theorem available_append {nodes : List Node} (m : Node) {h x : Nat} (hh : h ≤ nodes.length) :
    Available (nodes ++ [m]) h x ↔ Available nodes h x := by
  unfold Available
  refine and_congr_right (fun _ => forall_congr' (fun g => ?_))
  refine imp_congr_right (fun hg => ?_)
  rw [isChild_append m (by omega)]

theorem keyBefore_append {nodes : List Node} (m : Node) {a b : Nat} (ha : a < nodes.length)
    (hb : b < nodes.length) : KeyBefore (nodes ++ [m]) a b ↔ KeyBefore nodes a b := by
  simp [KeyBefore, weightOf_append m ha, weightOf_append m hb]

/-- Node `h` was made by merging the two least keys of the working set of its time (40_tree_builder.md R87). -/
def LeastPair (nodes : List Node) (h : Nat) : Prop :=
  ∃ l r, children nodes h = some (l, r) ∧ Available nodes h l ∧ Available nodes h r ∧ KeyBefore nodes l r
    ∧ ∀ x, Available nodes h x → x ≠ l → x ≠ r → KeyBefore nodes r x

theorem leastPair_append {nodes : List Node} (m : Node) {h : Nat} (hh : h < nodes.length)
    (e : LeastPair nodes h) : LeastPair (nodes ++ [m]) h := by
  obtain ⟨l, r, hc, hl, hr, hk, hx⟩ := e
  have hll := hl.1
  have hrr := hr.1
  refine ⟨l, r, by rw [children_append m hh]; exact hc, (available_append m (by omega)).2 hl,
    (available_append m (by omega)).2 hr, (keyBefore_append m (by omega) (by omega)).2 hk, ?_⟩
  intro x hax h1 h2
  have hax' := (available_append m (by omega)).1 hax
  exact (keyBefore_append m (by omega) (by have := hax'.1; omega)).2 (hx x hax' h1 h2)

/-! ### The loop invariant -/

/-- What holds of the arena and the working set at every turn of the merge loop, for `n` leaves whose weights
sum to `total`. -/
structure Merging (n total : Nat) (nodes : List Node) (q : List Nat) : Prop where
  few : n ≤ 256
  noWrap : total < 2 ^ 32
  count : nodes.length + q.length = 2 * n
  seeded : n ≤ nodes.length
  nodup : q.Nodup
  inArena : ∀ x ∈ q, x < nodes.length
  leaves : ∀ h, h < n → ∃ a, leafSym nodes h = some a
  internals : ∀ h, n ≤ h → h < nodes.length →
    ∃ l r, children nodes h = some (l, r) ∧ l < h ∧ r < h ∧ l ≠ r
      ∧ weightOf nodes h = weightOf nodes l + weightOf nodes r
  roots : ∀ x ∈ q, ∀ h, ¬ IsChild nodes h x
  oneParent : ∀ c, c < nodes.length → c ∉ q →
    ∃ h, IsChild nodes h c ∧ ∀ g, IsChild nodes g c → g = h
  least : ∀ h, n ≤ h → h < nodes.length → LeastPair nodes h
  weight : (q.map (weightOf nodes)).sum = total
  bounded : ∀ h, weightOf nodes h ≤ total

/-- The working set of node `|nodes|` is Q (40_tree_builder.md R85). -/
theorem Merging.available_iff {n total : Nat} {nodes : List Node} {q : List Nat} (inv : Merging n total nodes q)
    (x : Nat) : Available nodes nodes.length x ↔ x ∈ q := by
  constructor
  · rintro ⟨hx, hfree⟩
    by_contra hq
    obtain ⟨h, hc, -⟩ := inv.oneParent x hx hq
    exact hfree h (isChild_lt hc) hc
  · intro hx
    exact ⟨inv.inArena x hx, fun g _ => inv.roots x hx g⟩

theorem sum_erase {l : List Nat} {f : Nat → Nat} {a : Nat} (h : a ∈ l) :
    f a + ((l.erase a).map f).sum = (l.map f).sum := by
  simpa using ((List.perm_cons_erase h).map f).sum_eq.symm

/-- One merge keeps the loop invariant. -/
theorem Merging.merge {n total : Nat} {nodes : List Node} {q : List Nat} (inv : Merging n total nodes q)
    {a b : Nat} (ha : a ∈ q) (hb : b ∈ q.erase a)
    (hleastA : ∀ x ∈ q, x ≠ a → KeyBefore nodes a x)
    (hleastB : ∀ x ∈ q.erase a, x ≠ b → KeyBefore nodes b x) :
    Merging n total
      (nodes ++ [Node.internal (BitVec.ofNat 32 (weightOf nodes a + weightOf nodes b))
        (BitVec.ofNat 9 a) (BitVec.ofNat 9 b)])
      ((q.erase a).erase b ++ [nodes.length]) := by
  generalize hm : Node.internal (BitVec.ofNat 32 (weightOf nodes a + weightOf nodes b))
    (BitVec.ofNat 9 a) (BitVec.ofNat 9 b) = m
  have hbq : b ∈ q := List.mem_of_mem_erase hb
  have hab : a ≠ b := by
    rintro rfl
    exact (inv.nodup.not_mem_erase) hb
  have hra := inv.inArena a ha
  have hrb := inv.inArena b hbq
  have hq2 : 2 ≤ q.length := by
    have := List.length_erase_of_mem ha
    have := List.length_pos_of_mem hb
    omega
  have hlen : nodes.length ≤ 510 := by
    have := inv.count
    have := inv.few
    omega
  have hwq := sum_erase (f := weightOf nodes) ha
  have hwq' := sum_erase (f := weightOf nodes) hb
  have hsum := inv.weight
  have hwle : weightOf nodes a + weightOf nodes b ≤ total := by omega
  have hnow := inv.noWrap
  have hself : (nodes ++ [m])[nodes.length]? = some m := by simp
  have hchild : children (nodes ++ [m]) nodes.length = some (a, b) := by
    have h1 : (BitVec.ofNat 9 a).toNat = a := by
      simp only [BitVec.toNat_ofNat]
      exact Nat.mod_eq_of_lt (by omega)
    have h2 : (BitVec.ofNat 9 b).toNat = b := by
      simp only [BitVec.toNat_ofNat]
      exact Nat.mod_eq_of_lt (by omega)
    rw [children, hself, ← hm]
    simp only [h1, h2]
  have hweight : weightOf (nodes ++ [m]) nodes.length = weightOf nodes a + weightOf nodes b := by
    rw [weightOf, hself, ← hm]
    simp only [BitVec.toNat_ofNat]
    exact Nat.mod_eq_of_lt (by omega)
  have hmemq : ∀ x, x ∈ (q.erase a).erase b ↔ x ∈ q ∧ x ≠ a ∧ x ≠ b := by
    intro x
    rw [(inv.nodup.erase a).mem_erase_iff, inv.nodup.mem_erase_iff]
    tauto
  have hchildNew : ∀ h c, IsChild (nodes ++ [m]) h c ↔
      IsChild nodes h c ∨ (h = nodes.length ∧ (c = a ∨ c = b)) := by
    intro h c
    rcases Nat.lt_trichotomy h nodes.length with hlt | rfl | hgt
    · rw [isChild_append m hlt]
      constructor
      · exact .inl
      · rintro (h' | ⟨rfl, -⟩)
        · exact h'
        · omega
    · constructor
      · rintro ⟨l, r, hc, hlr⟩
        rw [hchild] at hc
        simp only [Option.some.injEq, Prod.mk.injEq] at hc
        exact .inr ⟨rfl, by rw [hc.1, hc.2]; exact hlr⟩
      · rintro (h' | ⟨-, h'⟩)
        · exact absurd (isChild_lt h') (by omega)
        · exact ⟨a, b, hchild, h'⟩
    · constructor
      · intro h'
        have := isChild_lt h'
        simp only [List.length_append, List.length_cons, List.length_nil] at this
        omega
      · rintro (h' | ⟨rfl, -⟩)
        · exact absurd (isChild_lt h') (by omega)
        · omega
  refine
    { few := inv.few
      noWrap := inv.noWrap
      count := ?_
      seeded := ?_
      nodup := ?_
      inArena := ?_
      leaves := ?_
      internals := ?_
      roots := ?_
      oneParent := ?_
      least := ?_
      weight := ?_
      bounded := ?_ }
  · have h1 := List.length_erase_of_mem ha
    have h2 := List.length_erase_of_mem hb
    have := inv.count
    simp only [List.length_append, List.length_cons, List.length_nil]
    omega
  · have := inv.seeded
    simp only [List.length_append, List.length_cons, List.length_nil]
    omega
  · rw [List.nodup_append]
    refine ⟨(inv.nodup.erase a).erase b, by simp, ?_⟩
    intro x hx y hy
    have := inv.inArena x ((hmemq x).1 hx).1
    simp only [List.mem_singleton] at hy
    omega
  · intro x hx
    simp only [List.length_append, List.length_cons, List.length_nil]
    rcases List.mem_append.1 hx with hx | hx
    · have := inv.inArena x ((hmemq x).1 hx).1
      omega
    · simp only [List.mem_singleton] at hx
      omega
  · intro h hh
    have := inv.seeded
    rw [leafSym_append m (by omega)]
    exact inv.leaves h hh
  · intro h h1 h2
    simp only [List.length_append, List.length_cons, List.length_nil] at h2
    by_cases he : h = nodes.length
    · subst he
      refine ⟨a, b, hchild, hra, hrb, hab, ?_⟩
      rw [hweight, weightOf_append m hra, weightOf_append m hrb]
    · obtain ⟨l, r, hc, hl, hr, hlr, hw⟩ := inv.internals h h1 (by omega)
      refine ⟨l, r, by rw [children_append m (by omega)]; exact hc, hl, hr, hlr, ?_⟩
      rw [weightOf_append m (by omega), weightOf_append m (by omega), weightOf_append m (by omega)]
      exact hw
  · intro x hx h hc
    rcases (hchildNew h x).1 hc with hc | ⟨-, hc⟩
    · rcases List.mem_append.1 hx with hx | hx
      · exact inv.roots x ((hmemq x).1 hx).1 h hc
      · simp only [List.mem_singleton] at hx
        obtain ⟨l, r, hlr, hcc⟩ := hc
        have hh := children_lt hlr
        by_cases hn : n ≤ h
        · obtain ⟨l', r', hc', hl', hr', -, -⟩ := inv.internals h hn hh
          rw [hlr] at hc'
          simp only [Option.some.injEq, Prod.mk.injEq] at hc'
          omega
        · obtain ⟨s, hs⟩ := inv.leaves h (by omega)
          rw [children_of_leaf hs] at hlr
          simp at hlr
    · rcases List.mem_append.1 hx with hx | hx
      · have := (hmemq x).1 hx
        rcases hc with rfl | rfl
        · exact this.2.1 rfl
        · exact this.2.2 rfl
      · simp only [List.mem_singleton] at hx
        omega
  · intro c hc hq
    simp only [List.length_append, List.length_cons, List.length_nil] at hc
    have hne : c ≠ nodes.length := fun e => hq (by simp [e])
    by_cases hcab : c = a ∨ c = b
    · refine ⟨nodes.length, (hchildNew _ _).2 (.inr ⟨rfl, hcab⟩), ?_⟩
      intro g hg
      rcases (hchildNew g c).1 hg with hg | ⟨hg, -⟩
      · have hcq : c ∈ q := by
          rcases hcab with rfl | rfl
          · exact ha
          · exact hbq
        exact absurd hg (inv.roots c hcq g)
      · exact hg
    · have hcq : c ∉ q := by
        intro hcq
        refine hq (List.mem_append.2 (.inl ((hmemq c).2 ⟨hcq, ?_, ?_⟩)))
        · exact fun e => hcab (.inl e)
        · exact fun e => hcab (.inr e)
      obtain ⟨h, hh, huniq⟩ := inv.oneParent c (by omega) hcq
      refine ⟨h, (hchildNew _ _).2 (.inl hh), ?_⟩
      intro g hg
      rcases (hchildNew g c).1 hg with hg | ⟨-, hg⟩
      · exact huniq g hg
      · exact absurd hg hcab
  · intro h h1 h2
    simp only [List.length_append, List.length_cons, List.length_nil] at h2
    by_cases he : h = nodes.length
    · subst he
      have hav : ∀ x, Available (nodes ++ [m]) nodes.length x ↔ x ∈ q := fun x =>
        (available_append m (Nat.le_refl _)).trans (inv.available_iff x)
      refine ⟨a, b, hchild, (hav a).2 ha, (hav b).2 hbq, ?_, ?_⟩
      · exact (keyBefore_append m hra hrb).2 (hleastA b hbq hab.symm)
      · intro x hx hxa hxb
        have hxq := (hav x).1 hx
        have hxe : x ∈ q.erase a := inv.nodup.mem_erase_iff.2 ⟨hxa, hxq⟩
        exact (keyBefore_append m hrb (inv.inArena x hxq)).2 (hleastB x hxe hxb)
    · exact leastPair_append m (by omega) (inv.least h h1 (by omega))
  · rw [List.map_append, List.sum_append, List.map_singleton, List.sum_singleton, hweight]
    have hcongr : ((q.erase a).erase b).map (weightOf (nodes ++ [m])) =
        ((q.erase a).erase b).map (weightOf nodes) := by
      refine List.map_congr_left (fun x hx => ?_)
      exact weightOf_append m (inv.inArena x ((hmemq x).1 hx).1)
    rw [hcongr]
    omega
  · intro h
    rcases Nat.lt_trichotomy h nodes.length with hlt | rfl | hgt
    · rw [weightOf_append m hlt]
      exact inv.bounded h
    · rw [hweight]
      exact hwle
    · have hnone : (nodes ++ [m])[h]? = none := by
        rw [List.getElem?_eq_none]
        simp only [List.length_append, List.length_cons, List.length_nil]
        omega
      simp [weightOf, hnone]

/-- The merge loop ends with one handle in the working set, and only appends to the arena
(40_tree_builder.md R86). -/
theorem mergeLoop_spec {n total : Nat} (fuel : Nat) {nodes : List Node} {q : List Nat}
    (inv : Merging n total nodes q) (hq : q ≠ []) (hfuel : q.length ≤ fuel + 1) :
    ∃ root, Merging n total (mergeLoop fuel nodes q) [root]
      ∧ ∀ h, h < nodes.length → (mergeLoop fuel nodes q)[h]? = nodes[h]? := by
  induction fuel generalizing nodes q with
  | zero =>
    match q, hq, hfuel, inv with
    | [root], _, _, inv => exact ⟨root, inv, fun h _ => rfl⟩
  | succ fuel ih =>
    match q, hq, hfuel, inv with
    | [root], _, _, inv => exact ⟨root, inv, fun h _ => rfl⟩
    | q0 :: q1 :: qs, _, hfuel, inv =>
      obtain ⟨ha, hleastA⟩ := minKey_spec nodes q0 (q1 :: qs)
      rw [mergeLoop]
      generalize minKey nodes q0 (q1 :: qs) = a at ha hleastA ⊢
      have hlen := List.length_erase_of_mem ha
      simp only
      match he : (q0 :: q1 :: qs).erase a with
      | [] => simp [he] at hlen
      | r0 :: rs =>
        obtain ⟨hb, hleastB⟩ := minKey_spec nodes r0 rs
        dsimp only
        generalize minKey nodes r0 rs = b at hb hleastB ⊢
        rw [← he] at hb hleastB
        have inv' := inv.merge ha hb hleastA hleastB
        rw [he] at inv'
        have hblen := List.length_erase_of_mem hb
        rw [he] at hblen hlen
        simp only [List.length_cons] at hblen hlen hfuel
        obtain ⟨root, hinv, hkeep⟩ := ih inv' (by simp) (by
          simp only [List.length_append, List.length_cons, List.length_nil]
          omega)
        refine ⟨root, hinv, ?_⟩
        intro h hh
        have hk := hkeep h (by
          simp only [List.length_append, List.length_cons, List.length_nil]
          omega)
        rw [List.getElem?_append_left hh] at hk
        exact hk

/-! ### The seed -/

theorem mem_alphabet (freq : Table Word) (a : Byte) : a ∈ alphabet freq ↔ freq.get a ≠ 0 := by
  simp [alphabet]

/-- The alphabet is in increasing symbol order (40_tree_builder.md R84). -/
theorem alphabet_sorted (freq : Table Word) : (alphabet freq).Pairwise (fun a b => a.toNat < b.toNat) :=
  allSymbols_sorted.filter _

theorem alphabet_length_le (freq : Table Word) : (alphabet freq).length ≤ 256 := by
  have h := List.length_filter_le (fun s => decide (freq.get s ≠ 0)) allSymbols
  simpa [alphabet, allSymbols] using h

/-- The sum of all counts is the sum over the alphabet (40_tree_builder.md R86). -/
theorem alphabet_total (freq : Table Word) :
    ((alphabet freq).map (fun a => (freq.get a).toNat)).sum = freqTotal freq := by
  unfold alphabet freqTotal
  induction allSymbols with
  | nil => rfl
  | cons s l ih =>
    by_cases h : freq.get s = 0
    · simpa [h] using ih
    · have hf : (s :: l).filter (fun a => decide (freq.get a ≠ 0)) =
          s :: l.filter (fun a => decide (freq.get a ≠ 0)) := List.filter_cons_of_pos (by simpa using h)
      rw [hf, List.map_cons, List.sum_cons, List.map_cons, List.sum_cons, ih]

theorem seedLeaves_length (freq : Table Word) : (seedLeaves freq).length = (alphabet freq).length := by
  simp [seedLeaves]

theorem seedLeaves_getElem? (freq : Table Word) (k : Nat) :
    (seedLeaves freq)[k]? = ((alphabet freq)[k]?).map (fun a => Node.leaf a (freq.get a)) := by
  simp [seedLeaves]

theorem seed_not_child (freq : Table Word) (h c : Nat) : ¬ IsChild (seedLeaves freq) h c := by
  rintro ⟨l, r, hc, -⟩
  obtain ⟨w, bl, br, hn, -, -⟩ := children_eq_some hc
  rw [seedLeaves_getElem?] at hn
  cases ha : (alphabet freq)[h]? <;> simp [ha] at hn

theorem seed_weight (freq : Table Word) {k : Nat} {a : Byte} (h : (alphabet freq)[k]? = some a) :
    weightOf (seedLeaves freq) k = (freq.get a).toNat := by
  simp [weightOf, seedLeaves_getElem?, h]

theorem seed_weights (freq : Table Word) :
    (List.range (alphabet freq).length).map (weightOf (seedLeaves freq)) =
      (alphabet freq).map (fun a => (freq.get a).toNat) := by
  apply List.ext_getElem?
  intro k
  by_cases hk : k < (alphabet freq).length
  · have ha : (alphabet freq)[k]? = some (alphabet freq)[k] := List.getElem?_eq_getElem hk
    simp [List.getElem?_range hk, seed_weight freq ha, ha]
  · simp [hk]

/-- The seed satisfies the loop invariant (40_tree_builder.md R84). -/
theorem merging_seed (freq : Table Word) (hwrap : freqTotal freq < 2 ^ 32) :
    Merging (alphabet freq).length (freqTotal freq) (seedLeaves freq) (List.range (alphabet freq).length) where
  few := alphabet_length_le freq
  noWrap := hwrap
  count := by simp [seedLeaves_length]; omega
  seeded := by simp [seedLeaves_length]
  nodup := List.nodup_range
  inArena := by intro x hx; simpa [seedLeaves_length] using hx
  leaves := by
    intro h hh
    have ha : (alphabet freq)[h]? = some (alphabet freq)[h] := List.getElem?_eq_getElem hh
    exact ⟨(alphabet freq)[h], by simp [leafSym, seedLeaves_getElem?, ha]⟩
  internals := by
    intro h h1 h2
    rw [seedLeaves_length] at h2
    omega
  roots := fun x _ h => seed_not_child freq h x
  oneParent := by
    intro c hc hq
    rw [seedLeaves_length] at hc
    exact absurd (List.mem_range.2 hc) hq
  least := by
    intro h h1 h2
    rw [seedLeaves_length] at h2
    omega
  weight := by rw [seed_weights, alphabet_total]
  bounded := by
    intro h
    by_cases hh : h < (alphabet freq).length
    · have hmem : weightOf (seedLeaves freq) h ∈
          (List.range (alphabet freq).length).map (weightOf (seedLeaves freq)) :=
        List.mem_map.2 ⟨h, List.mem_range.2 hh, rfl⟩
      have := List.single_le_sum (fun _ _ => Nat.zero_le _) _ hmem
      rwa [seed_weights, alphabet_total] at this
    · have hnone : (seedLeaves freq)[h]? = none := by
        rw [List.getElem?_eq_none]
        rw [seedLeaves_length]
        omega
      simp [weightOf, hnone]

/-! ### The tree -/

/-- Everything TREE's arena is, for a non-empty alphabet and counts whose sum fits 32 bits. -/
theorem buildTree_merging {freq : Table Word} (hne : alphabet freq ≠ []) (hwrap : freqTotal freq < 2 ^ 32) :
    ∃ root, Merging (alphabet freq).length (freqTotal freq) (buildTree freq) [root]
      ∧ ∀ h, h < (alphabet freq).length → (buildTree freq)[h]? = (seedLeaves freq)[h]? := by
  have hlen : (alphabet freq).length ≠ 0 := by simpa using hne
  obtain ⟨root, hinv, hkeep⟩ := mergeLoop_spec (alphabet freq).length (merging_seed freq hwrap)
    (by simpa using hlen) (by simp)
  exact ⟨root, hinv, fun h hh => hkeep h (by rw [seedLeaves_length]; exact hh)⟩

theorem buildTree_length {freq : Table Word} (hne : alphabet freq ≠ []) (hwrap : freqTotal freq < 2 ^ 32) :
    (buildTree freq).length = 2 * (alphabet freq).length - 1 := by
  obtain ⟨root, hinv, -⟩ := buildTree_merging hne hwrap
  have := hinv.count
  simp only [List.length_cons, List.length_nil] at this
  omega

theorem buildTree_leafCount {freq : Table Word} (hne : alphabet freq ≠ []) (hwrap : freqTotal freq < 2 ^ 32) :
    leafCount (buildTree freq) = (alphabet freq).length := by
  have hpos := List.length_pos_iff.2 hne
  rw [leafCount, buildTree_length hne hwrap]
  omega

/-- The k-th leaf is the k-th symbol of the alphabet with its count (40_tree_builder.md R84). -/
theorem buildTree_leaf {freq : Table Word} (hne : alphabet freq ≠ []) (hwrap : freqTotal freq < 2 ^ 32)
    {k : Nat} {a : Byte} (h : (alphabet freq)[k]? = some a) :
    (buildTree freq)[k]? = some (.leaf a (freq.get a)) := by
  obtain ⟨root, -, hkeep⟩ := buildTree_merging hne hwrap
  rw [hkeep k (List.getElem?_eq_some_iff.1 h).1, seedLeaves_getElem?, h]
  rfl

/-- The handle left in the working set is the last one (40_tree_builder.md R86). -/
theorem merging_root {n total root : Nat} {nodes : List Node} (inv : Merging n total nodes [root]) :
    root = rootHandle nodes := by
  have hr := inv.inArena root (by simp)
  by_contra hne
  have hlast : nodes.length - 1 < nodes.length := by omega
  obtain ⟨h, hc, -⟩ := inv.oneParent (nodes.length - 1) hlast (by simpa [rootHandle, eq_comm] using hne)
  obtain ⟨l, r, hlr, hcc⟩ := hc
  have hh := children_lt hlr
  by_cases hn : n ≤ h
  · obtain ⟨l', r', hc', hl', hr', -, -⟩ := inv.internals h hn hh
    rw [hlr] at hc'
    simp only [Option.some.injEq, Prod.mk.injEq] at hc'
    omega
  · obtain ⟨s, hs⟩ := inv.leaves h (by omega)
    rw [children_of_leaf hs] at hlr
    simp at hlr

/-- The tree TREE builds has the shape of 10_state.md R29. -/
theorem buildTree_shape {freq : Table Word} (hne : alphabet freq ≠ []) (hwrap : freqTotal freq < 2 ^ 32) :
    TreeShape (buildTree freq) := by
  obtain ⟨root, inv, hkeep⟩ := buildTree_merging hne hwrap
  have hcount := buildTree_leafCount hne hwrap
  have hpos := List.length_pos_iff.2 hne
  have hroot := merging_root inv
  have hleaf : ∀ h a, leafSym (buildTree freq) h = some a → (alphabet freq)[h]? = some a := by
    intro h a ha
    obtain ⟨w, hw⟩ := leafSym_eq_some ha
    have hlt : h < (alphabet freq).length := by
      by_contra hge
      have hin := (List.getElem?_eq_some_iff.1 hw).1
      obtain ⟨l, r, hc, -⟩ := inv.internals h (by omega) hin
      rw [children_of_leaf ha] at hc
      simp at hc
    have hs : (alphabet freq)[h]? = some (alphabet freq)[h] := List.getElem?_eq_getElem hlt
    rw [hkeep h hlt, seedLeaves_getElem?, hs] at hw
    have : (alphabet freq)[h] = a := by simp at hw; exact hw.1
    rw [hs, this]
  refine
    { nonempty := by omega
      bounded := by rw [hcount]; exact inv.few
      size := by rw [hcount]; exact buildTree_length hne hwrap
      leaves := by rw [hcount]; exact inv.leaves
      sorted := ?_
      internals := by rw [hcount]; exact inv.internals
      oneParent := ?_ }
  · intro h k a b hhk ha hb
    have ha' := List.getElem?_eq_some_iff.1 (hleaf h a ha)
    have hb' := List.getElem?_eq_some_iff.1 (hleaf k b hb)
    obtain ⟨h1, rfl⟩ := ha'
    obtain ⟨h2, rfl⟩ := hb'
    exact List.pairwise_iff_getElem.1 (alphabet_sorted freq) h k h1 h2 hhk
  · intro c hc
    have hlen : rootHandle (buildTree freq) < (buildTree freq).length := by
      rw [rootHandle, buildTree_length hne hwrap]
      omega
    exact inv.oneParent c (by omega) (by simp; omega)

/-- The root's weight is the sum of the counts (40_tree_builder.md R86). -/
theorem buildTree_root_weight {freq : Table Word} (hne : alphabet freq ≠ []) (hwrap : freqTotal freq < 2 ^ 32) :
    weightOf (buildTree freq) (rootHandle (buildTree freq)) = freqTotal freq := by
  obtain ⟨root, inv, -⟩ := buildTree_merging hne hwrap
  have h := inv.weight
  rw [merging_root inv] at h
  simpa using h

end Sys2Proof.Machine
end

