-- ==== Sys2Proof/Laws/Paths.lean ====
section
/-! SUPPORT. Paths in a tree of the shape of 10_state.md R29: every Leaf has exactly one path from the root
(41_code_generator.md R96, R97). -/

namespace Sys2Proof.Machine

theorem Path.append {nodes : List Node} {a b c : Nat} {p q : List Bit} (h1 : Path nodes a p b)
    (h2 : Path nodes b q c) : Path nodes a (p ++ q) c := by
  induction h1 with
  | here => exact h2
  | left hc _ ih => exact .left hc (ih h2)
  | right hc _ ih => exact .right hc (ih h2)

/-- The end of a path is determined by its start and its bits. -/
theorem Path.deterministic {nodes : List Node} {a b c : Nat} {p : List Bit} (h1 : Path nodes a p b)
    (h2 : Path nodes a p c) : b = c := by
  induction h1 with
  | here => cases h2; rfl
  | left hc _ ih =>
    cases h2 with
    | left hc' h' =>
      rw [hc] at hc'
      simp only [Option.some.injEq, Prod.mk.injEq] at hc'
      exact ih (hc'.1 ▸ h')
  | right hc _ ih =>
    cases h2 with
    | right hc' h' =>
      rw [hc] at hc'
      simp only [Option.some.injEq, Prod.mk.injEq] at hc'
      exact ih (hc'.2 ▸ h')

/-- A path can be cut at any point. -/
theorem Path.split {nodes : List Node} {a c : Nat} {p q : List Bit} (h : Path nodes a (p ++ q) c) :
    ∃ b, Path nodes a p b ∧ Path nodes b q c := by
  induction p generalizing a with
  | nil => exact ⟨a, .here a, h⟩
  | cons b p ih =>
    rw [List.cons_append] at h
    cases h with
    | left hc h' =>
      obtain ⟨d, h1, h2⟩ := ih h'
      exact ⟨d, .left hc h1, h2⟩
    | right hc h' =>
      obtain ⟨d, h1, h2⟩ := ih h'
      exact ⟨d, .right hc h1, h2⟩

/-- A path from a Leaf goes nowhere. -/
theorem Path.from_leaf {nodes : List Node} {a b : Nat} {p : List Bit} {sym : Byte}
    (hleaf : leafSym nodes a = some sym) (h : Path nodes a p b) : p = [] ∧ b = a := by
  cases h with
  | here => exact ⟨rfl, rfl⟩
  | left hc _ => rw [children_of_leaf hleaf] at hc; simp at hc
  | right hc _ => rw [children_of_leaf hleaf] at hc; simp at hc

/-- The last step of a path is from a parent to a child. -/
theorem Path.last {nodes : List Node} {a c : Nat} {p : List Bit} {x : Bit} (h : Path nodes a (p ++ [x]) c) :
    ∃ b l r, Path nodes a p b ∧ children nodes b = some (l, r) ∧ c = (if x then r else l) := by
  obtain ⟨b, h1, h2⟩ := h.split
  cases h2 with
  | left hc h' => cases h'; exact ⟨b, _, _, h1, hc, rfl⟩
  | right hc h' => cases h'; exact ⟨b, _, _, h1, hc, rfl⟩

/-! ### Trees -/

theorem TreeShape.child_lt {nodes : List Node} (shape : TreeShape nodes) {h l r : Nat}
    (hc : children nodes h = some (l, r)) : l < h ∧ r < h ∧ l ≠ r ∧ leafCount nodes ≤ h := by
  have hlt := children_lt hc
  by_cases hn : leafCount nodes ≤ h
  · obtain ⟨l', r', hc', hl, hr, hne, -⟩ := shape.internals h hn hlt
    rw [hc] at hc'
    simp only [Option.some.injEq, Prod.mk.injEq] at hc'
    rw [hc'.1, hc'.2]
    exact ⟨hl, hr, hne, hn⟩
  · obtain ⟨a, ha⟩ := shape.leaves h (by omega)
    rw [children_of_leaf ha] at hc
    simp at hc

theorem TreeShape.length_pos {nodes : List Node} (shape : TreeShape nodes) : 0 < nodes.length := by
  have := shape.nonempty
  have := shape.size
  omega

theorem TreeShape.root_lt {nodes : List Node} (shape : TreeShape nodes) : rootHandle nodes < nodes.length := by
  have := shape.length_pos
  unfold rootHandle
  omega

/-- A node is a Leaf exactly when its handle is below n (10_state.md R29). -/
theorem TreeShape.leaf_lt {nodes : List Node} (shape : TreeShape nodes) {h : Nat} {a : Byte}
    (ha : leafSym nodes h = some a) : h < leafCount nodes := by
  by_contra hge
  obtain ⟨w, hw⟩ := leafSym_eq_some ha
  obtain ⟨l, r, hc, -⟩ := shape.internals h (by omega) (List.getElem?_eq_some_iff.1 hw).1
  rw [children_of_leaf ha] at hc
  simp at hc

/-- Two Leaves with the same symbol are one. -/
theorem TreeShape.leaf_unique {nodes : List Node} (shape : TreeShape nodes) {h k : Nat} {a : Byte}
    (h1 : leafSym nodes h = some a) (h2 : leafSym nodes k = some a) : h = k := by
  rcases Nat.lt_trichotomy h k with hlt | rfl | hgt
  · have := shape.sorted h k a a hlt h1 h2
    omega
  · rfl
  · have := shape.sorted k h a a hgt h2 h1
    omega

theorem Path.le {nodes : List Node} (shape : TreeShape nodes) {a b : Nat} {p : List Bit}
    (h : Path nodes a p b) : b ≤ a ∧ (p ≠ [] → b < a) := by
  induction h with
  | here => simp
  | left hc _ ih =>
    have := shape.child_lt hc
    exact ⟨by omega, fun _ => by omega⟩
  | right hc _ ih =>
    have := shape.child_lt hc
    exact ⟨by omega, fun _ => by omega⟩

/-- A path from `a` is no longer than the number of Internal nodes up to `a` (41_code_generator.md R96). -/
theorem Path.length_le {nodes : List Node} (shape : TreeShape nodes) {a b : Nat} {p : List Bit}
    (h : Path nodes a p b) : p.length ≤ a + 1 - leafCount nodes := by
  induction h with
  | here => simp
  | left hc _ ih =>
    have := shape.child_lt hc
    simp only [List.length_cons]
    omega
  | right hc _ ih =>
    have := shape.child_lt hc
    simp only [List.length_cons]
    omega

/-- Of two nodes above one node, one is above the other. -/
theorem Path.comparable {nodes : List Node} (shape : TreeShape nodes) {a b k : Nat} {p q : List Bit}
    (h1 : Path nodes a p k) (h2 : Path nodes b q k) :
    (∃ s, Path nodes a s b ∧ p = s ++ q) ∨ ∃ s, Path nodes b s a ∧ q = s ++ p := by
  induction p using List.reverseRecOn generalizing q k with
  | nil =>
    cases h1
    exact .inr ⟨q, h2, by simp⟩
  | append_singleton p x ih =>
    rcases List.eq_nil_or_concat q with rfl | ⟨q, y, rfl⟩
    · cases h2
      exact .inl ⟨p ++ [x], h1, by simp⟩
    · rw [List.concat_eq_append] at h2 ⊢
      obtain ⟨c, l, r, hp, hc, hk⟩ := h1.last
      obtain ⟨d, l', r', hq, hd, hk'⟩ := h2.last
      have hclt := children_lt hc
      have hkroot : k < rootHandle nodes := by
        have h3 := shape.child_lt hc
        have hca := (hp.le shape).1
        have : k < c := by
          rw [hk]
          split <;> omega
        unfold rootHandle
        omega
      obtain ⟨e, -, huniq⟩ := shape.oneParent k hkroot
      have hck : IsChild nodes c k := ⟨l, r, hc, by rw [hk]; split <;> simp⟩
      have hdk : IsChild nodes d k := ⟨l', r', hd, by rw [hk']; split <;> simp⟩
      have hcd : c = d := (huniq c hck).trans (huniq d hdk).symm
      subst hcd
      rw [hc] at hd
      simp only [Option.some.injEq, Prod.mk.injEq] at hd
      obtain ⟨rfl, rfl⟩ := hd
      have hxy : x = y := by
        have hne := (shape.child_lt hc).2.2.1
        rw [hk] at hk'
        cases x <;> cases y <;> simp_all
      subst hxy
      rcases ih hp hq with ⟨s, hs, rfl⟩ | ⟨s, hs, rfl⟩
      · exact .inl ⟨s, hs, by simp⟩
      · exact .inr ⟨s, hs, by simp⟩

/-- A node has at most one path from the root. -/
theorem Path.unique {nodes : List Node} (shape : TreeShape nodes) {a k : Nat} {p q : List Bit}
    (h1 : Path nodes a p k) (h2 : Path nodes a q k) : p = q := by
  rcases Path.comparable shape h1 h2 with ⟨s, hs, rfl⟩ | ⟨s, hs, rfl⟩
  · have : s = [] := by
      by_contra hne
      have := (hs.le shape).2 hne
      omega
    simp [this]
  · have : s = [] := by
      by_contra hne
      have := (hs.le shape).2 hne
      omega
    simp [this]

/-- No node is below both children of a node. -/
theorem TreeShape.disjoint {nodes : List Node} (shape : TreeShape nodes) {h l r k : Nat} {p q : List Bit}
    (hc : children nodes h = some (l, r)) (h1 : Path nodes l p k) (h2 : Path nodes r q k) : False := by
  obtain ⟨hl, hr, hne, -⟩ := shape.child_lt hc
  have hh := children_lt hc
  have key : ∀ a b s, IsChild nodes h a → IsChild nodes h b → a < h → b < h → a ≠ b → Path nodes a s b → False := by
    intro a b s _ hb ha hbl hab hs
    rcases List.eq_nil_or_concat s with rfl | ⟨s, x, rfl⟩
    · cases hs
      exact hab rfl
    · rw [List.concat_eq_append] at hs
      obtain ⟨c, l', r', hp, hc', hk⟩ := hs.last
      have hroot : b < rootHandle nodes := by
        unfold rootHandle
        omega
      obtain ⟨e, -, huniq⟩ := shape.oneParent b hroot
      have hcb : IsChild nodes c b := ⟨l', r', hc', by rw [hk]; split <;> simp⟩
      have : c = h := (huniq c hcb).trans (huniq h hb).symm
      have := (hp.le shape).1
      omega
  have hil : IsChild nodes h l := ⟨l, r, hc, .inl rfl⟩
  have hir : IsChild nodes h r := ⟨l, r, hc, .inr rfl⟩
  rcases Path.comparable shape h1 h2 with ⟨s, hs, -⟩ | ⟨s, hs, -⟩
  · exact key l r s hil hir hl hr hne hs
  · exact key r l s hir hil hr hl hne.symm hs

/-- Every node is below the root. -/
theorem TreeShape.reachable {nodes : List Node} (shape : TreeShape nodes) :
    ∀ d c, c + d = rootHandle nodes → ∃ p, Path nodes (rootHandle nodes) p c := by
  intro d
  induction d using Nat.strongRecOn with
  | ind d ih =>
    intro c hcd
    rcases Nat.eq_zero_or_pos d with rfl | hd
    · refine ⟨[], ?_⟩
      rw [← hcd]
      exact .here _
    · obtain ⟨h, ⟨l, r, hc, hlr⟩, -⟩ := shape.oneParent c (by omega)
      have hlt := shape.child_lt hc
      have hin := children_lt hc
      have hroot := shape.length_pos
      have hle : h ≤ rootHandle nodes := by
        unfold rootHandle
        omega
      have hch : c < h := by
        rcases hlr with rfl | rfl
        · exact hlt.1
        · exact hlt.2.1
      obtain ⟨p, hp⟩ := ih (rootHandle nodes - h) (by omega) h (by omega)
      rcases hlr with rfl | rfl
      · exact ⟨p ++ [false], hp.append (.left hc (.here _))⟩
      · exact ⟨p ++ [true], hp.append (.right hc (.here _))⟩

end Sys2Proof.Machine
end

