-- ==== Sys2Proof/Laws/Codes.lean ====
section
/-! SUPPORT. The walk of CODES: what it writes into the code table (41_code_generator.md R93–R97). -/

namespace Sys2Proof.Machine

/-- The walk never writes a code longer than the fuel it began with allows. -/
theorem walk_length (nodes : List Node) (fuel h : Nat) (p : List Bit) (code : Table (List Bit)) (max : Nat)
    (hp : p.length + fuel ≤ max + 1) (hcode : ∀ a, (code.get a).length ≤ max) :
    ∀ a, ((walk nodes fuel h p code).get a).length ≤ max := by
  induction fuel generalizing h p code with
  | zero => exact hcode
  | succ fuel ih =>
    intro a
    rw [walk]
    split
    · rw [Table.get_set]
      split
      · omega
      · exact hcode a
    · refine ih _ _ _ (by simp; omega) (ih _ _ _ (by simp; omega) hcode) a
    · exact hcode a

/-- No code is longer than 255 bits (10_state.md R30), whatever the arena is. -/
theorem codeTable_length (nodes : List Node) (a : Byte) : ((codeTable nodes).get a).length ≤ 255 := by
  unfold codeTable
  split
  · rw [Table.get_set]
    split <;> simp
  · exact walk_length nodes (Config.maxCodeLen + 1) _ _ _ 255 (by simp [Config.maxCodeLen]) (by simp) a

/-- The walk from `h` with prefix `p` writes, for each Leaf below `h`, `p` and the path to it, and leaves every
other symbol's code as it was. -/
theorem walk_get {nodes : List Node} (shape : TreeShape nodes) (fuel h : Nat) (p : List Bit)
    (code : Table (List Bit)) (hh : h < nodes.length) (hfuel : h + 1 - leafCount nodes < fuel) (a : Byte) :
    (∀ k q, Path nodes h q k → leafSym nodes k = some a → (walk nodes fuel h p code).get a = p ++ q)
    ∧ ((∀ k q, Path nodes h q k → leafSym nodes k ≠ some a) → (walk nodes fuel h p code).get a = code.get a) := by
  induction fuel generalizing h p code with
  | zero => omega
  | succ fuel ih =>
    by_cases hn : h < leafCount nodes
    · obtain ⟨s, hs⟩ := shape.leaves h hn
      obtain ⟨w, hw⟩ := leafSym_eq_some hs
      have hwalk : walk nodes (fuel + 1) h p code = code.set s p := by rw [walk, hw]
      rw [hwalk]
      constructor
      · intro k q hq hk
        obtain ⟨rfl, rfl⟩ := hq.from_leaf hs
        rw [hs] at hk
        simp only [Option.some.injEq] at hk
        rw [hk, Table.get_set_same, List.append_nil]
      · intro hno
        have hne : a ≠ s := fun e => hno h [] (.here h) (by rw [hs, e])
        exact Table.get_set_other code p hne
    · obtain ⟨l, r, hc, hl, hr, -, -⟩ := shape.internals h (by omega) hh
      obtain ⟨w, bl, br, hw, rfl, rfl⟩ := children_eq_some hc
      have hwalk : walk nodes (fuel + 1) h p code =
          walk nodes fuel br.toNat (p ++ [true]) (walk nodes fuel bl.toNat (p ++ [false]) code) := by
        rw [walk, hw]
      rw [hwalk]
      obtain ⟨hl1, hl2⟩ := ih bl.toNat (p ++ [false]) code (by omega) (by omega)
      obtain ⟨hr1, hr2⟩ := ih br.toNat (p ++ [true]) (walk nodes fuel bl.toNat (p ++ [false]) code)
        (by omega) (by omega)
      have hnoleaf := leafSym_of_children hc
      constructor
      · intro k q hq hk
        cases hq with
        | here => rw [hnoleaf] at hk; simp at hk
        | left hc' hq =>
          rw [hc] at hc'
          simp only [Option.some.injEq, Prod.mk.injEq] at hc'
          obtain ⟨rfl, rfl⟩ := hc'
          rw [hr2 ?_, hl1 _ _ hq hk]
          · simp
          · intro k' q' hq' hk'
            have := shape.leaf_unique hk hk'
            subst this
            exact shape.disjoint hc hq hq'
        | right hc' hq =>
          rw [hc] at hc'
          simp only [Option.some.injEq, Prod.mk.injEq] at hc'
          obtain ⟨rfl, rfl⟩ := hc'
          rw [hr1 _ _ hq hk]
          simp
      · intro hno
        rw [hr2 (fun k q hq => hno k _ (.right hc hq)), hl2 (fun k q hq => hno k _ (.left hc hq))]

theorem TreeShape.root_fuel {nodes : List Node} (shape : TreeShape nodes) :
    rootHandle nodes + 1 - leafCount nodes < Config.maxCodeLen + 1 := by
  have := shape.bounded
  have := shape.nonempty
  have := shape.size
  simp only [rootHandle, Config.maxCodeLen]
  omega

/-- With an Internal root each Leaf's symbol gets its path from the root (41_code_generator.md R96). -/
theorem codeTable_path {nodes : List Node} (shape : TreeShape nodes)
    (hroot : leafSym nodes (rootHandle nodes) = none) {k : Nat} {a : Byte} {q : List Bit}
    (hq : Path nodes (rootHandle nodes) q k) (hk : leafSym nodes k = some a) : (codeTable nodes).get a = q := by
  have h := (walk_get shape (Config.maxCodeLen + 1) (rootHandle nodes) [] (Table.all []) shape.root_lt
    shape.root_fuel a).1 k q hq hk
  simpa [codeTable, hroot] using h

/-- … and every other symbol has no code. -/
theorem codeTable_none {nodes : List Node} (shape : TreeShape nodes)
    (hroot : leafSym nodes (rootHandle nodes) = none) {a : Byte} (hno : ∀ k, leafSym nodes k ≠ some a) :
    (codeTable nodes).get a = [] := by
  have h := (walk_get shape (Config.maxCodeLen + 1) (rootHandle nodes) [] (Table.all []) shape.root_lt
    shape.root_fuel a).2 (fun k _ _ => hno k)
  simpa [codeTable, hroot] using h

/-- The code of each Leaf is its path from the root. -/
theorem codeTable_leaf {nodes : List Node} (shape : TreeShape nodes)
    (hroot : leafSym nodes (rootHandle nodes) = none) {k : Nat} {a : Byte} (hk : leafSym nodes k = some a) :
    Path nodes (rootHandle nodes) ((codeTable nodes).get a) k := by
  have hlt := shape.leaf_lt hk
  have hle : k ≤ rootHandle nodes := by
    have := shape.size
    have := shape.nonempty
    unfold rootHandle
    omega
  obtain ⟨q, hq⟩ := shape.reachable (rootHandle nodes - k) k (by omega)
  rw [codeTable_path shape hroot hq hk]
  exact hq

/-- With a Leaf at the root its symbol gets the code `0` (41_code_generator.md R95). -/
theorem codeTable_single {nodes : List Node} {a : Byte} (hroot : leafSym nodes (rootHandle nodes) = some a)
    (b : Byte) : (codeTable nodes).get b = if b = a then [false] else [] := by
  simp [codeTable, hroot, Table.get_set]

/-- A tree whose root is a Leaf has one node. -/
theorem TreeShape.single {nodes : List Node} (shape : TreeShape nodes) {a : Byte}
    (hroot : leafSym nodes (rootHandle nodes) = some a) : nodes.length = 1 := by
  have := shape.leaf_lt hroot
  have := shape.size
  have := shape.nonempty
  simp only [rootHandle] at *
  omega

end Sys2Proof.Machine
end

