-- ==== Sys2Proof/Laws/Commands.lean ====
section
/-! SUPPORT. One inversion lemma for each command: everything its meaning can do when it answers a next state.
Later proofs cite these and unfold no meaning. -/

namespace Sys2Proof.Machine

/-! ### FREQ, TREE, CODES, BUILD -/

/-- How FREQ's body ends: the count of the written input, or the fault. -/
theorem freqBody_cases (s : State) :
    (∃ bytes, s.InputIs bytes ∧ freqBody s = .ok { s with freq := countBytes bytes })
    ∨ ∃ j, j < s.ibufLen ∧ s.ibuf.read j = none ∧ (∀ k, k < j → s.ibuf.read k ≠ none)
      ∧ freqBody s = .unwritten j := by
  by_cases h : ∃ bytes, readInput s.ibuf s.ibufLen 0 = .ok bytes
  · obtain ⟨bytes, hb⟩ := h
    exact .inl ⟨bytes, inputIs_of_readInput hb, by simp [freqBody, hb]⟩
  · obtain ⟨j, hj, hnone, hbefore, hrun⟩ := readInput_stops (fun bytes hb => h ⟨bytes, hb⟩)
    simp only [Nat.zero_add] at hnone hbefore hrun
    exact .inr ⟨j, hj, hnone, hbefore, by simp [freqBody, hrun]⟩

theorem execFreq_next {s t : State} (h : execFreq s = .next t) :
    ∃ bytes, s.InputIs bytes ∧ t = { s with freq := countBytes bytes }.succeeded := by
  rcases freqBody_cases s with ⟨bytes, hin, hb⟩ | ⟨j, -, -, -, hb⟩
  · exact ⟨bytes, hin, by simpa [execFreq, hb, eq_comm] using h⟩
  · simp [execFreq, hb] at h

/-- The state TREE and BUILD leave when they fail (60_exceptions.md R127). -/
def State.withoutTree (s : State) : State :=
  { s with treeValid := false, codesValid := false, nodes := [], code := Table.all [] }

/-- The state a successful TREE leaves, before its completion. -/
def State.withTree (s : State) : State :=
  { s.withoutTree with nodes := buildTree s.freq, treeValid := true }

theorem treeBody_cases (s : State) :
    (alphabet s.freq ≠ [] ∧ treeBody s = .ok s.withTree)
    ∨ (alphabet s.freq = [] ∧ treeBody s = .raised s.withoutTree .emptyAlphabet 0) := by
  by_cases h : alphabet s.freq = []
  · exact .inr ⟨h, by simp [treeBody, h, State.withoutTree]⟩
  · exact .inl ⟨h, by simp [treeBody, h, State.withTree, State.withoutTree]⟩

theorem execTree_next {s t : State} (h : execTree s = .next t) :
    (alphabet s.freq ≠ [] ∧ t = s.withTree.succeeded)
    ∨ (alphabet s.freq = [] ∧ t = s.withoutTree.failed 0x02 0) := by
  rcases treeBody_cases s with ⟨hne, hb⟩ | ⟨he, hb⟩
  · exact .inl ⟨hne, by simpa [execTree, hb, eq_comm] using h⟩
  · refine .inr ⟨he, ?_⟩
    rw [execTree, hb, finish_raised, complete_error _ _ (by decide)] at h
    simpa [ErrorCode.number, eq_comm] using h

/-- The state a successful CODES leaves, before its completion. -/
def State.withCodes (s : State) : State := { s with code := codeTable s.nodes, codesValid := true }

theorem codesBody_cases (s : State) :
    (s.treeValid = true ∧ codesBody s = .ok s.withCodes)
    ∨ (s.treeValid = false ∧ codesBody s = .raised { s with codesValid := false } .noTree 0) := by
  cases h : s.treeValid
  · exact .inr ⟨rfl, by simp [codesBody, h]⟩
  · exact .inl ⟨rfl, by simp [codesBody, h, State.withCodes]⟩

theorem execCodes_next {s t : State} (h : execCodes s = .next t) :
    (s.treeValid = true ∧ t = s.withCodes.succeeded)
    ∨ (s.treeValid = false ∧ t = { s with codesValid := false }.failed 0x06 0) := by
  rcases codesBody_cases s with ⟨hv, hb⟩ | ⟨hv, hb⟩
  · exact .inl ⟨hv, by simpa [execCodes, hb, eq_comm] using h⟩
  · refine .inr ⟨hv, ?_⟩
    rw [execCodes, hb, finish_raised, complete_error _ _ (by decide)] at h
    simpa [ErrorCode.number, eq_comm] using h

/-- How BUILD's body ends (40_tree_builder.md R90). -/
theorem buildBody_cases (s : State) :
    (∃ bytes, s.InputIs bytes ∧ alphabet (countBytes bytes) ≠ []
      ∧ buildBody s = .ok { s with freq := countBytes bytes }.withTree.withCodes)
    ∨ (∃ bytes, s.InputIs bytes ∧ alphabet (countBytes bytes) = []
      ∧ buildBody s = .raised { s with freq := countBytes bytes }.withoutTree .emptyAlphabet 0)
    ∨ ∃ j, j < s.ibufLen ∧ s.ibuf.read j = none ∧ (∀ k, k < j → s.ibuf.read k ≠ none)
      ∧ buildBody s = .unwritten j := by
  rcases freqBody_cases s with ⟨bytes, hin, hb⟩ | ⟨j, hj, hnone, hbefore, hb⟩
  · rcases treeBody_cases { s with freq := countBytes bytes } with ⟨hne, ht⟩ | ⟨he, ht⟩
    · refine .inl ⟨bytes, hin, hne, ?_⟩
      rcases codesBody_cases { s with freq := countBytes bytes }.withTree with ⟨-, hc⟩ | ⟨hv, -⟩
      · simp [buildBody, hb, ht, hc]
      · simp [State.withTree] at hv
    · exact .inr (.inl ⟨bytes, hin, he, by simp [buildBody, hb, ht]⟩)
  · exact .inr (.inr ⟨j, hj, hnone, hbefore, by simp [buildBody, hb]⟩)

theorem execBuild_next {s t : State} (h : execBuild s = .next t) :
    ∃ bytes, s.InputIs bytes
      ∧ ((alphabet (countBytes bytes) ≠ []
          ∧ t = { s with freq := countBytes bytes }.withTree.withCodes.succeeded)
        ∨ (alphabet (countBytes bytes) = []
          ∧ t = { s with freq := countBytes bytes }.withoutTree.failed 0x02 0)) := by
  rcases buildBody_cases s with ⟨bytes, hin, hne, hb⟩ | ⟨bytes, hin, he, hb⟩ | ⟨j, -, -, -, hb⟩
  · exact ⟨bytes, hin, .inl ⟨hne, by simpa [execBuild, hb, eq_comm] using h⟩⟩
  · refine ⟨bytes, hin, .inr ⟨he, ?_⟩⟩
    rw [execBuild, hb, finish_raised, complete_error _ _ (by decide)] at h
    simpa [ErrorCode.number, eq_comm] using h
  · simp [execBuild, hb] at h

/-! ### ENCODE -/

/-- The loop of ENCODE raises only UNKNOWN_SYMBOL and BITBUF_OVERFLOW (42_encoder.md R98). -/
theorem encodeFrom_raised {m : Memory} {code : Table (List Bit)} {cap n i used : Nat} {e : ErrorCode}
    {pos : Nat} (h : encodeFrom m code cap n i used = .raised e pos) :
    (e = .unknownSymbol ∨ e = .bitbufOverflow) ∧ i ≤ pos ∧ pos < i + n := by
  induction n generalizing i used with
  | zero => simp [encodeFrom] at h
  | succ n ih =>
    rw [encodeFrom] at h
    split at h
    · simp at h
    · split at h
      · have : ErrorCode.unknownSymbol = e ∧ i = pos := by simpa using h
        exact ⟨.inl this.1.symm, by omega, by omega⟩
      · split at h
        · have : ErrorCode.bitbufOverflow = e ∧ i = pos := by simpa using h
          exact ⟨.inr this.1.symm, by omega, by omega⟩
        · obtain ⟨he, h1, h2⟩ := ih (Run.map_eq_raised h)
          exact ⟨he, by omega, by omega⟩

theorem encodeFrom_unwritten {m : Memory} {code : Table (List Bit)} {cap n i used j : Nat}
    (h : encodeFrom m code cap n i used = .unwritten j) : i ≤ j ∧ j < i + n ∧ m.read j = none := by
  induction n generalizing i used with
  | zero => simp [encodeFrom] at h
  | succ n ih =>
    rw [encodeFrom] at h
    split at h
    · next hn =>
      have : i = j := by simpa using h
      exact ⟨by omega, by omega, this ▸ hn⟩
    · split at h
      · simp at h
      · split at h
        · simp at h
        · obtain ⟨h1, h2, h3⟩ := ih (Run.map_eq_unwritten h)
          exact ⟨by omega, by omega, h3⟩

/-- The loop of ENCODE never gives more bits than the buffer holds (42_encoder.md R100). -/
theorem encodeFrom_length {m : Memory} {code : Table (List Bit)} {cap n i used : Nat} {bits : List Bit}
    (hused : used ≤ cap) (h : encodeFrom m code cap n i used = .ok bits) : used + bits.length ≤ cap := by
  induction n generalizing i used bits with
  | zero =>
    have : bits = [] := by simpa [encodeFrom, eq_comm] using h
    simpa [this] using hused
  | succ n ih =>
    rw [encodeFrom] at h
    split at h
    · simp at h
    · split at h
      · simp at h
      · split at h
        · simp at h
        · obtain ⟨rest, hrest, rfl⟩ := Run.map_eq_ok h
          have := ih (by omega) hrest
          simp only [List.length_append]
          omega

/-- The loop of ENCODE on written cells whose bytes have codes that fit: the codes in order, and then whatever
the rest of the loop gives (42_encoder.md R98). -/
theorem encodeFrom_append {m : Memory} {code : Table (List Bit)} {cap : Nat} (bytes : List Byte) (n i used : Nat)
    (hread : ∀ j, j < bytes.length → m.read (i + j) = bytes[j]?) (hcode : ∀ b ∈ bytes, code.get b ≠ [])
    (hfit : used + (codedBits code bytes).length ≤ cap) :
    encodeFrom m code cap (bytes.length + n) i used =
      (encodeFrom m code cap n (i + bytes.length) (used + (codedBits code bytes).length)).map
        (codedBits code bytes ++ ·) := by
  induction bytes generalizing i used with
  | nil =>
    simp only [codedBits, List.flatMap_nil, List.length_nil, Nat.zero_add, Nat.add_zero, List.nil_append]
    generalize encodeFrom m code cap n i used = r
    cases r <;> rfl
  | cons b bytes ih =>
    have h0 := hread 0 (by simp)
    simp only [Nat.add_zero, List.getElem?_cons_zero] at h0
    have hb : (code.get b).length ≠ 0 := by simpa using hcode b (by simp)
    have hlen : (codedBits code (b :: bytes)).length = (code.get b).length + (codedBits code bytes).length := by
      simp [codedBits]
    have hrest := ih (i + 1) (used + (code.get b).length)
      (fun j hj => by
        have := hread (j + 1) (by simpa using hj)
        simpa [Nat.add_assoc, Nat.add_comm 1 j] using this)
      (fun c hc => hcode c (List.mem_cons_of_mem _ hc)) (by omega)
    have hcap : ¬ cap < used + (code.get b).length := by omega
    rw [show (b :: bytes).length + n = bytes.length + n + 1 by simp; omega, encodeFrom, h0]
    simp only [hb, if_false, hcap]
    rw [hrest, show i + 1 + bytes.length = i + (b :: bytes).length by simp; omega,
      show used + (code.get b).length + (codedBits code bytes).length
        = used + (codedBits code (b :: bytes)).length by omega]
    generalize encodeFrom m code cap n (i + (b :: bytes).length) (used + (codedBits code (b :: bytes)).length) = r
    cases r <;> simp [codedBits]

theorem execEncode_next {s t : State} (h : execEncode s = .next t) :
    (s.codesValid = false ∧ t = { s with bitbuf := [] }.failed 0x07 0)
    ∨ (∃ bits, s.codesValid = true ∧ bits.length ≤ s.params.bitbufCap
        ∧ encodeFrom s.ibuf s.code s.params.bitbufCap s.ibufLen 0 0 = .ok bits
        ∧ t = { s with bitbuf := bits }.succeeded)
    ∨ ∃ pos, s.codesValid = true ∧ pos < s.ibufLen
        ∧ ((encodeFrom s.ibuf s.code s.params.bitbufCap s.ibufLen 0 0 = .raised .unknownSymbol pos
            ∧ t = { s with bitbuf := [] }.failed 0x03 pos)
          ∨ (encodeFrom s.ibuf s.code s.params.bitbufCap s.ibufLen 0 0 = .raised .bitbufOverflow pos
            ∧ t = { s with bitbuf := [] }.failed 0x08 pos)) := by
  rcases Bool.eq_false_or_eq_true s.codesValid with hv | hv
  · cases hr : encodeFrom s.ibuf s.code s.params.bitbufCap s.ibufLen 0 0 with
    | ok bits =>
      have hlen := encodeFrom_length (Nat.zero_le _) hr
      exact .inr (.inl ⟨bits, hv, by simpa using hlen, rfl,
        by simpa [execEncode, encodeBody, hv, hr, eq_comm] using h⟩)
    | unwritten j => simp [execEncode, encodeBody, hv, hr] at h
    | raised e pos =>
      obtain ⟨he, -, hpos⟩ := encodeFrom_raised hr
      have hb : encodeBody s = .raised { s with bitbuf := [] } e pos := by simp [encodeBody, hv, hr]
      refine .inr (.inr ⟨pos, hv, by simpa using hpos, ?_⟩)
      rcases he with rfl | rfl
      · rw [execEncode, hb, finish_raised, complete_error _ _ (by decide)] at h
        exact .inl ⟨rfl, by simpa [ErrorCode.number, eq_comm] using h⟩
      · rw [execEncode, hb, finish_raised, complete_error _ _ (by decide)] at h
        exact .inr ⟨rfl, by simpa [ErrorCode.number, eq_comm] using h⟩
  · have hb : encodeBody s = .raised { s with bitbuf := [] } .noCodes 0 := by simp [encodeBody, hv]
    rw [execEncode, hb, finish_raised, complete_error _ _ (by decide)] at h
    exact .inl ⟨hv, by simpa [ErrorCode.number, eq_comm] using h⟩

/-! ### PACK and UNPACK -/

theorem execPack_next {s t : State} (h : execPack s = .next t) :
    ((s.bitbuf.length + 7) / 8 ≤ s.params.obufCap ∧ t = { s with obuf := packBits s.bitbuf }.succeeded)
    ∨ (s.params.obufCap < (s.bitbuf.length + 7) / 8 ∧ t = { s with obuf := [] }.failed 0x09 0) := by
  by_cases hc : s.params.obufCap < ceilDiv8 s.bitbuf.length
  · have hb : packBody s = .raised { s with obuf := [] } .obufOverflow 0 := by simp [packBody, hc]
    rw [execPack, hb, finish_raised, complete_error _ _ (by decide)] at h
    exact .inr ⟨hc, by simpa [ErrorCode.number, eq_comm] using h⟩
  · exact .inl ⟨Nat.le_of_not_lt hc, by simpa [execPack, packBody, hc, eq_comm] using h⟩

/-- The loop of UNPACK never raises an error. -/
theorem unpackFrom_not_raised (m : Memory) (n i : Nat) (e : ErrorCode) (pos : Nat) :
    unpackFrom m n i ≠ .raised e pos := by
  induction n generalizing i with
  | zero => simp [unpackFrom]
  | succ n ih =>
    intro h
    rw [unpackFrom] at h
    split at h
    · simp at h
    · exact ih (i + 1) (Run.map_eq_raised h)

theorem unpackFrom_unwritten {m : Memory} {n i j : Nat} (h : unpackFrom m n i = .unwritten j) :
    (∃ k, i ≤ k ∧ k < i + n ∧ j = k / 8) ∧ m.read j = none := by
  induction n generalizing i with
  | zero => simp [unpackFrom] at h
  | succ n ih =>
    rw [unpackFrom] at h
    split at h
    · next hn =>
      have hj : i / 8 = j := by simpa using h
      exact ⟨⟨i, by omega, by omega, hj.symm⟩, hj ▸ hn⟩
    · obtain ⟨⟨k, h1, h2, h3⟩, h4⟩ := ih (Run.map_eq_unwritten h)
      exact ⟨⟨k, by omega, by omega, h3⟩, h4⟩

/-- The bits UNPACK gives: bit k is bit 7 − k mod 8 of cell k div 8 (44_bit_packer.md R111). -/
theorem unpackFrom_ok {m : Memory} {n i : Nat} {bits : List Bit} (h : unpackFrom m n i = .ok bits) :
    bits.length = n ∧ ∀ k, k < n → ∃ b, m.read ((i + k) / 8) = some b
      ∧ bits.getD k false = b.getLsbD (7 - (i + k) % 8) := by
  induction n generalizing i bits with
  | zero =>
    have : bits = [] := by simpa [unpackFrom, eq_comm] using h
    simp [this]
  | succ n ih =>
    rw [unpackFrom] at h
    split at h
    · simp at h
    · next b hb =>
      obtain ⟨rest, hrest, rfl⟩ := Run.map_eq_ok h
      obtain ⟨hlen, hbits⟩ := ih hrest
      refine ⟨by simp [hlen], ?_⟩
      intro k hk
      cases k with
      | zero => exact ⟨b, by simpa using hb, by simp [byteBit]⟩
      | succ k =>
        obtain ⟨c, hc, hv⟩ := hbits k (by omega)
        refine ⟨c, ?_, ?_⟩
        · simpa [Nat.add_assoc, Nat.add_comm 1 k] using hc
        · simpa [Nat.add_assoc, Nat.add_comm 1 k] using hv

/-- UNPACK over written cells succeeds. -/
theorem unpackFrom_written {m : Memory} (n i : Nat) (h : ∀ k, k < n → m.read ((i + k) / 8) ≠ none) :
    ∃ bits, unpackFrom m n i = .ok bits := by
  induction n generalizing i with
  | zero => exact ⟨[], rfl⟩
  | succ n ih =>
    obtain ⟨bits, hbits⟩ := ih (i + 1) (fun k hk => by
      have := h (k + 1) (by omega)
      simpa [Nat.add_assoc, Nat.add_comm 1 k] using this)
    cases hb : m.read (i / 8) with
    | none => exact absurd hb (by simpa using h 0 (by omega))
    | some b => exact ⟨byteBit b i :: bits, by simp [unpackFrom, hb, hbits]⟩

/-- UNPACK's common end. -/
theorem unpackBits_next {s t : State} {len : Nat} (h : finish (unpackBits s len) = .next t) :
    (s.params.bitbufCap < len ∧ t = s.failed 0x08 0)
    ∨ ∃ bits, len ≤ s.params.bitbufCap ∧ unpackFrom s.ibuf len 0 = .ok bits ∧ bits.length = len
        ∧ t = { s with bitbuf := bits }.succeeded := by
  by_cases hc : s.params.bitbufCap < len
  · have hb : unpackBits s len = .raised s .bitbufOverflow 0 := by simp [unpackBits, hc]
    rw [hb, finish_raised, complete_error _ _ (by decide)] at h
    exact .inl ⟨hc, by simpa [ErrorCode.number, eq_comm] using h⟩
  · cases hr : unpackFrom s.ibuf len 0 with
    | ok bits =>
      exact .inr ⟨bits, Nat.le_of_not_lt hc, rfl, (unpackFrom_ok hr).1,
        by simpa [unpackBits, hc, hr, eq_comm] using h⟩
    | raised e pos => exact absurd hr (unpackFrom_not_raised _ _ _ _ _)
    | unwritten j => simp [unpackBits, hc, hr] at h

theorem execUnpack_next {s t : State} (h : execUnpack s = .next t) :
    (s.params.bitbufCap < 8 * s.ibufLen ∧ t = { s with bitbuf := [] }.failed 0x08 0)
    ∨ ∃ bits, 8 * s.ibufLen ≤ s.params.bitbufCap ∧ unpackFrom s.ibuf (8 * s.ibufLen) 0 = .ok bits
        ∧ bits.length = 8 * s.ibufLen ∧ t = { s with bitbuf := bits }.succeeded :=
  unpackBits_next (s := { s with bitbuf := [] }) h

theorem execUnpackT_next {s t : State} (h : execUnpackT s = .next t) :
    (8 * s.ibufLen < s.arg.toNat ∧ t = { s with bitbuf := [] }.failed 0x0A 0)
    ∨ (s.arg.toNat ≤ 8 * s.ibufLen
      ∧ ((s.params.bitbufCap < s.arg.toNat ∧ t = { s with bitbuf := [] }.failed 0x08 0)
        ∨ ∃ bits, s.arg.toNat ≤ s.params.bitbufCap ∧ unpackFrom s.ibuf s.arg.toNat 0 = .ok bits
            ∧ bits.length = s.arg.toNat ∧ t = { s with bitbuf := bits }.succeeded)) := by
  by_cases hc : s.inputBits < s.argBits
  · have hb : unpackTrimBody s = .raised { s with bitbuf := [] } .badLength 0 := by simp [unpackTrimBody, hc]
    rw [execUnpackT, hb, finish_raised, complete_error _ _ (by decide)] at h
    exact .inl ⟨hc, by simpa [ErrorCode.number, eq_comm] using h⟩
  · refine .inr ⟨Nat.le_of_not_lt hc, ?_⟩
    have hb : unpackTrimBody s = unpackBits { s with bitbuf := [] } s.argBits := by simp [unpackTrimBody, hc]
    rw [execUnpackT, hb] at h
    exact unpackBits_next (s := { s with bitbuf := [] }) h

/-! ### DECODE -/

/-- The loop of DECODE in a tree raises only OBUF_OVERFLOW and TRUNCATED_STREAM (43_decoder.md R102). -/
theorem decodeTree_raised {nodes : List Node} {root cap i cur start count pos : Nat} {bits : List Bit}
    {e : ErrorCode} (h : decodeTree nodes root cap bits i cur start count = .raised e pos) :
    e = .obufOverflow ∨ e = .truncatedStream := by
  induction bits generalizing i cur start count with
  | nil =>
    rw [decodeTree] at h
    split at h
    · simp at h
    · have : ErrorCode.truncatedStream = e ∧ start = pos := by simpa using h
      exact .inr this.1.symm
  | cons b bits ih =>
    rw [decodeTree] at h
    split at h
    · split at h
      · have : ErrorCode.obufOverflow = e ∧ i = pos := by simpa using h
        exact .inl this.1.symm
      · exact ih (Run.map_eq_raised h)
    · exact ih h

theorem decodeTree_not_unwritten (nodes : List Node) (root cap : Nat) (bits : List Bit) (i cur start count j : Nat) :
    decodeTree nodes root cap bits i cur start count ≠ .unwritten j := by
  induction bits generalizing i cur start count with
  | nil => rw [decodeTree]; split <;> simp
  | cons b bits ih =>
    intro h
    rw [decodeTree] at h
    split at h
    · split at h
      · simp at h
      · exact ih _ _ _ _ (Run.map_eq_unwritten h)
    · exact ih _ _ _ _ h

/-- DECODE never gives more bytes than OBUF holds (43_decoder.md R106). -/
theorem decodeTree_length {nodes : List Node} {root cap i cur start count : Nat} {bits : List Bit}
    {bytes : List Byte} (hcount : count ≤ cap)
    (h : decodeTree nodes root cap bits i cur start count = .ok bytes) : count + bytes.length ≤ cap := by
  induction bits generalizing i cur start count bytes with
  | nil =>
    rw [decodeTree] at h
    split at h
    · have : bytes = [] := by simpa [eq_comm] using h
      simpa [this] using hcount
    · simp at h
  | cons b bits ih =>
    rw [decodeTree] at h
    split at h
    · split at h
      · simp at h
      · obtain ⟨rest, hrest, rfl⟩ := Run.map_eq_ok h
        have := ih (by omega) hrest
        simp only [List.length_cons]
        omega
    · exact ih hcount h

theorem decodeLeaf_raised {sym : Byte} {cap i count pos : Nat} {bits : List Bit} {e : ErrorCode}
    (h : decodeLeaf sym cap bits i count = .raised e pos) : e = .invalidCode ∨ e = .obufOverflow := by
  induction bits generalizing i count with
  | nil => simp [decodeLeaf] at h
  | cons b bits ih =>
    rw [decodeLeaf] at h
    split at h
    · have : ErrorCode.invalidCode = e ∧ i = pos := by simpa using h
      exact .inl this.1.symm
    · split at h
      · have : ErrorCode.obufOverflow = e ∧ i = pos := by simpa using h
        exact .inr this.1.symm
      · exact ih (Run.map_eq_raised h)

theorem decodeLeaf_not_unwritten (sym : Byte) (cap : Nat) (bits : List Bit) (i count j : Nat) :
    decodeLeaf sym cap bits i count ≠ .unwritten j := by
  induction bits generalizing i count with
  | nil => simp [decodeLeaf]
  | cons b bits ih =>
    intro h
    rw [decodeLeaf] at h
    split at h
    · simp at h
    · split at h
      · simp at h
      · exact ih _ _ (Run.map_eq_unwritten h)

theorem decodeLeaf_length {sym : Byte} {cap i count : Nat} {bits : List Bit} {bytes : List Byte}
    (hcount : count ≤ cap) (h : decodeLeaf sym cap bits i count = .ok bytes) : count + bytes.length ≤ cap := by
  induction bits generalizing i count bytes with
  | nil =>
    have : bytes = [] := by simpa [decodeLeaf, eq_comm] using h
    simpa [this] using hcount
  | cons b bits ih =>
    rw [decodeLeaf] at h
    split at h
    · simp at h
    · split at h
      · simp at h
      · obtain ⟨rest, hrest, rfl⟩ := Run.map_eq_ok h
        have := ih (by omega) hrest
        simp only [List.length_cons]
        omega

/-- Everything a DECODE over a whole sequence can do. -/
theorem decodeBits_cases (nodes : List Node) (cap : Nat) (bits : List Bit) :
    (∃ bytes, decodeBits nodes cap bits = .ok bytes ∧ bytes.length ≤ cap)
    ∨ ∃ e pos, decodeBits nodes cap bits = .raised e pos
      ∧ (e = .obufOverflow ∨ e = .truncatedStream ∨ e = .invalidCode) := by
  unfold decodeBits
  split
  · next sym _ =>
    cases hr : decodeLeaf sym cap bits 0 0 with
    | ok bytes => exact .inl ⟨bytes, rfl, by simpa using decodeLeaf_length (Nat.zero_le _) hr⟩
    | raised e pos =>
      rcases decodeLeaf_raised hr with h | h
      · exact .inr ⟨e, pos, rfl, .inr (.inr h)⟩
      · exact .inr ⟨e, pos, rfl, .inl h⟩
    | unwritten j => exact absurd hr (decodeLeaf_not_unwritten _ _ _ _ _ _)
  · cases hr : decodeTree nodes (rootHandle nodes) cap bits 0 (rootHandle nodes) 0 0 with
    | ok bytes => exact .inl ⟨bytes, rfl, by simpa using decodeTree_length (Nat.zero_le _) hr⟩
    | raised e pos =>
      rcases decodeTree_raised hr with h | h
      · exact .inr ⟨e, pos, rfl, .inl h⟩
      · exact .inr ⟨e, pos, rfl, .inr (.inl h)⟩
    | unwritten j => exact absurd hr (decodeTree_not_unwritten _ _ _ _ _ _ _ _ _)

theorem execDecode_next {s t : State} (h : execDecode s = .next t) :
    (s.treeValid = false ∧ t = { s with obuf := [] }.failed 0x06 0)
    ∨ (∃ bytes, s.treeValid = true ∧ bytes.length ≤ s.params.obufCap
        ∧ decodeBits s.nodes s.params.obufCap s.bitbuf = .ok bytes
        ∧ t = { s with obuf := bytes }.succeeded)
    ∨ ∃ e pos, s.treeValid = true ∧ (e = .obufOverflow ∨ e = .truncatedStream ∨ e = .invalidCode)
        ∧ decodeBits s.nodes s.params.obufCap s.bitbuf = .raised e pos
        ∧ t = { s with obuf := [] }.failed e.number pos := by
  rcases Bool.eq_false_or_eq_true s.treeValid with hv | hv
  · rcases decodeBits_cases s.nodes s.params.obufCap s.bitbuf with ⟨bytes, hr, hlen⟩ | ⟨e, pos, hr, he⟩
    · exact .inr (.inl ⟨bytes, hv, hlen, hr, by simpa [execDecode, decodeBody, hv, hr, eq_comm] using h⟩)
    · have hb : decodeBody s = .raised { s with obuf := [] } e pos := by simp [decodeBody, hv, hr]
      have hne : e ≠ .none := by rcases he with rfl | rfl | rfl <;> decide
      rw [execDecode, hb, finish_raised, complete_error _ _ hne] at h
      exact .inr (.inr ⟨e, pos, hv, he, hr, by simpa [eq_comm] using h⟩)
  · have hb : decodeBody s = .raised { s with obuf := [] } .noTree 0 := by simp [decodeBody, hv]
    rw [execDecode, hb, finish_raised, complete_error _ _ (by decide)] at h
    exact .inl ⟨hv, by simpa [ErrorCode.number, eq_comm] using h⟩

/-! ### CLEAR -/

/-- The state CLEAR leaves, before its completion (45_control.md R120). -/
def State.cleared (s : State) : State :=
  { s with
    freq := Table.all 0, code := Table.all [], nodes := [], treeValid := false, codesValid := false
    bitbuf := [], obuf := [], overrun := false }

theorem execClear_eq (s : State) : execClear s = .next s.cleared.succeeded := by
  simp [execClear, clearBody, State.cleared]

end Sys2Proof.Machine
end

