-- ==== Sys2Proof/Laws/Counts.lean ====
section
/-! SUPPORT. The counting pass of FREQ and the sum of its table (40_tree_builder.md R81–R83). -/

namespace Sys2Proof.Machine

theorem foldl_count_get (bytes : List Byte) (t : Table Word) (a : Byte) :
    (bytes.foldl (fun freq s => freq.set s (freq.get s + 1)) t).get a
      = t.get a + BitVec.ofNat 32 (bytes.count a) := by
  induction bytes generalizing t with
  | nil => simp
  | cons b bytes ih =>
    rw [List.foldl_cons, ih, Table.get_set, List.count_cons]
    by_cases h : a = b
    · subst h
      simp only [if_true, beq_self_eq_true]
      rw [BitVec.add_assoc, BitVec.ofNat_add, BitVec.add_comm 1]
      rfl
    · have h' : (b == a) = false := by simpa using Ne.symm h
      simp [h, h']

/-- Each entry is the number of times its symbol occurs, 32 bits (40_tree_builder.md R81). -/
theorem countBytes_get (bytes : List Byte) (a : Byte) :
    (countBytes bytes).get a = BitVec.ofNat 32 (bytes.count a) := by
  rw [countBytes, foldl_count_get, Table.get_all]
  simp

theorem countBytes_toNat {bytes : List Byte} (h : bytes.length < 2 ^ 32) (a : Byte) :
    ((countBytes bytes).get a).toNat = bytes.count a := by
  have := List.count_le_length (a := a) (l := bytes)
  rw [countBytes_get, BitVec.toNat_ofNat]
  exact Nat.mod_eq_of_lt (by omega)

theorem sum_count {l : List Byte} (hnodup : l.Nodup) (bytes : List Byte) (hmem : ∀ b ∈ bytes, b ∈ l) :
    (l.map (fun a => bytes.count a)).sum = bytes.length := by
  induction bytes with
  | nil => simp
  | cons b bytes ih =>
    have hb := hmem b (by simp)
    have hrest := ih (fun c hc => hmem c (List.mem_cons_of_mem _ hc))
    have hsplit : (l.map (fun a => (b :: bytes).count a)).sum
        = (l.map (fun a => bytes.count a)).sum + (l.map (fun a => if b = a then 1 else 0)).sum := by
      rw [← List.sum_map_add]
      congr 1
      refine List.map_congr_left (fun a _ => ?_)
      rw [List.count_cons]
      simp
    have hone : (l.map (fun a => if b = a then 1 else 0)).sum = 1 := by
      have : (l.map (fun a => if b = a then 1 else 0)).sum = l.count b := by
        clear hb hsplit hrest ih hmem hnodup
        induction l with
        | nil => rfl
        | cons c l ih =>
          rw [List.map_cons, List.sum_cons, ih, List.count_cons]
          by_cases h : b = c
          · simp [h, Nat.add_comm]
          · simp [h, Ne.symm h]
      rw [this, List.count_eq_one_of_mem hnodup hb]
    rw [hsplit, hone, hrest, List.length_cons]

/-- The counts of a buffer sum to its length (40_tree_builder.md R83). -/
theorem freqTotal_countBytes {bytes : List Byte} (h : bytes.length < 2 ^ 32) :
    freqTotal (countBytes bytes) = bytes.length := by
  have : (fun a => ((countBytes bytes).get a).toNat) = fun a => bytes.count a := by
    funext a
    exact countBytes_toNat h a
  rw [freqTotal, this, sum_count allSymbols_nodup bytes (fun b _ => mem_allSymbols b)]

@[simp] theorem freqTotal_zero : freqTotal (Table.all 0) = 0 := by
  simp [freqTotal]

/-- Which symbols a buffer's counts make the alphabet of. -/
theorem countBytes_ne_zero {bytes : List Byte} (h : bytes.length < 2 ^ 32) (a : Byte) :
    (countBytes bytes).get a ≠ 0 ↔ a ∈ bytes := by
  rw [← List.count_pos_iff, ← countBytes_toNat h a, Nat.pos_iff_ne_zero]
  exact not_congr ⟨fun e => by rw [e]; rfl, fun e => BitVec.eq_of_toNat_eq e⟩

/-- Counting depends only on how often each symbol occurs (40_tree_builder.md R92). -/
theorem countBytes_perm {bytes bytes' : List Byte} (h : bytes.Perm bytes') :
    countBytes bytes = countBytes bytes' := by
  apply Table.ext_get
  intro a
  rw [countBytes_get, countBytes_get, h.count_eq]

end Sys2Proof.Machine
end

