-- ==== Sys2Proof/Laws/Steps.lean ====
section
/-! SUPPORT. The moves of the two agents: what a step is for each head of the agenda, and what the perform step
is for each word (45_control.md R116, 20_memory.md R60). -/

namespace Sys2Proof.Machine

theorem step_empty {s : State} (h : s.agenda = []) : step s = blockTurn s := by
  simp [step, nextMove, h]

theorem step_cons {s : State} {t : Turn} {rest : List Turn} (h : s.agenda = t :: rest) :
    step s = takeTurn t { s with agenda := rest } := by
  simp [step, nextMove, h]

theorem blockTurn_idle {s : State} (h : s.pending = none) : blockTurn s = .next s := by
  simp [blockTurn, h]

theorem blockTurn_pending {s : State} {w : Word} (h : s.pending = some w) : blockTurn s = performWord w s := by
  simp [blockTurn, h]

theorem performWord_ok {w : Word} {i : Instr} (h : decode w = .ok i) (s : State) :
    performWord w s = exec i s := by
  simp [performWord, h]

theorem performWord_illegal {w : Word} {e : Illegal} (h : decode w = .error e) (s : State) :
    performWord w s = .next (s.failed 0x01 0) := by
  have : ErrorCode.illegalCmd ≠ .none := by decide
  simp [performWord, h, performIllegal, complete_error _ _ this, ErrorCode.number]

/-- Everything a block turn that goes on can be. -/
theorem blockTurn_next {s t : State} (h : blockTurn s = .next t) :
    (s.pending = none ∧ t = s)
    ∨ (∃ w i, s.pending = some w ∧ decode w = .ok i ∧ exec i s = .next t)
    ∨ ∃ w e, s.pending = some w ∧ decode w = .error e ∧ t = s.failed 0x01 0 := by
  cases hp : s.pending with
  | none =>
    rw [blockTurn_idle hp] at h
    exact .inl ⟨rfl, by simpa using h.symm⟩
  | some w =>
    rw [blockTurn_pending hp] at h
    cases hd : decode w with
    | ok i =>
      rw [performWord_ok hd] at h
      exact .inr (.inl ⟨w, i, rfl, hd, h⟩)
    | error e =>
      rw [performWord_illegal hd] at h
      exact .inr (.inr ⟨w, e, rfl, hd, by simpa using h.symm⟩)

/-- A word the host loads to be performed is performed by the next step. -/
theorem step_withCommand {s : State} {w : Word} : step (withCommand s w) = performWord w (withCommand s w) := by
  rw [step_empty rfl, blockTurn_pending rfl]

end Sys2Proof.Machine
end

