-- ==== Sys2Proof/Laws/PerInstr.lean ====
section
/-! SUPPORT. The statements about every instruction as syntax, one lemma for each constructor: family Encoding,
what an instruction's word looks like (30_encoding.md R67, R70). -/

namespace Sys2Proof.Laws.Encoding

/-- The word of `i` has its reserved field zero, its OP and T fields those of the opcode map, and T set only
with OP = 0x7; `i` is well-formed (30_encoding.md R67, R70). -/
def Statement (i : Instr) : Prop :=
  i.wellFormed = true
    ∧ reservedField (encode i) = 0
    ∧ opField (encode i) = opOf i
    ∧ (trimField (encode i) = true ↔ trimOf i = 1)
    ∧ (trimField (encode i) = true → opField (encode i) = 0x7)
    ∧ (encode i, i) ∈ Machine.opcodeMap

theorem freq : Statement .freq := by unfold Statement; decide

theorem tree : Statement .tree := by unfold Statement; decide

theorem codes : Statement .codes := by unfold Statement; decide

theorem build : Statement .build := by unfold Statement; decide

theorem encode : Statement .encode := by unfold Statement; decide

theorem pack : Statement .pack := by unfold Statement; decide

theorem unpack : Statement .unpack := by unfold Statement; decide

theorem unpackT : Statement .unpackT := by unfold Statement; decide

theorem decode : Statement .decode := by unfold Statement; decide

theorem clear : Statement .clear := by unfold Statement; decide

end Sys2Proof.Laws.Encoding
end

