-- ==== Sys2Proof/Laws/Script.lean ====
section
/-! SUPPORT. The host's run of a script: how parts of a run follow each other, and what a slot that holds an
access, a `wait` or nothing leaves (20_memory.md R60, 45_control.md R124). -/

namespace Sys2Proof.Machine

@[simp] theorem HostRun.andThen_next (s : State) (slots : Slots) (f : State → Slots → HostRun) :
    HostRun.andThen (.next (s, slots)) f = f s slots := rfl
@[simp] theorem HostRun.andThen_fault (e : Fault) (f : State → Slots → HostRun) :
    HostRun.andThen (.fault e) f = .fault e := rfl
@[simp] theorem HostRun.andThen_refused (r : Refusal) (f : State → Slots → HostRun) :
    HostRun.andThen (.refused r) f = .refused r := rfl

/-- A run of two parts goes on exactly when both do. -/
theorem HostRun.andThen_eq_next {r : HostRun} {f : State → Slots → HostRun} {x : State × Slots} :
    r.andThen f = .next x ↔ ∃ s slots, r = .next (s, slots) ∧ f s slots = .next x := by
  rcases r with ⟨s, slots⟩ | e | e <;> simp [HostRun.andThen]

@[simp] theorem runScript_nil (s : State) (slots : Slots) : runScript [] s slots = runSlot [] s slots := rfl

@[simp] theorem runScript_cons (st : Stmt) (script : List Stmt) (s : State) (slots : Slots) :
    runScript (st :: script) s slots = (runStmt st s slots).andThen (runScript script) := rfl

/-! ### The block's turn among the host's -/

/-- A command leaves the host's turns as they are and nothing pending (45_control.md R116, R117). -/
theorem exec_agenda_pending {i : Instr} {s t : State} (h : exec i s = .next t) :
    t.agenda = s.agenda ∧ t.pending = none := by
  cases i with
  | freq => obtain ⟨_, -, rfl⟩ := execFreq_next h; exact ⟨rfl, rfl⟩
  | tree => rcases execTree_next h with ⟨-, rfl⟩ | ⟨-, rfl⟩ <;> exact ⟨rfl, rfl⟩
  | codes => rcases execCodes_next h with ⟨-, rfl⟩ | ⟨-, rfl⟩ <;> exact ⟨rfl, rfl⟩
  | build => obtain ⟨_, -, ⟨-, rfl⟩ | ⟨-, rfl⟩⟩ := execBuild_next h <;> exact ⟨rfl, rfl⟩
  | encode =>
    rcases execEncode_next h with ⟨-, rfl⟩ | ⟨_, -, -, -, rfl⟩ | ⟨_, -, -, ⟨-, rfl⟩ | ⟨-, rfl⟩⟩ <;> exact ⟨rfl, rfl⟩
  | pack => rcases execPack_next h with ⟨-, rfl⟩ | ⟨-, rfl⟩ <;> exact ⟨rfl, rfl⟩
  | unpack => rcases execUnpack_next h with ⟨-, rfl⟩ | ⟨_, -, -, -, rfl⟩ <;> exact ⟨rfl, rfl⟩
  | unpackT =>
    rcases execUnpackT_next h with ⟨-, rfl⟩ | ⟨-, ⟨-, rfl⟩ | ⟨_, -, -, -, rfl⟩⟩ <;> exact ⟨rfl, rfl⟩
  | decode =>
    rcases execDecode_next h with ⟨-, rfl⟩ | ⟨_, -, -, -, rfl⟩ | ⟨_, _, -, -, -, rfl⟩ <;> exact ⟨rfl, rfl⟩
  | clear =>
    have h' : execClear s = .next t := h
    rw [execClear_eq] at h'
    cases h'
    exact ⟨rfl, rfl⟩

/-- The block's turn leaves the host's turns as they are and nothing pending. -/
theorem blockTurn_agenda_pending {s t : State} (h : blockTurn s = .next t) :
    t.agenda = s.agenda ∧ t.pending = none := by
  rcases blockTurn_next h with ⟨hp, rfl⟩ | ⟨_, _, -, -, he⟩ | ⟨_, _, -, -, rfl⟩
  · exact ⟨rfl, hp⟩
  · exact exec_agenda_pending he
  · exact ⟨rfl, rfl⟩

/-- One step of `drain` that goes on. -/
theorem drain_cons_next {n : Nat} {s t : State} {turn : Turn} {rest : List Turn} (ha : s.agenda = turn :: rest)
    (h : drain (n + 1) s = .next t) :
    ∃ u, takeTurn turn { s with agenda := rest } = .next u ∧ drain n u = .next t := by
  rw [drain, ha] at h
  simp only [step_cons ha] at h
  cases hu : takeTurn turn { s with agenda := rest } with
  | next u => exact ⟨u, rfl, by simpa [hu] using h⟩
  | fault e => simp [hu] at h
  | refused r => simp [hu] at h

theorem drain_empty {n : Nat} {s : State} (h : s.agenda = []) : drain n s = .next s := by
  cases n <;> simp [drain, h]

/-- A slot that goes on gives one entry of `slots` up. -/
theorem runSlot_next {turns : List Turn} {s t : State} {slots slots' : Slots}
    (h : runSlot turns s slots = .next (t, slots')) :
    slots' = slots.tail
    ∧ drain 2 { s with agenda := (if slots.headD false then [.block] else []) ++ turns } = .next t := by
  simp only [runSlot] at h
  split at h
  · next hd => cases h; exact ⟨rfl, hd⟩
  · cases h
  · cases h

/-- The slot after the last statement gives the block its turn or nothing: with no command pending the block's
state stays. -/
theorem runSlot_nil_idle {s t : State} {slots slots' : Slots} (hp : s.pending = none)
    (h : runSlot [] s slots = .next (t, slots')) : t = { s with agenda := [] } := by
  obtain ⟨-, h⟩ := runSlot_next h
  have idle : ∀ {n : Nat} {u : State}, u.agenda = [] → drain n u = .next t → t = u := fun hu hd => by
    rw [drain_empty hu] at hd
    cases hd
    rfl
  cases hb : slots.headD false <;> simp only [hb, Bool.false_eq_true, if_false, if_true] at h
  · exact idle (by rfl) h
  · obtain ⟨u, hu, hd⟩ := drain_cons_next (turn := .block) (rest := []) rfl h
    rw [takeTurn, blockTurn_idle (by exact hp)] at hu
    cases hu
    exact idle (by rfl) hd

/-- The STATUS read that ends a `wait`. -/
theorem drain_wait_idle {n : Nat} {s t : State} (ha : s.agenda = [.wait]) (hp : s.pending = none)
    (h : drain (n + 1) s = .next t) : t.pending = none := by
  obtain ⟨u, hu, hd⟩ := drain_cons_next ha h
  have hbusy : { s with agenda := [] }.busy = false := by simp [State.busy, hp]
  simp only [takeTurn, waitTurn, hbusy, Bool.false_eq_true, if_false] at hu
  obtain ⟨-, rfl⟩ := readTurn_next hu
  rw [drain_empty rfl] at hd
  cases hd
  exact hp

/-- A `wait` that comes to its end leaves nothing pending (30_encoding.md R78). -/
theorem runSlot_wait_pending {s t : State} {slots slots' : Slots}
    (h : runSlot [.wait] s slots = .next (t, slots')) : t.pending = none := by
  obtain ⟨-, h⟩ := runSlot_next h
  cases hb : slots.headD false <;> simp only [hb, Bool.false_eq_true, if_false, if_true] at h
  · cases hp : s.pending with
    | none => exact drain_wait_idle (by rfl) (by exact hp) h
    | some w =>
      obtain ⟨u, hu, hd⟩ := drain_cons_next (turn := .wait) (rest := []) rfl h
      have hbusy : { s with agenda := [] }.busy = true := by simp [State.busy, hp]
      simp only [takeTurn, waitTurn, hbusy, if_true] at hu
      obtain ⟨ha, hq⟩ := blockTurn_agenda_pending hu
      exact drain_wait_idle ha hq hd
  · obtain ⟨u, hu, hd⟩ := drain_cons_next (turn := .block) (rest := [.wait]) rfl h
    obtain ⟨ha, hq⟩ := blockTurn_agenda_pending hu
    exact drain_wait_idle ha hq hd

end Sys2Proof.Machine
end

