-- ==== Sys2Proof/Tests/Slice0.lean ====
section
/-! SUPPORT. The model's own tests. The expected values come from the spec: its encodings, its examples and the
vectors of 95_test_vectors.md. Then, for each statement with hypotheses, a witness that meets them. -/

namespace Sys2Proof.Tests

open Sys2Proof.Machine

/-! ### Small states -/

/-- Reset, then `bytes` written from cell 0 on and IBUF_LEN their number. -/
def holding (bytes : List Byte) : State :=
  { State.reset with ibuf := (List.range bytes.length).zip bytes, ibufLen := bytes.length }

/-- "abracadabra" -/
def abra : List Byte := [0x61, 0x62, 0x72, 0x61, 0x63, 0x61, 0x64, 0x61, 0x62, 0x72, 0x61]

/-- The tree of the example in 40_tree_builder.md R85. -/
def abraTree : List Node :=
  [.leaf 0x61 5, .leaf 0x62 2, .leaf 0x63 1, .leaf 0x64 1, .leaf 0x72 2,
   .internal 2 2 3, .internal 4 1 4, .internal 6 5 6, .internal 11 0 7]

/-- The code table of the example in 41_code_generator.md R93. -/
def abraCode : Table (List Bit) :=
  (((((Table.all []).set 0x61 [false]).set 0x63 [true, false, false]).set 0x64 [true, false, true]).set
    0x62 [true, true, false]).set 0x72 [true, true, true]

/-- The 23 bits of V-ENC-1. -/
def abraBits : List Bit :=
  [false, true, true, false, true, true, true, false, true, false, false, false, true, false, true, false,
   true, true, false, true, true, true, false]

/-- The "abracadabra" tree and codes in place, with its bits in BITBUF. -/
def abraBuilt : State :=
  { holding abra with
    nodes := abraTree, treeValid := true, code := abraCode, codesValid := true, bitbuf := abraBits }

/-- `bytes` loaded and counted, with a tree and its codes in place. -/
def built (bytes : List Byte) (nodes : List Node) (code : Table (List Bit)) : State :=
  { holding bytes with
    freq := countBytes bytes, nodes := nodes, treeValid := true, code := code, codesValid := true }

/-- The tree of "ab" (V-TREE-9). -/
def abTree : List Node := [.leaf 0x61 1, .leaf 0x62 1, .internal 2 0 1]

/-- "ab": a is `0`, b is `1` (V-ENC-11). -/
def ab : State := built [0x61, 0x62] abTree (((Table.all []).set 0x61 [false]).set 0x62 [true])

/-- The tree of "abcc" (V-TREE-2). -/
def abccTree : List Node :=
  [.leaf 0x61 1, .leaf 0x62 1, .leaf 0x63 2, .internal 2 0 1, .internal 4 2 3]

/-- "abcc": c is `0`, a is `10`, b is `11` (41_code_generator.md R96). -/
def abcc : State :=
  built [0x61, 0x62, 0x63, 0x63] abccTree
    ((((Table.all []).set 0x63 [false]).set 0x61 [true, false]).set 0x62 [true, true])

/-- "aaaa": one Leaf (V-TREE-5), and a is `0` (V-CODES-2). -/
def aaaa : State := built [0x61, 0x61, 0x61, 0x61] [.leaf 0x61 4] ((Table.all []).set 0x61 [false])

/-- Reset with buffers of 16 bytes and of 128 bits. -/
def small : State := { State.reset with params := { ibufCap := 16, obufCap := 16, bitbufCap := 128 } }

/-- A command word is pending. -/
def busyWith (w : Word) (s : State) : State := { s with pending := some w }

/-! ### Decoding: words written bit by bit from 30_encoding.md R67 and R70 -/

theorem test_decode_freq : decode 0b00000000000000000000000000000001#32 = .ok .freq := by decide
theorem test_decode_tree : decode 0b00000000000000000000000000000010#32 = .ok .tree := by decide
theorem test_decode_codes : decode 0b00000000000000000000000000000011#32 = .ok .codes := by decide
theorem test_decode_build : decode 0b00000000000000000000000000000100#32 = .ok .build := by decide
theorem test_decode_encode : decode 0b00000000000000000000000000000101#32 = .ok .encode := by decide
theorem test_decode_pack : decode 0b00000000000000000000000000000110#32 = .ok .pack := by decide
theorem test_decode_unpack : decode 0b00000000000000000000000000000111#32 = .ok .unpack := by decide
theorem test_decode_unpackT : decode 0b00000000000000000000000000010111#32 = .ok .unpackT := by decide
theorem test_decode_decode : decode 0b00000000000000000000000000001000#32 = .ok .decode := by decide
theorem test_decode_clear : decode 0b00000000000000000000000000001001#32 = .ok .clear := by decide

/-- The illegal words of 95_test_vectors.md, with the item of 30_encoding.md R72 that makes them so. -/
theorem test_decode_illegal :
    decode 0x00000000 = .error .opcode ∧ decode 0x0000000A = .error .opcode
      ∧ decode 0x0000000F = .error .opcode ∧ decode 0x00000011 = .error .trimFlag
      ∧ decode 0x00000027 = .error .reservedBits ∧ decode 0x00000101 = .error .reservedBits
      ∧ decode 0x80000004 = .error .reservedBits := by decide

theorem test_decodeTableWord :
    decodeTableWord 32 0x17 = some .unpackT ∧ decodeTableWord 32 0x11 = none
      ∧ decodeTableWord 32 (2 ^ 32 + 1) = none := by decide

/-- A table word is performed as the first command after reset: CLEAR sets DONE (V-CLR-2). -/
theorem test_fetchWord :
    (nextOf (step (State.reset.withFetchWord 32 0x9))).map (fun t => (t.statusIdle, t.pending)) =
      some (0x00000002, none) := by decide +kernel

/-! ### Well-formedness: the defaults pass and each check refuses an ill-formed term -/

theorem test_params_defaults : Config.Params.defaults.wellFormed = true := by decide

theorem test_params_illFormed :
    ∀ p ∈ ([⟨0, 1, 8⟩, ⟨2 ^ 20 + 1, 1, 8⟩, ⟨1, 0, 8⟩, ⟨1, 2 ^ 20 + 1, 8⟩, ⟨1, 1, 0⟩, ⟨1, 1, 2 ^ 23 + 8⟩, ⟨1, 1, 23⟩] :
      List Config.Params), p.wellFormed = false := by decide

theorem test_instr_wellFormed : ∀ row ∈ opcodeMap, row.2.wellFormed = true := by decide

theorem test_stmt_illFormed :
    Stmt.wellFormed small.params (.load (List.replicate 17 0)) = false
      ∧ Stmt.wellFormed small.params (.load (List.replicate 16 0)) = true
      ∧ Stmt.wellFormed small.params (.wr (.ibuf (2 ^ 20)) 0) = false
      ∧ Stmt.wellFormed small.params (.wrh (.ibuf (2 ^ 20)) 0) = false
      ∧ Stmt.wellFormed small.params (.wrb (.ibuf (2 ^ 20)) 0) = false
      ∧ Stmt.wellFormed small.params (.rd (.obuf (2 ^ 20))) = false
      ∧ Stmt.wellFormed small.params (.rdh (.obuf (2 ^ 20))) = false
      ∧ Stmt.wellFormed small.params (.rdb (.bitbuf (2 ^ 20))) = false := by decide

/-- V-BUS-11, V-BUS-12 and the aligned neighbours of both. -/
theorem test_access_wellFormed :
    accessWellFormed 0x100001 .half = false ∧ accessWellFormed 0x000004 .byte = false
      ∧ accessWellFormed 0x0FFFFE .half = false ∧ accessWellFormed 0x100002 .word = false
      ∧ accessWellFormed 0x100002 .half = true ∧ accessWellFormed 0x000004 .word = true
      ∧ accessWellFormed 0xFFFFFF .byte = true := by decide

/-! ### One step of each command -/

/-- V-FREQ-1. -/
theorem test_freq :
    (nextOf (exec .freq (holding abra))).map (fun t =>
      (t.statusIdle, t.freq.get 0x61, t.freq.get 0x62, t.freq.get 0x63, t.freq.get 0x7A)) =
      some (0x00000002, 5, 2, 1, 0) := by decide +kernel

/-- V-FREQ-5: only cell 0 of two is written. -/
theorem test_freq_unwritten :
    exec .freq { holding [0x61] with ibufLen := 2 } = .fault (.unwrittenInput 1) := by rfl

/-- V-TREE-1. -/
theorem test_tree :
    (nextOf (exec .tree { State.reset with freq := countBytes abra })).map (fun t =>
      (t.statusIdle, t.nodes, t.rootWeight)) = some (0x0000000A, abraTree, 11) := by decide +kernel

/-- V-TREE-2: in a tie of weights the Leaf c goes before the Internal node. -/
theorem test_tree_tie : buildTree (countBytes [0x61, 0x62, 0x63, 0x63]) = abccTree := by decide +kernel

/-- V-CODES-1. -/
theorem test_codes :
    (nextOf (exec .codes { State.reset with nodes := abraTree, treeValid := true })).map (fun t =>
      (t.statusIdle, t.code.get 0x61, t.code.get 0x63, t.code.get 0x62, t.code.get 0x7A)) =
      some (0x0000001A, [false], [true, false, false], [true, true, false], []) := by decide +kernel

/-- V-CODES-3. -/
theorem test_codes_noTree :
    (nextOf (exec .codes State.reset)).map (fun t => (t.statusIdle, t.errpos)) = some (0x00000606, 0) := by
  decide +kernel

/-- V-BUILD-1. -/
theorem test_build :
    (nextOf (exec .build (holding abra))).map (fun t => (t.statusIdle, t.nodes, t.code.get 0x72)) =
      some (0x0000001A, abraTree, [true, true, true]) := by decide +kernel

/-- V-BUILD-2. -/
theorem test_build_empty :
    (nextOf (exec .build State.reset)).map (fun t => (t.statusIdle, t.errpos, t.nodes)) =
      some (0x00000206, 0, []) := by decide +kernel

/-- V-ENC-1. -/
theorem test_encode :
    (nextOf (exec .encode { abraBuilt with bitbuf := [true] })).map (fun t => (t.statusIdle, t.bitbuf)) =
      some (0x0000001A, abraBits) := by decide +kernel

/-- V-ENC-2. -/
theorem test_encode_unknown :
    (nextOf (exec .encode { holding [0x61, 0x62, 0x7A] with code := abraCode, codesValid := true })).map
      (fun t => (t.errcode, t.errpos, t.bitbuf)) = some (0x03, 2, []) := by decide +kernel

/-- V-PACK-1. -/
theorem test_pack :
    (nextOf (exec .pack { State.reset with bitbuf := abraBits })).map (fun t => (t.statusIdle, t.obuf)) =
      some (0x00000002, [0x6E, 0x8A, 0xDC]) := by decide +kernel

/-- V-PACK-10. -/
theorem test_pack_overflow :
    (nextOf (exec .pack { small with
      params := { small.params with obufCap := 2 }, bitbuf := abraBits, obuf := [1] })).map
      (fun t => (t.errcode, t.errpos, t.obuf)) = some (0x09, 0, []) := by decide +kernel

/-- V-UNP-1. -/
theorem test_unpack :
    (nextOf (exec .unpack (holding [0x6E, 0x8A, 0xDC]))).map (fun t => t.bitbuf) = some (abraBits ++ [false]) := by
  decide +kernel

/-- V-UNP-13. -/
theorem test_unpack_unwritten :
    exec .unpack { State.reset with ibufLen := 1 } = .fault (.unwrittenInput 0) := by rfl

/-- V-UNP-4. -/
theorem test_unpackT :
    (nextOf (exec .unpackT { holding [0xA5] with arg := 3 })).map (fun t => t.bitbuf) =
      some [true, false, true] := by decide +kernel

/-- V-UNP-8: ARG is compared as an unsigned number. -/
theorem test_unpackT_badLength :
    (nextOf (exec .unpackT { holding [0xA5] with arg := 0xFFFFFFFF })).map (fun t => (t.statusIdle, t.bitbuf)) =
      some (0x00000A06, []) := by decide +kernel

/-- V-DEC-1. -/
theorem test_decode_bits :
    (nextOf (exec .decode abraBuilt)).map (fun t => (t.statusIdle, t.obuf)) = some (0x0000001A, abra) := by
  decide +kernel

/-- V-DEC-10: the bit that completes the eleventh symbol is bit 22. -/
theorem test_decode_overflow :
    (nextOf (exec .decode { abraBuilt with params := { small.params with obufCap := 10 } })).map
      (fun t => (t.statusIdle, t.errpos, t.obuf)) = some (0x0000091E, 22, []) := by decide +kernel

/-- V-CLR-1 and V-CLR-3. -/
theorem test_clear :
    (nextOf (exec .clear { abraBuilt with obuf := abra, arg := 23, overrun := true })).map (fun t =>
      (t.statusIdle, t.nodes, t.obuf, t.ibufLen, t.arg, t.busRead 0x100000 .word)) =
      some (0x00000002, [], [], 11, 23, 0x61726261) := by decide +kernel

/-! ### One step of the bus -/

/-- V-BUS-4: the word 0x64636261 written to 0x100000 is the bytes a, b, c, d, in that order. -/
theorem test_bus_littleEndian :
    ((State.reset.busWrite 0x100000 .word 0x64636261).busRead 0x100000 .byte,
      (State.reset.busWrite 0x100000 .word 0x64636261).busRead 0x100003 .byte,
      (State.reset.busWrite 0x100000 .word 0x64636261).busRead 0x100002 .half) = (0x61, 0x64, 0x6463) := by
  decide +kernel

/-- V-BUS-3 and V-BUS-7. -/
theorem test_bus_registers :
    (State.reset.busWrite 0x000010 .word 0xFFFFFFFF).busRead 0x000010 .word = 0x00100000
      ∧ State.reset.busWrite 0x000018 .word 5 = State.reset := ⟨by decide +kernel, rfl⟩

/-- V-BUS-9, its first state: two writes while BUSY. -/
theorem test_bus_busy :
    (busyWith 0x4 (holding [0x61])).busWrite 0x000000 .word 0x5 =
        { busyWith 0x4 (holding [0x61]) with overrun := true }
      ∧ (busyWith 0x4 (holding [0x61])).busWrite 0x000010 .word 1 = busyWith 0x4 (holding [0x61]) :=
  ⟨rfl, rfl⟩

/-- The windows of V-TREE-1, V-CODES-1, V-ENC-1 and V-BUS-14 at one word each. -/
theorem test_bus_windows :
    abraBuilt.busRead 0x001004 .word = 0x80000061 ∧ abraBuilt.busRead 0x001044 .word = 0x00070000
      ∧ abraBuilt.busRead 0x002C60 .word = 0x00000080 ∧ abraBuilt.busRead 0x002E40 .word = 0x000000E0
      ∧ abraBuilt.busRead 0x300000 .word = 0x00DC8A6E
      ∧ { abraBuilt with obuf := abra }.busRead 0x200008 .word = 0x00617262 := by decide +kernel

/-- V-BUS-11: the machine refuses a misaligned access. -/
theorem test_bus_illFormed :
    step { State.reset with agenda := [.read 0x100001 .half] } = .refused (.illFormedAccess 0x100001 .half) := by
  rfl

/-! ### What the witnesses are made of -/

/-- The next state of a command, or the state itself where there is none. -/
def after (i : Instr) (s : State) : State := (nextOf (exec i s)).getD s

theorem exec_after {i : Instr} {s : State} (h : (nextOf (exec i s)).isSome = true) :
    exec i s = .next (after i s) := by
  unfold after
  cases he : exec i s <;> simp_all [nextOf]

theorem zip_read (bytes : List Byte) (k i : Nat) :
    Memory.read ((List.range' k bytes.length).zip bytes) (k + i) = bytes[i]? := by
  induction bytes generalizing k i with
  | nil => simp [Memory.read]
  | cons b bytes ih =>
    simp only [List.length_cons, List.range'_succ, List.zip_cons_cons, Memory.read]
    cases i with
    | zero => simp
    | succ i =>
      have := ih (k + 1) i
      simpa [Nat.add_assoc, Nat.add_comm 1 i] using this

theorem holding_inputIs (bytes : List Byte) : (holding bytes).InputIs bytes :=
  ⟨rfl, fun i _ => by simpa [List.range_eq_range', holding] using zip_read bytes 0 i⟩

theorem zip_cells (bytes : List Byte) : ∀ c ∈ (List.range bytes.length).zip bytes, c.1 < bytes.length :=
  fun c hc => List.mem_range.1 (List.of_mem_zip (a := c.1) (b := c.2) hc).1

theorem zip_wf (bytes : List Byte) : Memory.wf ((List.range bytes.length).zip bytes) := by
  have h : ((List.range bytes.length).zip bytes).map Prod.fst = List.range bytes.length := by
    rw [List.map_fst_zip]; simp
  have hp := List.pairwise_lt_range (n := bytes.length)
  rw [← h, List.pairwise_map] at hp
  exact hp

/-- A block with nothing in it but written cells, IBUF_LEN, ARG, bits and any well-formed capacities. -/
theorem fresh_inv {p : Config.Params} (hp : p.wellFormed = true) {n : Nat} (hn : n ≤ p.ibufCap) (arg : Word)
    {bits : List Bit} (hb : bits.length ≤ p.bitbufCap) :
    Inv { State.reset with params := p, ibufLen := n, arg := arg, bitbuf := bits } where
  params := hp
  ibufLen := hn
  ibufForm := List.Pairwise.nil
  ibufCells := fun c hc => absurd hc List.not_mem_nil
  counts := by
    have : freqTotal State.reset.freq = 0 := freqTotal_zero
    show freqTotal State.reset.freq ≤ _
    omega
  weights := fun h => by simp [State.reset, weightOf]
  bitbuf := hb
  obuf := Nat.zero_le _
  codeLen := fun a => by
    have : State.reset.code.get a = [] := Table.get_all [] a
    simp [this]
  tree := fun h => absurd h (by simp [State.reset])
  noTree := fun _ => rfl
  codesNeedTree := fun h => absurd h (by simp [State.reset])
  codes := fun h => absurd h (by simp [State.reset])
  noCodes := fun _ a => Table.get_all [] a
  errFlag := rfl
  errcode := by simp [State.reset]
  errpos := fun _ => rfl
  notDone := fun _ => rfl
  busy := fun h => absurd h (by simp [State.reset])

theorem small_inv : Inv small := fresh_inv (by decide) (Nat.zero_le _) 0 (Nat.zero_le _)

theorem alphabet_countBytes {bytes : List Byte} (hne : bytes ≠ []) (hlen : bytes.length ≤ 2 ^ 20) :
    alphabet (countBytes bytes) ≠ [] := by
  obtain ⟨b, rest, rfl⟩ := List.exists_cons_of_ne_nil hne
  exact List.ne_nil_of_mem ((mem_alphabet _ b).2 ((countBytes_ne_zero (by omega) b).2 (by simp)))

/-- A loaded input with the tree and the codes that the model builds from it. -/
theorem built_inv {bytes : List Byte} {nodes : List Node} {code : Table (List Bit)} (hne : bytes ≠ [])
    (hlen : bytes.length ≤ 2 ^ 20) (hnodes : buildTree (countBytes bytes) = nodes)
    (hcode : codeTable nodes = code) : Inv (built bytes nodes code) := by
  have hsum : freqTotal (countBytes bytes) = bytes.length := freqTotal_countBytes (by omega)
  have hwrap : freqTotal (countBytes bytes) < 2 ^ 32 := by omega
  have halpha := alphabet_countBytes hne hlen
  subst hnodes hcode
  exact
    { params := by show Config.Params.defaults.wellFormed = true; decide
      ibufLen := hlen
      ibufForm := zip_wf bytes
      ibufCells := fun c hc => Nat.lt_of_lt_of_le (zip_cells bytes c hc) hlen
      counts := by show freqTotal (countBytes bytes) ≤ 2 ^ 20; omega
      weights := fun h => by
        obtain ⟨root, inv, -⟩ := buildTree_merging halpha hwrap
        have := inv.bounded h
        show weightOf (buildTree (countBytes bytes)) h ≤ 2 ^ 20
        omega
      bitbuf := Nat.zero_le _
      obuf := Nat.zero_le _
      codeLen := codeTable_length _
      tree := fun _ => buildTree_shape halpha hwrap
      noTree := fun h => absurd h (by simp [built])
      codesNeedTree := fun _ => rfl
      codes := fun _ => rfl
      noCodes := fun h => absurd h (by simp [built])
      errFlag := rfl
      errcode := by simp [built, holding, State.reset]
      errpos := fun _ => rfl
      notDone := fun _ => rfl
      busy := fun h => absurd h (by simp [built, holding, State.reset]) }

theorem ab_build : buildTree (countBytes [0x61, 0x62]) = abTree := by decide +kernel
theorem aaaa_build : buildTree (countBytes [0x61, 0x61, 0x61, 0x61]) = [.leaf 0x61 4] := by decide +kernel

theorem ab_table : codeTable abTree = ab.code := by
  simp [codeTable, walk, leafSym, rootHandle, abTree, Config.maxCodeLen, ab, built]

theorem abcc_table : codeTable abccTree = abcc.code := by
  simp [codeTable, walk, leafSym, rootHandle, abccTree, Config.maxCodeLen, abcc, built]

theorem ab_inv : Inv ab := built_inv (by decide) (by decide) ab_build ab_table
theorem abcc_inv : Inv abcc := built_inv (by decide) (by decide) test_tree_tie abcc_table
theorem aaaa_inv : Inv aaaa :=
  built_inv (by decide) (by decide) aaaa_build (by simp [codeTable, leafSym, rootHandle])

theorem ab_shape : TreeShape ab.nodes := ab_inv.tree rfl
theorem abcc_shape : TreeShape abcc.nodes := abcc_inv.tree rfl
theorem aaaa_shape : TreeShape aaaa.nodes := aaaa_inv.tree rfl

theorem ab_coded : ∀ b ∈ ([0x61, 0x62] : List Byte), ab.code.get b ≠ [] := by decide

theorem ab_bits_a : codedBits ab.code [0x61] = [false] := rfl

theorem ab_bits_ab : codedBits ab.code [0x61, 0x62] = [false, true] := rfl

/-- CODES with a tree succeeds. -/
theorem codes_ok {s : State} (h : s.treeValid = true) : exec .codes s = .next s.withCodes.succeeded := by
  rcases codesBody_cases s with ⟨-, hb⟩ | ⟨hf, -⟩
  · show finish (codesBody s) = _
    rw [hb, finish_ok]
  · rw [h] at hf
    simp at hf

/-- CODES where the codes are already those of the tree. -/
theorem codes_keep {s : State} (h : s.treeValid = true) (hcode : codeTable s.nodes = s.code) :
    exec .codes s = .next { s with codesValid := true }.succeeded := by
  rw [codes_ok h, State.withCodes, hcode]

theorem tree_next (s : State) : ∃ t, exec .tree s = .next t := by
  rcases treeBody_cases s with ⟨-, h⟩ | ⟨-, h⟩
  · exact ⟨_, by show finish (treeBody s) = _; rw [h, finish_ok]⟩
  · exact ⟨_, by show finish (treeBody s) = _; rw [h, finish_raised]⟩

/-- TREE succeeds on counts of a non-empty input. -/
theorem tree_ok {s : State} (h : alphabet s.freq ≠ []) : exec .tree s = .next s.withTree.succeeded := by
  rcases treeBody_cases s with ⟨-, hb⟩ | ⟨he, -⟩
  · show finish (treeBody s) = _
    rw [hb, finish_ok]
  · exact absurd he h

/-- TREE fails on an empty alphabet. -/
theorem tree_fail {s : State} (h : alphabet s.freq = []) : ∃ t, exec .tree s = .next t ∧ t = s.withoutTree.failed 2 0 := by
  obtain ⟨t, ht⟩ := tree_next s
  rcases execTree_next ht with ⟨hne, -⟩ | ⟨-, rfl⟩
  · exact absurd h hne
  · exact ⟨_, ht, rfl⟩

/-- FREQ on written input. -/
theorem freq_ok {s : State} {bytes : List Byte} (h : s.InputIs bytes) :
    exec .freq s = .next { s with freq := countBytes bytes }.succeeded := by
  show finish (freqBody s) = _
  rw [freqBody, readInput_inputIs h, ofRun_ok, finish_ok]

/-- BUILD on written input answers a next state, a success or a failure. -/
theorem build_next {s : State} {bytes : List Byte} (h : s.InputIs bytes) :
    (alphabet (countBytes bytes) ≠ []
      ∧ exec .build s = .next { s with freq := countBytes bytes }.withTree.withCodes.succeeded)
    ∨ (alphabet (countBytes bytes) = []
      ∧ ∃ t, exec .build s = .next t ∧ t = { s with freq := countBytes bytes }.withoutTree.failed 2 0) := by
  have hb : freqBody s = .ok { s with freq := countBytes bytes } := by
    rw [freqBody, readInput_inputIs h, ofRun_ok]
  have he : exec .build s = finish ((treeBody { s with freq := countBytes bytes }).andThen codesBody) := by
    show finish (((freqBody s).andThen treeBody).andThen codesBody) = _
    rw [hb, andThen_ok]
  rcases treeBody_cases { s with freq := countBytes bytes } with ⟨hne, ht⟩ | ⟨hno, ht⟩
  · refine .inl ⟨hne, ?_⟩
    rw [he, ht, andThen_ok]
    exact codes_ok (s := { s with freq := countBytes bytes }.withTree) rfl
  · have hx : exec .build s = .next ({ s with freq := countBytes bytes }.withoutTree.complete .emptyAlphabet 0) := by
      rw [he, ht, andThen_raised, finish_raised]
    exact .inr ⟨hno, _, hx, complete_error _ _ (by decide)⟩

theorem build_ok {s : State} {bytes : List Byte} (h : s.InputIs bytes) (hne : bytes ≠ [])
    (hlen : bytes.length ≤ 2 ^ 20) :
    exec .build s = .next { s with freq := countBytes bytes }.withTree.withCodes.succeeded := by
  rcases build_next h with ⟨-, hb⟩ | ⟨he, -⟩
  · exact hb
  · exact absurd he (alphabet_countBytes hne hlen)

theorem alphabet_zero : alphabet (Table.all 0) = [] := by simp [alphabet]

theorem ab_alphabet : alphabet ab.freq ≠ [] := alphabet_countBytes (by decide) (by decide)
theorem aaaa_alphabet : alphabet aaaa.freq ≠ [] := alphabet_countBytes (by decide) (by decide)
theorem ab_tree_nodes : ab.withTree.succeeded.nodes = abTree := by
  simp only [State.withTree, State.withoutTree, State.succeeded, ab, built]
  exact ab_build

theorem aaaa_tree_nodes : aaaa.withTree.succeeded.nodes = [.leaf 0x61 4] := by
  simp only [State.withTree, State.withoutTree, State.succeeded, aaaa, built]
  exact aaaa_build

theorem ab_total : freqTotal ab.freq = 2 := freqTotal_countBytes (by decide)
theorem aaaa_total : freqTotal aaaa.freq = 4 := freqTotal_countBytes (by decide)

/-- Building "ab" again changes nothing but the completion status. -/
theorem ab_rebuild : exec .build ab = .next ab.succeeded := by
  rw [build_ok (s := ab) (holding_inputIs [0x61, 0x62]) (by decide) (by decide), State.withCodes, State.withTree,
    State.withoutTree]
  simp only [ab_build, ab_table]
  rfl

/-- Every command completes on "ab". -/
theorem ab_completes (i : Instr) : ∃ t, exec i ab = .next t := by
  cases i
  case freq => exact ⟨_, freq_ok (holding_inputIs [0x61, 0x62])⟩
  case tree => exact tree_next _
  case build => exact ⟨_, ab_rebuild⟩
  all_goals exact ⟨_, exec_after (by decide +kernel)⟩

/-! ### Witnesses: concrete states and operands that meet a statement's hypotheses together -/

theorem witness_ResetDiscardsPendingCommand :
    { busyWith 0x9 ab with agenda := [.reset] }.agenda = .reset :: []
      ∧ ∃ s1, { busyWith 0x9 ab with agenda := [.block, .reset] }.agenda = .block :: .reset :: []
        ∧ step { busyWith 0x9 ab with agenda := [.block, .reset] } = .next s1 := ⟨rfl, _, rfl, rfl⟩

theorem witness_TableWordsDecode : ((0x00000017 : Word), Instr.unpackT) ∈ opcodeMap := by decide

/-- Both ends of each item of 30_encoding.md R72. -/
theorem witness_IllegalWordsFailAndChangeNothing :
    ∀ w ∈ ([0x00000000, 0x0000000A, 0x0000000F, 0x00000021, 0x80000001, 0x00000010, 0x00000016, 0x00000018] : List Word),
      { busyWith w State.reset with agenda := [.block] }.agenda = .block :: []
        ∧ { busyWith w State.reset with agenda := [.block] }.pending = some w ∧ ∃ e, decode w = .error e := by
  intro w hw
  fin_cases hw <;> exact ⟨rfl, rfl, _, rfl⟩

theorem witness_CommandWriteIsAccepted :
    { ab with agenda := [.write 0x000000 .word 0xFFFFFFFF] }.pending = none
      ∧ { busyWith 0x9 ab with agenda := [.write 0x000000 .word 0x5] }.pending.isSome = true := ⟨rfl, rfl⟩

theorem witness_StepRunsDecodedCommand :
    (busyWith 0x17 ab).pending = some 0x17 ∧ decode 0x17 = .ok .unpackT ∧ (busyWith 0x17 ab).agenda = []
      ∧ { busyWith 0x17 ab with agenda := [.block] }.agenda = .block :: []
      ∧ { busyWith 0x17 ab with agenda := [.wait] }.agenda = .wait :: []
      ∧ ab.pending = none ∧ ab.agenda = [] := ⟨rfl, rfl, rfl, rfl, rfl, rfl, rfl⟩

/-- The illegal word of program P5 pending, for each agenda of StepRunsDecodedCommand. -/
theorem witness_StepRunsDecodedCommand_illegal :
    ∀ agenda ∈ ([[], [.block], [.wait]] : List (List Turn)),
      { busyWith 0x0 ab with agenda := agenda }.pending = some 0x0
        ∧ { busyWith 0x0 ab with agenda := agenda }.agenda = agenda ∧ decode 0x0 = .error .opcode :=
  fun _ _ => ⟨rfl, rfl, rfl⟩

/-- Every command can be the one of CompletionStatus, CommandsWriteOnlyTheirDestination, ArgRegister,
InputLengthIsClamped and ClearEmptiesTheWorkingTables. -/
theorem witness_CompletionStatus (i : Instr) : ∃ s t, exec i s = .next t :=
  let ⟨t, h⟩ := ab_completes i
  ⟨_, t, h⟩

/-- "ab" with cell 1 unwritten and buffers it fills exactly. -/
def halfWritten (arg : Word) : State :=
  { ab with params := { ibufCap := 2, obufCap := 2, bitbufCap := 16 }, ibuf := [(0, 0x61)], arg := arg }

/-- ARG at both ends of the values that come to the unwritten cell 1. -/
theorem witness_UnwrittenCellFaults (arg : Word) (h : arg = 9 ∨ arg = 16) :
    (∀ j, j < [(0x61 : Byte)].length → (halfWritten arg).ibuf.read j = [(0x61 : Byte)][j]?)
      ∧ (halfWritten arg).ibuf.read [(0x61 : Byte)].length = none
      ∧ [(0x61 : Byte)].length < (halfWritten arg).ibufLen ∧ (halfWritten arg).codesValid = true
      ∧ (∀ b ∈ [(0x61 : Byte)], (halfWritten arg).code.get b ≠ [])
      ∧ (codedBits (halfWritten arg).code [0x61]).length ≤ (halfWritten arg).params.bitbufCap
      ∧ 8 * (halfWritten arg).ibufLen ≤ (halfWritten arg).params.bitbufCap
      ∧ 8 * [(0x61 : Byte)].length < (halfWritten arg).arg.toNat
      ∧ (halfWritten arg).arg.toNat ≤ 8 * (halfWritten arg).ibufLen
      ∧ (halfWritten arg).arg.toNat ≤ (halfWritten arg).params.bitbufCap := by
  rcases h with rfl | rfl <;> decide +kernel

theorem witness_ValidFlags : Inv ab ∧ ab.codesValid = true := ⟨ab_inv, rfl⟩

/-- An illegal word performed, for StateAfterAnError. -/
theorem witness_StateAfterAnError_illegal :
    (∃ e, decode 0x00000000 = .error e) ∧ ∃ t, performWord 0x00000000 ab = .next t := ⟨⟨_, rfl⟩, _, rfl⟩

/-- Every command that can fail does, from a state that meets the invariant. -/
theorem witness_StateAfterAnError (i : Instr) (h : i ≠ .freq ∧ i ≠ .clear) :
    ∃ s t, Inv s ∧ exec i s = .next t ∧ t.err = true ∧ t.errcode ≠ 0x00 := by
  have tight : Config.Params.wellFormed { ibufCap := 2, obufCap := 1, bitbufCap := 16 } = true := by decide
  have narrow : Config.Params.wellFormed { ibufCap := 2, obufCap := 1, bitbufCap := 8 } = true := by decide
  cases i
  case freq => exact absurd rfl h.1
  case clear => exact absurd rfl h.2
  case pack =>
    exact ⟨_, _, fresh_inv tight (Nat.zero_le _) 0 (bits := List.replicate 9 true) (by decide),
      exec_after (by decide +kernel), by decide +kernel, by decide +kernel⟩
  case unpack =>
    exact ⟨_, _, fresh_inv narrow (n := 2) (by decide) 0 (bits := []) (by decide),
      exec_after (by decide +kernel), by decide +kernel, by decide +kernel⟩
  case unpackT =>
    exact ⟨_, _, fresh_inv narrow (n := 2) (by decide) 17 (bits := []) (by decide),
      exec_after (by decide +kernel), by decide +kernel, by decide +kernel⟩
  case tree =>
    obtain ⟨t, ht, rfl⟩ := tree_fail (s := small) alphabet_zero
    exact ⟨_, _, small_inv, ht, rfl, by decide⟩
  case build =>
    rcases build_next (s := small) (bytes := []) ⟨rfl, fun i hi => absurd hi (Nat.not_lt_zero i)⟩ with
      ⟨hne, -⟩ | ⟨-, t, ht, rfl⟩
    · exact absurd alphabet_zero hne
    · exact ⟨_, _, small_inv, ht, rfl, by show (2 : Byte) ≠ 0; decide⟩
  all_goals exact ⟨_, _, small_inv, exec_after (by decide +kernel), by decide +kernel, by decide +kernel⟩

theorem witness_StepKeepsInv :
    Inv { ab with agenda := [.write 0x000000 .word 0x9] }
      ∧ ∃ t, step { ab with agenda := [.write 0x000000 .word 0x9] } = .next t :=
  ⟨{ ab_inv with }, _, rfl⟩

theorem witness_FreqCountsInput : (holding []).InputIs [] ∧ (holding abra).InputIs abra :=
  ⟨holding_inputIs [], holding_inputIs abra⟩

theorem witness_FrequenciesSumToInputLength :
    (holding [0x61]).ibufLen ≤ 2 ^ 20
      ∧ ∃ t u, exec .freq (holding [0x61]) = .next t ∧ exec .build (holding [0x61]) = .next u :=
  ⟨by decide, _, _, freq_ok (holding_inputIs _), build_ok (holding_inputIs _) (by decide) (by decide)⟩

theorem witness_TreeSeedsLeavesInSymbolOrder :
    ([0x61, 0x62] : List Byte) ≠ []
      ∧ ([0x61, 0x62] : List Byte).Pairwise (fun a b => a.toNat < b.toNat)
      ∧ ∀ a, a ∈ ([0x61, 0x62] : List Byte) ↔ ab.freq.get a ≠ 0 :=
  ⟨by decide, by decide, fun a => (countBytes_ne_zero (by decide) a).symm⟩

/-- For TREE and for BUILD. -/
theorem witness_TreeResultShape :
    (∃ t, exec .tree ab = .next t ∧ t.err = false ∧ freqTotal t.freq < 2 ^ 32)
      ∧ ab.ibufLen < 2 ^ 32 ∧ ∃ t, exec .build ab = .next t ∧ t.err = false ∧ freqTotal t.freq < 2 ^ 32 := by
  refine ⟨?_, by decide, ?_⟩
  · exact ⟨_, tree_ok ab_alphabet, rfl, by show freqTotal ab.freq < _; rw [ab_total]; decide⟩
  · refine ⟨_, ab_rebuild, rfl, ?_⟩
    show freqTotal ab.freq < 2 ^ 32
    rw [ab_total]
    decide

theorem witness_TreeMergesTheTwoLeastKeys :
    (∃ t, exec .tree ab = .next t ∧ t.err = false ∧ freqTotal ab.freq < 2 ^ 32)
      ∧ leafCount ab.nodes ≤ 2 ∧ 2 < ab.nodes.length := by
  exact ⟨⟨_, tree_ok ab_alphabet, rfl, by rw [ab_total]; decide⟩, by decide, by decide⟩

theorem witness_TreeOfOneSymbolAndOfNone :
    (∃ s : State, s.freq.get 0x61 ≠ 0 ∧ ∀ b, b ≠ 0x61 → s.freq.get b = 0)
      ∧ ∀ a, State.reset.freq.get a = 0 := by
  refine ⟨⟨{ State.reset with freq := (Table.all 0).set 0x61 4 }, ?_, ?_⟩, fun a => Table.get_all 0 a⟩
  · rw [Table.get_set_same]
    decide
  · intro b hb
    rw [Table.get_set_other _ _ hb, Table.get_all]

theorem witness_TreeDependsOnlyOnFrequencies :
    (∃ s s' t t', s ≠ s' ∧ s.freq = s'.freq ∧ exec .tree s = .next t ∧ exec .tree s' = .next t')
      ∧ (holding [0x61, 0x62]).InputIs [0x61, 0x62] ∧ (holding [0x62, 0x61]).InputIs [0x62, 0x61]
      ∧ ([0x61, 0x62] : List Byte).Perm [0x62, 0x61]
      ∧ ∃ t t', exec .build (holding [0x61, 0x62]) = .next t ∧ exec .build (holding [0x62, 0x61]) = .next t' := by
  refine ⟨⟨State.reset, { State.reset with arg := 1 }, ?_⟩, holding_inputIs _, holding_inputIs _, by decide,
    _, _, build_ok (holding_inputIs _) (by decide) (by decide), build_ok (holding_inputIs _) (by decide) (by decide)⟩
  obtain ⟨t, ht⟩ := tree_next State.reset
  obtain ⟨t', ht'⟩ := tree_next { State.reset with arg := 1 }
  exact ⟨t, t', fun h => absurd (congrArg State.arg h) (by decide), rfl, ht, ht'⟩

theorem witness_BuildMakesTreeAndCodes :
    (holding abra).InputIs abra ∧ abra.length ≤ 2 ^ 20 ∧ abra ≠ [] ∧ (holding []).InputIs []
      ∧ (holding [0x61]).InputIs [0x61] :=
  ⟨holding_inputIs _, by decide, by decide, holding_inputIs _, holding_inputIs _⟩

/-- A TREE that succeeds and one that fails. -/
theorem witness_BuildIsFreqThenTreeThenCodes :
    (∃ s1 s2 s3, exec .freq ab = .next s1 ∧ exec .tree s1 = .next s2 ∧ exec .codes s2 = .next s3 ∧ s2.err = false)
    ∧ ∃ s1 s2 s3, exec .freq State.reset = .next s1 ∧ exec .tree s1 = .next s2 ∧ exec .codes s2 = .next s3
      ∧ s2.err = true := by
  constructor
  · have h1 : exec .freq ab = .next ab.succeeded := freq_ok (holding_inputIs [0x61, 0x62])
    have h2 : exec .tree ab.succeeded = .next ab.succeeded.withTree.succeeded := tree_ok ab_alphabet
    have h3 : exec .codes ab.succeeded.withTree.succeeded = _ := codes_ok rfl
    exact ⟨_, _, _, h1, h2, h3, rfl⟩
  · have h0 : State.reset.InputIs [] := holding_inputIs []
    have he : alphabet ({ State.reset with freq := countBytes [] }.succeeded).freq = [] := by
      simp only [State.succeeded, countBytes, List.foldl_nil, alphabet_zero]
    obtain ⟨t, ht, rfl⟩ := tree_fail he
    have h1 := freq_ok h0
    have h3 := exec_after (i := .codes) (s := ({ State.reset with freq := countBytes [] }.succeeded).withoutTree.failed 2 0)
      (by decide +kernel)
    exact ⟨_, _, _, h1, ht, h3, rfl⟩

theorem witness_CodesWithoutATreeAndWithOneLeaf :
    (Inv small ∧ small.treeValid = false)
      ∧ aaaa.treeValid = true ∧ leafSym aaaa.nodes (rootHandle aaaa.nodes) = some 0x61 :=
  ⟨⟨small_inv, rfl⟩, rfl, rfl⟩

theorem witness_CodesArePathsFromTheRoot :
    ab.treeValid = true ∧ TreeShape ab.nodes ∧ leafSym ab.nodes (rootHandle ab.nodes) = none :=
  ⟨rfl, ab_shape, rfl⟩

/-- A tree of three nodes and the tree that is a single Leaf. -/
theorem witness_CodeTableInvariant :
    (Inv ab ∧ ab.codesValid = true ∧ ab.nodes.length ≠ 1 ∧ leafSym ab.nodes 0 = some 0x61
        ∧ ab.code.get 0x61 ≠ [] ∧ ab.code.get 0x62 ≠ [])
      ∧ Inv aaaa ∧ aaaa.codesValid = true ∧ aaaa.nodes.length = 1 := by
  exact ⟨⟨ab_inv, rfl, by decide, rfl, by decide, by decide⟩, aaaa_inv, rfl, rfl⟩

theorem witness_KraftSumIsOne :
    ab.treeValid = true ∧ TreeShape ab.nodes ∧ 2 ≤ leafCount ab.nodes ∧ ∃ t, exec .codes ab = .next t :=
  ⟨rfl, ab_shape, by decide, _, codes_ok rfl⟩

/-- Two symbols and one. -/
theorem witness_EncodedLengthIsInternalWeight :
    (∃ t u, freqTotal ab.freq < 2 ^ 32 ∧ exec .tree ab = .next t ∧ t.err = false ∧ exec .codes t = .next u
        ∧ leafCount t.nodes ≠ 1)
      ∧ ∃ t u, freqTotal aaaa.freq < 2 ^ 32 ∧ exec .tree aaaa = .next t ∧ t.err = false
        ∧ exec .codes t = .next u ∧ leafCount t.nodes = 1 :=
  ⟨⟨ab.withTree.succeeded, _, by rw [ab_total]; decide, tree_ok ab_alphabet, rfl, codes_ok rfl,
      by rw [ab_tree_nodes]; decide⟩,
    aaaa.withTree.succeeded, _, by rw [aaaa_total]; decide, tree_ok aaaa_alphabet, rfl, codes_ok rfl,
      by rw [aaaa_tree_nodes]; decide⟩

/-- The capacity that "ab" fills exactly. -/
def abTight : State := { ab with params := { ibufCap := 2, obufCap := 2, bitbufCap := 2 } }

theorem witness_EncodeConcatenatesCodes :
    abTight.codesValid = true ∧ abTight.InputIs [0x61, 0x62]
      ∧ (∀ b ∈ ([0x61, 0x62] : List Byte), abTight.code.get b ≠ [])
      ∧ (codedBits abTight.code [0x61, 0x62]).length ≤ abTight.params.bitbufCap :=
  ⟨rfl, holding_inputIs _, ab_coded, by decide⟩

/-- Byte 2 has no code, or has one that no longer fits after the two bits of "ab". -/
theorem witness_EncodeErrorsNameTheirByte (b : Byte) (h : b = 0x7A ∨ b = 0x61) :
    ∃ s : State, s.codesValid = true ∧ ([0x61, 0x62] : List Byte).length < s.ibufLen
      ∧ (∀ j, j < ([0x61, 0x62] : List Byte).length → s.ibuf.read j = ([0x61, 0x62] : List Byte)[j]?)
      ∧ s.ibuf.read ([0x61, 0x62] : List Byte).length = some b
      ∧ (∀ c ∈ ([0x61, 0x62] : List Byte), s.code.get c ≠ [])
      ∧ (codedBits s.code [0x61, 0x62]).length ≤ s.params.bitbufCap
      ∧ (b = 0x7A → s.code.get b = [])
      ∧ (b = 0x61 → s.code.get b ≠ []
        ∧ s.params.bitbufCap < (codedBits s.code [0x61, 0x62]).length + (s.code.get b).length) := by
  refine ⟨{ abTight with ibuf := [(0, 0x61), (1, 0x62), (2, b)], ibufLen := 3 }, rfl, by show 2 < 3; decide, ?_, rfl,
    ab_coded, by show (codedBits ab.code _).length ≤ 2; decide, ?_, ?_⟩
  · intro j hj
    have : j = 0 ∨ j = 1 := by simp only [List.length_cons, List.length_nil] at hj; omega
    rcases this with rfl | rfl <;> rfl
  · rintro rfl
    rfl
  · rintro rfl
    refine ⟨ab_coded _ (by simp), ?_⟩
    decide

theorem witness_EncodeReadsOnlyTheCodeTable : State.reset.codesValid = false := rfl

/-- Bits that fill OBUF exactly, and one more. -/
theorem witness_PackIsMostSignificantBitFirst :
    let s (n : Nat) : State := { small with params := { small.params with obufCap := 1 }, bitbuf := List.replicate n true }
    (s 8).bitbuf.length ≤ 8 * (s 8).params.obufCap ∧ 8 * (s 9).params.obufCap < (s 9).bitbuf.length
      ∧ State.reset.params = Config.Params.defaults ∧ State.reset.bitbuf.length ≤ State.reset.params.bitbufCap
      ∧ ∃ t, exec .pack State.reset = .next t :=
  ⟨by decide, by decide, rfl, by decide, _, exec_after (by decide +kernel)⟩

/-- An input that fills BITBUF exactly, and one cell more that nothing has written. -/
theorem witness_UnpackGivesEightBitsAByte :
    let s : State := { holding [0xA5] with params := { small.params with bitbufCap := 8 } }
    (s.InputIs [0xA5] ∧ 8 * [(0xA5 : Byte)].length ≤ s.params.bitbufCap)
      ∧ { s with ibufLen := 2 }.params.bitbufCap < 8 * { s with ibufLen := 2 }.ibufLen
      ∧ { s with ibufLen := 2 }.ibuf.read 1 = none :=
  ⟨⟨holding_inputIs _, by decide⟩, by decide, rfl⟩

/-- ARG = 0 with no cell read, ARG = 8 × IBUF_LEN with all read, one more, and a count past BITBUF_CAP. -/
theorem witness_UnpackTrimKeepsArgBits :
    let s (arg : Word) : State := { holding [0xA5] with params := { small.params with bitbufCap := 8 }, arg := arg }
    (∀ row ∈ ([(0, []), (1, [0xA5]), (8, [0xA5])] : List (Word × List Byte)),
        (s row.1).arg.toNat ≤ 8 * (s row.1).ibufLen ∧ (s row.1).arg.toNat ≤ (s row.1).params.bitbufCap
          ∧ (s row.1).arg.toNat ≤ 8 * row.2.length ∧ 8 * row.2.length < (s row.1).arg.toNat + 8
          ∧ ∀ i, i < row.2.length → (s row.1).ibuf.read i = row.2[i]?)
      ∧ 8 * (s 9).ibufLen < (s 9).arg.toNat
      ∧ ({ s 9 with ibufLen := 2 }.arg.toNat ≤ 8 * { s 9 with ibufLen := 2 }.ibufLen
        ∧ { s 9 with ibufLen := 2 }.params.bitbufCap < { s 9 with ibufLen := 2 }.arg.toNat) := by
  refine ⟨?_, by decide, by decide, by decide⟩
  intro row hrow
  simp only [List.mem_cons, List.not_mem_nil, or_false] at hrow
  rcases hrow with rfl | rfl | rfl
  · exact ⟨by decide, by decide, by decide, by decide, fun i hi => absurd hi (Nat.not_lt_zero i)⟩
  all_goals exact ⟨by decide, by decide, by decide, by decide, (holding_inputIs [0xA5]).2⟩

theorem witness_PackUnpackRoundTrip :
    ∃ t u : State, exec .pack { small with bitbuf := abraBits } = .next t ∧ t.err = false ∧ u.InputIs t.obuf
      ∧ 8 * t.obuf.length ≤ u.params.bitbufCap ∧ abraBits.length ≤ u.params.bitbufCap
      ∧ u.arg.toNat = abraBits.length := by
  refine ⟨after .pack { small with bitbuf := abraBits },
    { holding (after .pack { small with bitbuf := abraBits }).obuf with arg := 23 },
    exec_after (by decide +kernel), by decide +kernel, holding_inputIs _, by decide +kernel, by decide, by decide⟩

theorem witness_ArgRegister :
    { ab with agenda := [.write 0x000008 .word 23] }.pending = none
      ∧ { ab with agenda := [.read 0x000008 .word] }.pending = none ∧ Instr.unpack ≠ .unpackT :=
  ⟨rfl, rfl, by decide⟩

/-- With no codes in CODE: DECODE reads the tree. -/
theorem witness_DecodeInvertsTheCodeTable :
    let s : State := { abTight with code := Table.all [], codesValid := false, bitbuf := [false, true] }
    s.treeValid = true ∧ TreeShape s.nodes ∧ (∀ b ∈ ([0x61, 0x62] : List Byte), (codeTable s.nodes).get b ≠ [])
      ∧ s.bitbuf = codedBits (codeTable s.nodes) [0x61, 0x62]
      ∧ ([0x61, 0x62] : List Byte).length ≤ s.params.obufCap := by
  intro s
  have h : codeTable s.nodes = ab.code := ab_table
  rw [h]
  exact ⟨rfl, ab_shape, ab_coded, ab_bits_ab.symm, by decide⟩

/-- "abcc" with the bits of "c" and the first bit of "a". -/
theorem witness_DecodeTruncatedStreamFails :
    let s : State := { abcc with bitbuf := [false, true] }
    s.treeValid = true ∧ TreeShape s.nodes ∧ (∃ t, exec .codes s = .next t
      ∧ (∀ b ∈ [(0x63 : Byte)], t.code.get b ≠ []) ∧ t.code.get 0x61 = [true] ++ [false]
      ∧ s.bitbuf = codedBits t.code [0x63] ++ [true])
      ∧ [true] ≠ [] ∧ [false] ≠ [] ∧ [(0x63 : Byte)].length ≤ s.params.obufCap := by
  exact ⟨rfl, abcc_shape, ⟨_, codes_keep rfl abcc_table, by decide, rfl, rfl⟩, by decide, by decide, by decide⟩

/-- As many bits as OBUF has bytes. -/
theorem witness_DecodeOfTheOnlySymbol :
    let s (bits : List Bit) : State := { aaaa with params := abTight.params, bitbuf := bits }
    (s []).treeValid = true ∧ leafSym (s []).nodes (rootHandle (s []).nodes) = some 0x61
      ∧ 2 ≤ (s []).params.obufCap ∧ (s [false, false]).bitbuf = List.replicate 2 false
      ∧ (s [false, false, true]).bitbuf = List.replicate 2 false ++ true :: [] :=
  ⟨rfl, rfl, by decide, rfl, rfl⟩

theorem witness_DecodeOverflowFails :
    let s : State := { abTight with bitbuf := [false, true, false] }
    s.treeValid = true ∧ TreeShape s.nodes ∧ (∃ t, exec .codes s = .next t
      ∧ (∀ b ∈ ([0x61, 0x62] : List Byte), t.code.get b ≠ []) ∧ t.code.get 0x61 ≠ []
      ∧ s.bitbuf = codedBits t.code [0x61, 0x62] ++ t.code.get 0x61 ++ [])
      ∧ ([0x61, 0x62] : List Byte).length = s.params.obufCap := by
  refine ⟨rfl, ab_shape, ⟨_, codes_keep rfl ab_table, ab_coded, by decide, rfl⟩, by decide⟩

theorem witness_DecodeReadsOnlyTheTree : State.reset.treeValid = false := rfl

theorem witness_PipelineRoundTrip :
    (holding abra).InputIs abra ∧ abra ≠ [] ∧ abra.length ≤ 2 ^ 20 ∧ abra.length ≤ (holding abra).params.obufCap :=
  ⟨holding_inputIs _, by decide, by decide, by decide⟩

/-- "ab" encoded and packed, each step from the state the one before leaves. -/
def abPacked : State := after .pack (after .encode ab.succeeded)

theorem witness_PackedPipelineRoundTrip :
    ∃ s1 s2 s3 u : State, ab.InputIs [0x61, 0x62] ∧ ab.params.wellFormed = true
      ∧ [(0x61 : Byte), 0x62].length ≤ ab.params.obufCap
      ∧ exec .build ab = .next s1 ∧ exec .encode s1 = .next s2 ∧ s2.err = false
      ∧ exec .pack s2 = .next s3 ∧ s3.err = false ∧ u.InputIs s3.obuf
      ∧ u.arg = BitVec.ofNat 32 s2.bitbuf.length ∧ u.params = s3.params ∧ u.nodes = s3.nodes
      ∧ u.treeValid = s3.treeValid := by
  refine ⟨_, after .encode ab.succeeded, abPacked,
    { abPacked with
      ibuf := (holding abPacked.obuf).ibuf, ibufLen := abPacked.obuf.length
      arg := BitVec.ofNat 32 (after .encode ab.succeeded).bitbuf.length },
    holding_inputIs _, ab_inv.params, by decide +kernel, ab_rebuild, exec_after (by decide +kernel),
    by decide +kernel, exec_after (by decide +kernel), by decide +kernel, ⟨rfl, (holding_inputIs _).2⟩, rfl, rfl,
    rfl, rfl⟩

theorem witness_IllFormedAccessesAreRefused :
    (∀ row ∈ ([(0x100001, .half), (0xFFFFFF, .half), (0x100002, .word), (0x000000, .byte), (0x0FFFFE, .half)] :
        List (Offset × AccessSize)),
      row.1.toNat % sizeBytes row.2 ≠ 0 ∨ (row.1.toNat < 0x100000 ∧ row.2 ≠ .word))
    ∧ ∀ row ∈ ([(0x000000, .word), (0x0FFFFC, .word), (0x100000, .byte), (0xFFFFFE, .half)] :
        List (Offset × AccessSize)),
      row.1.toNat % sizeBytes row.2 = 0 ∧ (0x100000 ≤ row.1.toNat ∨ row.2 = .word) := by decide

theorem witness_AccessesWhileBusy :
    (busyWith 0x9 ab).pending.isSome = true ∧ (busyWith 0x9 ab).params.wellFormed = true
      ∧ ∀ row ∈ ([(0x000004, .word), (0x000010, .word), (0x100000, .byte), (0xFFFFFF, .byte)] : List (Nat × AccessSize)),
        row.1 < 2 ^ 24 ∧ row.1 ≠ 0 ∧ row.1 % sizeBytes row.2 = 0 ∧ (0x100000 ≤ row.1 ∨ row.2 = .word) :=
  ⟨rfl, by show Config.Params.defaults.wellFormed = true; decide, by decide⟩

theorem witness_ReadsAndRepeatedWrites :
    (∃ t, { ab with agenda := [.read 0x000004 .word] }.agenda = .read 0x000004 .word :: []
        ∧ step { ab with agenda := [.read 0x000004 .word] } = .next t)
      ∧ (0x100000 : Offset) ≠ 0 ∧ ab.pending = none := ⟨⟨_, rfl, rfl⟩, by decide, rfl⟩

theorem witness_InputLengthIsClamped : Inv ab ∧ ab.pending = none := ⟨ab_inv, rfl⟩

/-- With a tree and without one. -/
theorem witness_ReadOnlyRegisters :
    (Inv ab ∧ ab.pending = none ∧ ab.treeValid = true) ∧ Inv small ∧ small.pending = none ∧ small.treeValid = false :=
  ⟨⟨ab_inv, rfl, rfl⟩, small_inv, rfl, rfl⟩

theorem witness_FreqWindow : ab.pending = none := rfl

/-- A Leaf at handle 0, the Internal root, the first handle past the arena and handle 511; and no tree. -/
theorem witness_NodeWindow :
    (small.pending = none ∧ Inv small ∧ small.treeValid = false) ∧ ab.pending = none ∧ ab.nodes[0]? = some (.leaf 0x61 1) ∧ ab.nodes[2]? = some (.internal 2 0 1)
      ∧ ab.nodes.length ≤ 3 ∧ 511 < 512 := by
  exact ⟨⟨rfl, small_inv, rfl⟩, rfl, rfl, rfl, by decide, by decide⟩

theorem witness_CodeWindows : ab.pending = none ∧ 0 < 8 ∧ 7 < 8 := ⟨rfl, by decide, by decide⟩

theorem witness_OutputAndBitWindows :
    ab.pending = none ∧ 2 ^ 20 - 1 < 2 ^ 20
      ∧ ∃ t, exec .pack { small with bitbuf := abraBits } = .next t ∧ t.err = false ∧ 2 < t.obuf.length
        ∧ t.obuf.length ≤ 3 :=
  ⟨rfl, by decide, after .pack { small with bitbuf := abraBits }, exec_after (by decide +kernel), by decide +kernel,
    by decide +kernel, by decide +kernel⟩

/-- A written cell, an unwritten one, the last cell below the capacity and the first past it. -/
theorem witness_InputWindow :
    ab.pending = none ∧ Memory.wf ab.ibuf ∧ ab.ibuf.read 0 = some 0x61 ∧ ab.ibuf.read 2 = none
      ∧ 15 < small.params.ibufCap ∧ small.params.ibufCap ≤ 16 ∧ 16 < 2 ^ 20 :=
  ⟨rfl, ab_inv.ibufForm, rfl, rfl, by decide, by decide, by decide⟩

/-- "abc" with a capacity of 3: cell 3 does not exist. -/
def oddCap : State := { holding [0x61, 0x62, 0x63] with params := { small.params with ibufCap := 3 } }

/-- A read of 2 bytes and one of 4 across the capacity, with every cell below it written, and a write of 2 bytes
there; and a read wholly below it. -/
theorem witness_AccessesAreLittleEndian :
    oddCap.pending = none
      ∧ ∀ row ∈ ([(0x100002, .half), (0x100000, .word), (0x100000, .half)] : List (Offset × AccessSize)),
        0x100000 ≤ row.1.toNat ∧ row.1.toNat % sizeBytes row.2 = 0
        ∧ ∀ t, t < sizeBytes row.2 → row.1.toNat + t < 0x200000 →
          row.1.toNat + t - 0x100000 < oddCap.params.ibufCap → oddCap.ibuf.read (row.1.toNat + t - 0x100000) ≠ none :=
  ⟨rfl, by decide⟩

/-- What such accesses do (20_memory.md R43, R52, assumption log 12): the byte past the capacity reads 0 and its
write is dropped. -/
theorem test_bus_straddle :
    oddCap.busRead 0x100002 .half = 0x0063 ∧ oddCap.busRead 0x100000 .word = 0x00636261
      ∧ (oddCap.busWrite 0x100002 .half 0x5A41).ibuf = [(0, 0x61), (1, 0x62), (2, 0x41)] := by decide +kernel

/-- Both ends of each range. -/
theorem witness_ReservedOffsetsReadZero :
    small.pending = none ∧ Inv small
      ∧ (∀ o ∈ [0x034, 0x3FC, 0xC00, 0xFFC, 0x4000, 0xFFFFC], o < 2 ^ 24 ∧ o % sizeBytes .word = 0
        ∧ ((0x034 ≤ o ∧ o < 0x400) ∨ (0xC00 ≤ o ∧ o < 0x1000) ∨ (0x4000 ≤ o ∧ o < 0x100000)))
      ∧ ∀ o ∈ [0x400000, 0xFFFFFF, 0x100010, 0x1FFFFF, 0x200010, 0x2FFFFF, 0x300010, 0x3FFFFF],
        o < 2 ^ 24 ∧ o % sizeBytes .byte = 0
          ∧ (0x400000 ≤ o ∨ (0x100000 + small.params.ibufCap ≤ o ∧ o < 0x200000)
            ∨ (0x200000 + small.params.obufCap ≤ o ∧ o < 0x300000)
            ∨ (0x300000 + small.params.bitbufCap / 8 ≤ o ∧ o < 0x400000)) :=
  ⟨rfl, small_inv, by decide, by decide⟩

/-- A run that ends in a `wait` and one that ends in a `run`, wherever the perform step falls. -/
theorem witness_RunEndsWithNothingPending :
    ∀ slots ∈ ([[], [false, true]] : List Slots), ∀ last ∈ ([.wait, .run .clear] : List Stmt),
      (last = .wait ∨ ∃ i, last = .run i)
        ∧ ∃ t slots', runScript ([.cmd .clear] ++ [last]) small slots = .next (t, slots')
          ∧ endOfRun ([.cmd .clear] ++ [last]) small slots = some t := by
  intro slots hs last hl
  fin_cases hs <;> fin_cases hl
  · exact ⟨.inl rfl, _, _, rfl, rfl⟩
  · exact ⟨.inr ⟨_, rfl⟩, _, _, rfl, rfl⟩
  · exact ⟨.inl rfl, _, _, rfl, rfl⟩
  · exact ⟨.inr ⟨_, rfl⟩, _, _, rfl, rfl⟩

/-! ### The host's run -/

/-- V-BUS-10: `cmd PACK` and `cmd CLEAR`, then a `wait`. The second write is dropped with OVERRUN, or, with the
block's turn before it, accepted: CLEAR has then been performed and OVERRUN is 0. -/
theorem test_script_overrun_or_accepted :
    ((endOfRun [.cmd .pack, .cmd .clear, .wait] small []).map (fun t => t.statusIdle)) = some 0x00000022
      ∧ ((endOfRun [.cmd .pack, .cmd .clear, .wait] small [false, true]).map (fun t => t.statusIdle)) =
        some 0x00000002 := by decide +kernel

/-- 45_control.md R124: with its command still pending the run has not ended. -/
theorem test_script_pending :
    (endOfRun [.cmd .clear] small []).isNone = true
      ∧ (endOfRun [.cmd .clear, .wait] small []).isSome = true := by decide +kernel

end Sys2Proof.Tests
end

section
/-! PROOFS. The invariant of the machine: each piece of a step keeps it, so every step does (10_state.md R29,
R34, R40). -/

namespace Sys2Proof.Machine

/-! ### The parameters and the counts -/

/-- The upper bounds of 00_scope.md R7. -/
theorem params_wellFormed_le {p : Config.Params} (h : p.wellFormed = true) :
    p.ibufCap ≤ 2 ^ 20 ∧ p.obufCap ≤ 2 ^ 20 ∧ p.bitbufCap ≤ 2 ^ 23 := by
  simp only [Config.Params.wellFormed, Bool.and_eq_true, decide_eq_true_eq] at h
  omega

theorem Inv.counts_noWrap {s : State} (h : Inv s) : freqTotal s.freq < 2 ^ 32 := by
  have hcap := (params_wellFormed_le h.params).1
  have hcounts := h.counts
  omega

/-- The counts of the input sum to at most IBUF_CAP (40_tree_builder.md R83). -/
theorem Inv.freqTotal_input_le {s : State} (h : Inv s) {bytes : List Byte} (hin : s.InputIs bytes) :
    freqTotal (countBytes bytes) ≤ s.params.ibufCap := by
  have hlen : bytes.length ≤ s.params.ibufCap := hin.1 ▸ h.ibufLen
  have hcap := (params_wellFormed_le h.params).1
  rw [freqTotal_countBytes (by omega)]
  exact hlen

/-- A merged tree's weights are at most the sum of the counts it was seeded with (40_tree_builder.md R86). -/
theorem buildTree_weight_le {freq : Table Word} (hne : alphabet freq ≠ []) (hwrap : freqTotal freq < 2 ^ 32)
    (h : Nat) : weightOf (buildTree freq) h ≤ freqTotal freq := by
  obtain ⟨root, inv, -⟩ := buildTree_merging hne hwrap
  exact inv.bounded h

/-! ### Completion -/

theorem Inv.succeeded {s : State} (h : Inv s) : Inv s.succeeded :=
  { h with
    errFlag := rfl
    errcode := Nat.zero_le _
    errpos := fun _ => rfl
    notDone := fun _ => rfl
    busy := fun hp => nomatch hp }

theorem Inv.failed {s : State} (h : Inv s) {number : Byte} (pos : Nat) (hne : number ≠ 0)
    (hle : number.toNat ≤ 0x0A) : Inv (s.failed number pos) :=
  { h with
    errFlag := (decide_eq_true hne).symm
    errcode := hle
    errpos := fun he => absurd he hne
    notDone := fun hd => nomatch hd
    busy := fun hp => nomatch hp }

/-! ### What a command writes -/

theorem Inv.withBitbuf {s : State} (h : Inv s) {bits : List Bit} (hlen : bits.length ≤ s.params.bitbufCap) :
    Inv { s with bitbuf := bits } :=
  { h with bitbuf := hlen }

theorem Inv.withObuf {s : State} (h : Inv s) {bytes : List Byte} (hlen : bytes.length ≤ s.params.obufCap) :
    Inv { s with obuf := bytes } :=
  { h with obuf := hlen }

theorem Inv.withFreq {s : State} (h : Inv s) {bytes : List Byte} (hin : s.InputIs bytes) :
    Inv { s with freq := countBytes bytes } :=
  { h with counts := h.freqTotal_input_le hin }

/-- An empty arena and an empty code table need no tree (40_tree_builder.md R85). -/
theorem Inv.withoutTree {s : State} (h : Inv s) : Inv s.withoutTree :=
  { h with
    weights := fun _ => Nat.zero_le _
    codeLen := fun a => by simp [State.withoutTree]
    tree := fun hv => nomatch hv
    noTree := fun _ => rfl
    codesNeedTree := fun hv => nomatch hv
    codes := fun hv => nomatch hv
    noCodes := fun _ a => Table.get_all [] a }

theorem Inv.withTree {s : State} (h : Inv s) (hne : alphabet s.freq ≠ []) : Inv s.withTree :=
  { h.withoutTree with
    weights := fun k => (buildTree_weight_le hne h.counts_noWrap k).trans h.counts
    tree := fun _ => buildTree_shape hne h.counts_noWrap
    noTree := fun hv => nomatch hv
    codesNeedTree := fun _ => rfl
    codes := fun hv => nomatch hv }

theorem Inv.withCodes {s : State} (h : Inv s) (hv : s.treeValid = true) : Inv s.withCodes :=
  { h with
    codeLen := codeTable_length s.nodes
    codesNeedTree := fun _ => hv
    codes := fun _ => rfl
    noCodes := fun hc => nomatch hc }

/-- With no tree CODES_VALID is already 0, so clearing it changes nothing (41_code_generator.md R94). -/
theorem Inv.clearCodesValid_eq {s : State} (h : Inv s) (hv : s.treeValid = false) :
    { s with codesValid := false } = s := by
  have hc : s.codesValid = false := by
    by_contra hc
    simp [h.codesNeedTree (by simpa using hc)] at hv
  rw [← hc]

theorem Inv.cleared {s : State} (h : Inv s) : Inv s.cleared :=
  { h.withoutTree with
    counts := freqTotal_zero.trans_le (Nat.zero_le _)
    bitbuf := Nat.zero_le _
    obuf := Nat.zero_le _ }

/-! ### The block's turn -/

theorem execClear_next {s t : State} (h : execClear s = .next t) : t = s.cleared.succeeded := by
  simpa [execClear_eq, eq_comm] using h

/-- Performing a command keeps the invariant (45_control.md R116). -/
theorem exec_keepsInv {i : Instr} {s t : State} (h : Inv s) (he : exec i s = .next t) : Inv t := by
  have hbits : Inv { s with bitbuf := [] } := h.withBitbuf (Nat.zero_le _)
  have hbytes : Inv { s with obuf := [] } := h.withObuf (Nat.zero_le _)
  cases i with
  | freq =>
    obtain ⟨bytes, hin, rfl⟩ := execFreq_next he
    exact (h.withFreq hin).succeeded
  | tree =>
    obtain ⟨hne, rfl⟩ | ⟨-, rfl⟩ := execTree_next he
    · exact (h.withTree hne).succeeded
    · exact h.withoutTree.failed 0 (by decide) (by decide)
  | codes =>
    obtain ⟨hv, rfl⟩ | ⟨hv, rfl⟩ := execCodes_next he
    · exact (h.withCodes hv).succeeded
    · rw [h.clearCodesValid_eq hv]
      exact h.failed 0 (by decide) (by decide)
  | build =>
    obtain ⟨bytes, hin, ⟨hne, rfl⟩ | ⟨-, rfl⟩⟩ := execBuild_next he
    · exact (((h.withFreq hin).withTree hne).withCodes rfl).succeeded
    · exact (h.withFreq hin).withoutTree.failed 0 (by decide) (by decide)
  | encode =>
    obtain ⟨-, rfl⟩ | ⟨bits, -, hlen, -, rfl⟩ | ⟨pos, -, -, ⟨-, rfl⟩ | ⟨-, rfl⟩⟩ := execEncode_next he
    · exact hbits.failed 0 (by decide) (by decide)
    · exact (h.withBitbuf hlen).succeeded
    · exact hbits.failed pos (by decide) (by decide)
    · exact hbits.failed pos (by decide) (by decide)
  | pack =>
    obtain ⟨hlen, rfl⟩ | ⟨-, rfl⟩ := execPack_next he
    · exact (h.withObuf (by simpa using hlen)).succeeded
    · exact hbytes.failed 0 (by decide) (by decide)
  | unpack =>
    obtain ⟨-, rfl⟩ | ⟨bits, hle, -, hlen, rfl⟩ := execUnpack_next he
    · exact hbits.failed 0 (by decide) (by decide)
    · exact (h.withBitbuf (hlen.trans_le hle)).succeeded
  | unpackT =>
    obtain ⟨-, rfl⟩ | ⟨-, ⟨-, rfl⟩ | ⟨bits, hle, -, hlen, rfl⟩⟩ := execUnpackT_next he
    · exact hbits.failed 0 (by decide) (by decide)
    · exact hbits.failed 0 (by decide) (by decide)
    · exact (h.withBitbuf (hlen.trans_le hle)).succeeded
  | decode =>
    obtain ⟨-, rfl⟩ | ⟨bytes, -, hlen, -, rfl⟩ | ⟨e, pos, -, herr, -, rfl⟩ := execDecode_next he
    · exact hbytes.failed 0 (by decide) (by decide)
    · exact (h.withObuf hlen).succeeded
    · have hne : e ≠ .none := by rintro rfl; simp at herr
      exact hbytes.failed pos (number_ne_zero hne) (number_le e)
  | clear =>
    obtain rfl := execClear_next he
    exact h.cleared.succeeded

theorem blockTurn_keepsInv {s t : State} (h : Inv s) (he : blockTurn s = .next t) : Inv t := by
  obtain ⟨-, rfl⟩ | ⟨w, i, -, -, hexec⟩ | ⟨w, e, -, -, rfl⟩ := blockTurn_next he
  · exact h
  · exact exec_keepsInv h hexec
  · exact h.failed 0 (by decide) (by decide)

/-! ### The host's turns -/

theorem Inv.withAgenda {s : State} (h : Inv s) (rest : List Turn) : Inv { s with agenda := rest } :=
  { h with }

theorem Inv.afterRead {s : State} (h : Inv s) (v : Word) : Inv (s.afterRead v) :=
  { h with }

theorem Inv.accept {s : State} (h : Inv s) (w : Word) : Inv (s.accept w) :=
  { h with
    errFlag := rfl
    errcode := Nat.zero_le _
    errpos := fun _ => rfl
    notDone := fun _ => rfl
    busy := fun _ => rfl }

theorem Inv.writeCells {s : State} (h : Inv s) (i n : Nat) (v : Word) : Inv (s.writeCells i n v) := by
  have hwf := writeCells_wf i n v h.ibufForm
  have hcells := writeCells_cells i n v h.ibufCells
  rw [writeCells_eq s i n v]
  exact { h with ibufForm := hwf, ibufCells := hcells }

theorem Inv.busWrite {s : State} (h : Inv s) (o : Offset) (n : AccessSize) (v : Word) :
    Inv (s.busWrite o n v) := by
  obtain he | ⟨-, he⟩ | ⟨-, he⟩ | ⟨-, he⟩ | ⟨-, he⟩ | ⟨-, he⟩ := busWrite_cases s o n v <;> rw [he]
  · exact h
  · exact { h with }
  · exact h.accept v
  · exact { h with }
  · exact { h with ibufLen := Nat.min_le_right _ _ }
  · exact h.writeCells _ _ _

/-- Reset establishes the invariant whatever the block held; only the parameters are kept
(70_reset_and_hazards.md R141). -/
theorem hardReset_inv {s : State} (hp : s.params.wellFormed = true) : Inv s.hardReset where
  params := hp
  ibufLen := Nat.zero_le _
  ibufForm := reset_ibuf_wf
  ibufCells := fun _ hc => nomatch hc
  counts := freqTotal_zero.trans_le (Nat.zero_le _)
  weights := fun _ => Nat.zero_le _
  bitbuf := Nat.zero_le _
  obuf := Nat.zero_le _
  codeLen := fun a => (congrArg List.length (Table.get_all [] a)).trans_le (Nat.zero_le _)
  tree := fun hv => nomatch hv
  noTree := fun _ => rfl
  codesNeedTree := fun hv => nomatch hv
  codes := fun hv => nomatch hv
  noCodes := fun _ a => Table.get_all [] a
  errFlag := rfl
  errcode := Nat.zero_le _
  errpos := fun _ => rfl
  notDone := fun _ => rfl
  busy := fun hb => nomatch hb

theorem readTurn_keepsInv {s t : State} {o : Offset} {n : AccessSize} (h : Inv s)
    (he : readTurn s o n = .next t) : Inv t := by
  obtain ⟨-, rfl⟩ := readTurn_next he
  exact h.afterRead _

theorem takeTurn_keepsInv {turn : Turn} {s t : State} (h : Inv s) (he : takeTurn turn s = .next t) :
    Inv t := by
  cases turn with
  | read o n => exact readTurn_keepsInv h he
  | write o n v =>
    obtain ⟨-, rfl⟩ := writeTurn_next he
    exact h.busWrite o n v
  | reset =>
    obtain rfl : s.hardReset = t := by simpa [takeTurn] using he
    exact hardReset_inv h.params
  | wait =>
    simp only [takeTurn, waitTurn] at he
    split at he
    · exact blockTurn_keepsInv (h.withAgenda _) he
    · exact readTurn_keepsInv h he
  | block => exact blockTurn_keepsInv h he

theorem step_keepsInv {s t : State} (h : Inv s) (he : step s = .next t) : Inv t := by
  cases hagenda : s.agenda with
  | nil =>
    rw [step_empty hagenda] at he
    exact blockTurn_keepsInv h he
  | cons turn rest =>
    rw [step_cons hagenda] at he
    exact takeTurn_keepsInv (h.withAgenda rest) he

/-- Settles O16, turn by turn: a host access, a reset or the block's perform step. -/
theorem stepKeepsInv : Obligations.StepKeepsInv := fun _ _ => step_keepsInv

/-- Settles O15: the reset state is what a reset of itself leaves. -/
theorem invHoldsAtReset : Obligations.InvHoldsAtReset := hardReset_inv (s := State.reset) (by decide)

end Sys2Proof.Machine
end

section
/-! PROOFS. The valid flags and the operands after each command, and what a valid code table is (10_state.md R20,
R22, R31, R34). -/

namespace Sys2Proof.Machine

/-! ### The valid flags -/

/-- How a performed command treats the valid flags (10_state.md R34) and its operands IBUF_LEN and ARG, which no
command writes (30_encoding.md R69). -/
structure FlagsAndOperands (i : Instr) (s t : State) : Prop where
  treeValid :
    t.treeValid = if i = .tree ∨ i = .build then !t.err else if i = .clear then false else s.treeValid
  codesValid :
    t.codesValid = if i = .codes ∨ i = .build then !t.err else if i = .tree ∨ i = .clear then false
      else s.codesValid
  ibufLen : t.ibufLen = s.ibufLen
  arg : t.arg = s.arg

theorem exec_flagsAndOperands {i : Instr} {s t : State} (h : exec i s = .next t) : FlagsAndOperands i s t := by
  cases i with
  | freq =>
    obtain ⟨bytes, -, rfl⟩ := execFreq_next h
    exact ⟨rfl, rfl, rfl, rfl⟩
  | tree => obtain ⟨-, rfl⟩ | ⟨-, rfl⟩ := execTree_next h <;> exact ⟨rfl, rfl, rfl, rfl⟩
  | codes => obtain ⟨-, rfl⟩ | ⟨-, rfl⟩ := execCodes_next h <;> exact ⟨rfl, rfl, rfl, rfl⟩
  | build =>
    obtain ⟨bytes, -, ⟨-, rfl⟩ | ⟨-, rfl⟩⟩ := execBuild_next h <;> exact ⟨rfl, rfl, rfl, rfl⟩
  | encode =>
    obtain ⟨-, rfl⟩ | ⟨bits, -, -, -, rfl⟩ | ⟨pos, -, -, ⟨-, rfl⟩ | ⟨-, rfl⟩⟩ := execEncode_next h <;>
      exact ⟨rfl, rfl, rfl, rfl⟩
  | pack => obtain ⟨-, rfl⟩ | ⟨-, rfl⟩ := execPack_next h <;> exact ⟨rfl, rfl, rfl, rfl⟩
  | unpack =>
    obtain ⟨-, rfl⟩ | ⟨bits, -, -, -, rfl⟩ := execUnpack_next h <;> exact ⟨rfl, rfl, rfl, rfl⟩
  | unpackT =>
    obtain ⟨-, rfl⟩ | ⟨-, ⟨-, rfl⟩ | ⟨bits, -, -, -, rfl⟩⟩ := execUnpackT_next h <;>
      exact ⟨rfl, rfl, rfl, rfl⟩
  | decode =>
    obtain ⟨-, rfl⟩ | ⟨bytes, -, -, -, rfl⟩ | ⟨e, pos, -, -, -, rfl⟩ := execDecode_next h <;>
      exact ⟨rfl, rfl, rfl, rfl⟩
  | clear =>
    obtain rfl := execClear_next h
    exact ⟨rfl, rfl, rfl, rfl⟩

/-- CODES on a state whose code table is already that of its tree writes the table it finds. -/
theorem Inv.withCodes_eq {s : State} (h : Inv s) (hc : s.codesValid = true) : s.withCodes = s := by
  rw [State.withCodes, ← h.codes hc, ← hc]

theorem execCodes_of_valid {s : State} (hv : s.treeValid = true) : execCodes s = .next s.withCodes.succeeded := by
  obtain ⟨-, hb⟩ | ⟨hno, -⟩ := codesBody_cases s
  · rw [execCodes, hb, finish_ok]
  · simp [hv] at hno

/-- Settles O12; its third part says that running CODES again changes nothing of the block but its status. -/
theorem validFlags : Obligations.ValidFlags := by
  refine ⟨fun i s t he => ?_, fun _ => ⟨rfl, rfl⟩, fun s h hc => ?_⟩
  · obtain ⟨htree, hcodes, -, -⟩ := exec_flagsAndOperands he
    exact ⟨htree, hcodes⟩
  · have hv := h.codesNeedTree hc
    refine ⟨hv, ?_⟩
    rw [exec, execCodes_of_valid hv, h.withCodes_eq hc]

/-! ### The code table of a tree -/

theorem TreeShape.leaf_eq_root {nodes : List Node} (shape : TreeShape nodes) (hone : nodes.length = 1) {h : Nat}
    {a : Byte} (ha : leafSym nodes h = some a) : h = rootHandle nodes := by
  have hlt := shape.leaf_lt ha
  simp only [leafCount, rootHandle, hone] at *
  omega

/-- The root of a tree of more than one node is Internal (10_state.md R29). -/
theorem TreeShape.root_internal {nodes : List Node} (shape : TreeShape nodes) (hne : nodes.length ≠ 1) :
    leafSym nodes (rootHandle nodes) = none := by
  by_contra hroot
  obtain ⟨a, ha⟩ := Option.ne_none_iff_exists'.1 hroot
  exact hne (shape.single ha)

/-- The Leaf of a single-node tree has the code `0`, a Leaf of any other tree its path (10_state.md R31). -/
theorem codeTable_of_leaf {nodes : List Node} (shape : TreeShape nodes) {h : Nat} {a : Byte}
    (ha : leafSym nodes h = some a) :
    (nodes.length = 1 → (codeTable nodes).get a = [false])
    ∧ (nodes.length ≠ 1 → Path nodes (rootHandle nodes) ((codeTable nodes).get a) h) := by
  refine ⟨fun hone => ?_, fun hne => codeTable_leaf shape (shape.root_internal hne) ha⟩
  have hroot := shape.leaf_eq_root hone ha ▸ ha
  rw [codeTable_single hroot, if_pos rfl]

/-- The coded symbols are the Leaves' (10_state.md R31). -/
theorem codeTable_ne_nil_iff {nodes : List Node} (shape : TreeShape nodes) (a : Byte) :
    (codeTable nodes).get a ≠ [] ↔ ∃ h, leafSym nodes h = some a := by
  cases hroot : leafSym nodes (rootHandle nodes) with
  | some r =>
    rw [codeTable_single hroot]
    constructor
    · intro hcode
      obtain rfl : a = r := by simpa using hcode
      exact ⟨_, hroot⟩
    · rintro ⟨h, ha⟩
      rw [shape.leaf_eq_root (shape.single hroot) ha, hroot] at ha
      simpa using ha.symm
  | none =>
    constructor
    · intro hcode
      by_contra hno
      exact hcode (codeTable_none shape hroot (not_exists.1 hno))
    · rintro ⟨h, ha⟩ hnil
      have hpath := codeTable_leaf shape hroot ha
      rw [hnil] at hpath
      cases hpath
      simp [hroot] at ha

/-- No code begins another symbol's code (41_code_generator.md R97): the path to the second Leaf would go on
from the first. -/
theorem codeTable_eq_of_isPrefix {nodes : List Node} (shape : TreeShape nodes) {a b : Byte}
    (ha : (codeTable nodes).get a ≠ []) (hb : (codeTable nodes).get b ≠ [])
    (hpre : (codeTable nodes).get a <+: (codeTable nodes).get b) : a = b := by
  obtain ⟨h, ha⟩ := (codeTable_ne_nil_iff shape a).1 ha
  obtain ⟨k, hb⟩ := (codeTable_ne_nil_iff shape b).1 hb
  have hk : k = h := by
    by_cases hone : nodes.length = 1
    · rw [shape.leaf_eq_root hone ha, shape.leaf_eq_root hone hb]
    · have hpathA := (codeTable_of_leaf shape ha).2 hone
      have hpathB := (codeTable_of_leaf shape hb).2 hone
      obtain ⟨rest, hrest⟩ := hpre
      rw [← hrest] at hpathB
      obtain ⟨m, hm, hmk⟩ := hpathB.split
      obtain rfl := hm.deterministic hpathA
      exact (hmk.from_leaf ha).2
  rw [hk, ha] at hb
  exact Option.some.inj hb

/-- Settles O28: with CODES_VALID = 1 the code table is that of the tree. -/
theorem codeTableInvariant : Obligations.CodeTableInvariant := by
  intro s h hc
  have shape := h.tree (h.codesNeedTree hc)
  rw [h.codes hc]
  refine ⟨fun a => ?_, fun k a => codeTable_of_leaf shape, fun a b hab ha hb hpre => ?_⟩
  · rw [← codeTable_ne_nil_iff shape a, Nat.one_le_iff_ne_zero, ne_eq, List.length_eq_zero_iff]
  · exact hab (codeTable_eq_of_isPrefix shape ha hb hpre)

end Sys2Proof.Machine
end

section
/-! PROOFS. The control registers at the host's bus with BUSY = 0, and what a command leaves of them
(10_state.md R17–R25, R40). -/

namespace Sys2Proof.Machine

/-! ### Accesses in the register region -/

theorem toNat_offset {o : Nat} (ho : o < 0x100000) : (BitVec.ofNat 24 o).toNat = o := by
  rw [BitVec.toNat_ofNat, Nat.mod_eq_of_lt (by omega)]

/-- An aligned 4-byte access of the register region is well-formed (20_memory.md R45). -/
theorem accessWellFormed_register {o : Nat} (ho : o < 0x100000) (hal : o % 4 = 0) :
    accessWellFormed (BitVec.ofNat 24 o) .word = true := by
  simp only [accessWellFormed, toNat_offset ho, sizeBytes, hal, decide_true, Bool.or_true, Bool.and_true]

theorem busy_eq_false {s : State} (hp : s.pending = none) : s.busy = false := by
  rw [State.busy, hp, Option.isSome_none]

/-- With BUSY = 0 a read of the register region gives what the region holds (20_memory.md R51). -/
theorem busRead_region {s : State} {o : Nat} (hp : s.pending = none) (ho : o < 0x100000) (hal : o % 4 = 0) :
    s.busRead (BitVec.ofNat 24 o) .word = s.readRegion o := by
  rw [State.busRead, if_pos (accessWellFormed_register ho hal), busy_eq_false hp, if_neg Bool.false_ne_true,
    State.readIdle, toNat_offset ho, if_pos ho]

/-- With BUSY = 0 a write to the register region does what the register does with the value
(20_memory.md R51). -/
theorem busWrite_register {s : State} {o : Nat} (hp : s.pending = none) (ho : o < 0x100000) (hal : o % 4 = 0)
    (v : Word) : s.busWrite (BitVec.ofNat 24 o) .word v = s.writeRegister o v := by
  rw [State.busWrite, if_pos (accessWellFormed_register ho hal), busy_eq_false hp, if_neg Bool.false_ne_true,
    State.writeIdle, toNat_offset ho, if_pos ho]

theorem readGives_region {s : State} {o : Nat} (hp : s.pending = none) (ho : o < 0x100000) (hal : o % 4 = 0) :
    ReadGives s o .word (s.readRegion o) := by
  intro rest
  rw [step_cons rfl, takeTurn, readTurn, if_pos (accessWellFormed_register ho hal)]
  have hread := busRead_region (s := { s with agenda := rest }) hp ho hal
  rw [hread]
  rfl

/-- Below 0x40 the register region is the control registers (10_state.md R17). -/
theorem readGives_register {s : State} {o : Nat} (hp : s.pending = none) (ho : o < 0x40) (hal : o % 4 = 0) :
    ReadGives s o .word (s.readRegister o) := by
  have hread := readGives_region hp (by omega) hal
  rwa [State.readRegion, if_pos ho] at hread

theorem ReadGives.step_eq {s : State} {o : Nat} {n : AccessSize} {v : Word} {rest : List Turn}
    (hread : ReadGives s o n v) (hagenda : s.agenda = .read (BitVec.ofNat 24 o) n :: rest) :
    step s = .next (afterReading s rest v) := by
  have hs : s = { s with agenda := .read (BitVec.ofNat 24 o) n :: rest } := by rw [← hagenda]
  rw [hs]
  exact hread rest

/-- A register that holds a number below 2^32 is read as that number. -/
theorem ReadGives.exists_toNat {s : State} {o n : Nat} (hread : ReadGives s o .word (BitVec.ofNat 32 n))
    (hn : n < 2 ^ 32) : ∃ v : Word, ReadGives s o .word v ∧ v.toNat = n :=
  ⟨_, hread, by rw [BitVec.toNat_ofNat, Nat.mod_eq_of_lt hn]⟩

theorem step_writeRegister {s : State} {o : Nat} {v : Word} {rest : List Turn} (hp : s.pending = none)
    (ho : o < 0x100000) (hal : o % 4 = 0) (hagenda : s.agenda = .write (BitVec.ofNat 24 o) .word v :: rest) :
    step s = .next (State.writeRegister { s with agenda := rest } o v) := by
  rw [step_cons hagenda, takeTurn, writeTurn, if_pos (accessWellFormed_register ho hal)]
  have hwrite := busWrite_register (s := { s with agenda := rest }) hp ho hal v
  rw [hwrite]

/-- Only CMD, ARG and IBUF_LEN take a write (10_state.md R17). -/
theorem writeDropped_register {s : State} {o : Nat} (hp : s.pending = none) (ho : o < 0x100000) (hal : o % 4 = 0)
    (hcmd : o ≠ 0x000) (harg : o ≠ 0x008) (hlen : o ≠ 0x010) (v : Word) : WriteDropped s o .word v := by
  intro rest
  have hstep := step_writeRegister (s := { s with agenda := .write (BitVec.ofNat 24 o) .word v :: rest })
    hp ho hal rfl
  rw [hstep]
  unfold State.writeRegister
  split
  · contradiction
  · contradiction
  · contradiction
  · rfl

/-! ### IBUF_LEN -/

theorem Inv.ibufLen_lt {s : State} (h : Inv s) : s.ibufLen < 2 ^ 32 := by
  have hlen := h.ibufLen
  have hcap := (params_wellFormed_le h.params).1
  omega

/-- Settles O50: a write stores the clamped value, and Inv's bound makes the read-back exact. -/
theorem inputLengthIsClamped : Obligations.InputLengthIsClamped := by
  refine ⟨fun s v rest hp => ?_, fun s h hp => ?_, fun _ _ _ he => (exec_flagsAndOperands he).ibufLen⟩
  · exact step_writeRegister (o := 0x010)
      (s := { s with agenda := .write 0x000010 .word v :: rest }) hp (by decide) (by decide) rfl
  · exact (readGives_register (o := 0x010) hp (by decide) (by decide)).exists_toNat h.ibufLen_lt

/-! ### ARG -/

/-- The end of a command's pseudocode with `v` in ARG of the state it leaves. -/
def Body.withArg (v : Word) : Body → Body
  | .ok s => .ok { s with arg := v }
  | .raised s code pos => .raised { s with arg := v } code pos
  | .unwritten i => .unwritten i

theorem finish_withArg (v : Word) (b : Body) :
    finish (b.withArg v) = mapNext (fun t => { t with arg := v }) (finish b) := by
  cases b <;> rfl

/-- A loop that reads nothing of ARG ends the same, and commits the same, whatever ARG holds. -/
theorem ofRun_withArg {α : Type} (s : State) (v : Word) {commit commit' : α → State} (r : Run α)
    (hcommit : ∀ a, commit' a = { commit a with arg := v }) :
    Body.ofRun { s with arg := v } commit' r = (Body.ofRun s commit r).withArg v := by
  cases r with
  | ok a => exact congrArg Body.ok (hcommit a)
  | raised code pos => rfl
  | unwritten i => rfl

theorem andThen_withArg (v : Word) {next : State → Body}
    (hnext : ∀ s, next { s with arg := v } = (next s).withArg v) (b : Body) :
    (b.withArg v).andThen next = (b.andThen next).withArg v := by
  cases b with
  | ok s => exact hnext s
  | raised s code pos => rfl
  | unwritten i => rfl

theorem freqBody_withArg (v : Word) (s : State) : freqBody { s with arg := v } = (freqBody s).withArg v :=
  ofRun_withArg s v _ (fun _ => rfl)

theorem treeBody_withArg (v : Word) (s : State) : treeBody { s with arg := v } = (treeBody s).withArg v := by
  unfold treeBody
  split <;> rfl

theorem codesBody_withArg (v : Word) (s : State) : codesBody { s with arg := v } = (codesBody s).withArg v := by
  unfold codesBody
  split <;> rfl

theorem buildBody_withArg (v : Word) (s : State) : buildBody { s with arg := v } = (buildBody s).withArg v := by
  rw [buildBody, freqBody_withArg, andThen_withArg v (treeBody_withArg v), andThen_withArg v (codesBody_withArg v),
    buildBody]

theorem encodeBody_withArg (v : Word) (s : State) :
    encodeBody { s with arg := v } = (encodeBody s).withArg v := by
  unfold encodeBody
  split
  · exact ofRun_withArg { s with bitbuf := [] } v _ (fun _ => rfl)
  · rfl

theorem packBody_withArg (v : Word) (s : State) : packBody { s with arg := v } = (packBody s).withArg v := by
  unfold packBody
  split <;> rfl

theorem unpackBits_withArg (v : Word) (s : State) (len : Nat) :
    unpackBits { s with arg := v } len = (unpackBits s len).withArg v := by
  unfold unpackBits
  split
  · rfl
  · exact ofRun_withArg s v _ (fun _ => rfl)

theorem unpackBody_withArg (v : Word) (s : State) : unpackBody { s with arg := v } = (unpackBody s).withArg v :=
  unpackBits_withArg v { s with bitbuf := [] } s.inputBits

theorem decodeBody_withArg (v : Word) (s : State) :
    decodeBody { s with arg := v } = (decodeBody s).withArg v := by
  unfold decodeBody
  split
  · exact ofRun_withArg { s with obuf := [] } v _ (fun _ => rfl)
  · rfl

/-- The pseudocode of each command, without its completion (45_control.md R116). -/
def bodyOf : Instr → State → Body
  | .freq => freqBody
  | .tree => treeBody
  | .codes => codesBody
  | .build => buildBody
  | .encode => encodeBody
  | .pack => packBody
  | .unpack => unpackBody
  | .unpackT => unpackTrimBody
  | .decode => decodeBody
  | .clear => clearBody

theorem exec_eq_finish (i : Instr) (s : State) : exec i s = finish (bodyOf i s) := by
  cases i <;> rfl

theorem bodyOf_withArg {i : Instr} (hi : i ≠ .unpackT) (v : Word) (s : State) :
    bodyOf i { s with arg := v } = (bodyOf i s).withArg v := by
  cases i with
  | freq => exact freqBody_withArg v s
  | tree => exact treeBody_withArg v s
  | codes => exact codesBody_withArg v s
  | build => exact buildBody_withArg v s
  | encode => exact encodeBody_withArg v s
  | pack => exact packBody_withArg v s
  | unpack => exact unpackBody_withArg v s
  | unpackT => exact absurd rfl hi
  | decode => exact decodeBody_withArg v s
  | clear => rfl

/-- Only UNPACK.T depends on ARG: any other command carries a changed ARG through (10_state.md R20). -/
theorem exec_withArg {i : Instr} (hi : i ≠ .unpackT) (s : State) (v : Word) :
    exec i { s with arg := v } = mapNext (fun t => { t with arg := v }) (exec i s) := by
  rw [exec_eq_finish, bodyOf_withArg hi, finish_withArg, ← exec_eq_finish]

/-- Settles O38: at the bus, at reset, and command by command. -/
theorem argRegister : Obligations.ArgRegister := by
  refine ⟨fun s v rest hp => ⟨fun hw => ?_, fun hr => ?_⟩, rfl, fun _ s v hi => exec_withArg hi s v,
    fun _ _ _ he => (exec_flagsAndOperands he).arg⟩
  · exact step_writeRegister (o := 0x008) hp (by decide) (by decide) hw
  · exact (readGives_register (o := 0x008) hp (by decide) (by decide)).step_eq hr

/-! ### The read-only registers -/

/-- From bit 8 on STATUS is ERRCODE, and 0 past it (10_state.md R19). -/
theorem statusIdle_high (s : State) (k : Nat) : s.statusIdle.getLsbD (8 + k) = s.errcode.getLsbD k := by
  rw [Nat.add_comm]
  simp only [State.statusIdle, statusOf, BitVec.getLsbD_append]
  simpa using BitVec.lt_of_getLsbD

/-- Below bit 8 STATUS is the flags, with BUSY = 0 (10_state.md R19). -/
theorem statusIdle_flags (s : State) :
    s.statusIdle.getLsbD 0 = false ∧ s.statusIdle.getLsbD 1 = s.done ∧ s.statusIdle.getLsbD 2 = s.err
    ∧ s.statusIdle.getLsbD 3 = s.treeValid ∧ s.statusIdle.getLsbD 4 = s.codesValid
    ∧ s.statusIdle.getLsbD 5 = s.overrun ∧ s.statusIdle.getLsbD 6 = false ∧ s.statusIdle.getLsbD 7 = false := by
  simp only [State.statusIdle, statusOf, BitVec.getLsbD_append]
  simp

theorem Inv.obuf_lt {s : State} (h : Inv s) : s.obuf.length < 2 ^ 32 := by
  have hlen := h.obuf
  have hcap := params_wellFormed_le h.params
  omega

theorem Inv.bitbuf_lt {s : State} (h : Inv s) : s.bitbuf.length < 2 ^ 32 := by
  have hlen := h.bitbuf
  have hcap := params_wellFormed_le h.params
  omega

theorem Inv.weight_lt {s : State} (h : Inv s) (k : Nat) : weightOf s.nodes k < 2 ^ 32 := by
  have hweight := h.weights k
  have hcap := params_wellFormed_le h.params
  omega

/-- A tree has at most 511 nodes (00_scope.md R6). -/
theorem TreeShape.length_le {nodes : List Node} (shape : TreeShape nodes) : nodes.length ≤ Config.maxNodes := by
  have hsize := shape.size
  have hbounded := shape.bounded
  simp only [Config.maxNodes]
  omega

/-- NODE_COUNT, ROOT and ROOT_WEIGHT hold the tree's numbers, or 0 without a tree (10_state.md R24). -/
theorem treeRegisters {s : State} (h : Inv s) :
    (s.treeValid = true → (BitVec.ofNat 32 s.nodeCount).toNat = s.nodes.length
      ∧ (BitVec.ofNat 32 s.root).toNat = s.nodes.length - 1
      ∧ (BitVec.ofNat 32 s.rootWeight).toNat = weightOf s.nodes (s.nodes.length - 1))
    ∧ (s.treeValid = false → BitVec.ofNat 32 s.nodeCount = 0 ∧ BitVec.ofNat 32 s.root = 0
      ∧ BitVec.ofNat 32 s.rootWeight = 0) := by
  refine ⟨fun hv => ?_, fun hv => by simp [State.nodeCount, State.root, State.rootWeight, hv]⟩
  have hlen : s.nodes.length ≤ 511 := (h.tree hv).length_le
  have hweight := h.weight_lt (s.nodes.length - 1)
  simp only [State.nodeCount, State.root, State.rootWeight, hv, if_true, rootHandle, BitVec.toNat_ofNat]
  exact ⟨Nat.mod_eq_of_lt (by omega), Nat.mod_eq_of_lt (by omega), Nat.mod_eq_of_lt hweight⟩

/-- Settles O51, register by register; the bounds of Inv make every number fit its register. -/
theorem readOnlyRegisters : Obligations.ReadOnlyRegisters := by
  intro s h hp
  obtain ⟨hibuf, hobuf, hbitbuf⟩ := params_wellFormed_le h.params
  obtain ⟨hbusy, hdone, herr, htree, hcodes, hoverrun, hres6, hres7⟩ := statusIdle_flags s
  have hread : ∀ o, o < 0x40 → o % 4 = 0 → ReadGives s o .word (s.readRegister o) :=
    fun o ho hal => readGives_register hp ho hal
  refine ⟨⟨s.statusIdle, hread 0x004 (by decide) (by decide), hbusy, hdone, herr, htree, hcodes, hoverrun, hres6,
      hres7, fun k _ => statusIdle_high s k, fun k hk => ?reserved⟩,
    hread 0x00C (by decide) (by decide),
    (hread 0x014 (by decide) (by decide)).exists_toNat h.obuf_lt,
    (hread 0x018 (by decide) (by decide)).exists_toNat h.bitbuf_lt,
    ⟨_, _, _, hread 0x01C (by decide) (by decide), hread 0x020 (by decide) (by decide),
      hread 0x024 (by decide) (by decide), treeRegisters h⟩,
    (hread 0x028 (by decide) (by decide)).exists_toNat (by omega),
    (hread 0x02C (by decide) (by decide)).exists_toNat (by omega),
    (hread 0x030 (by decide) (by decide)).exists_toNat (by omega),
    hread 0x000 (by decide) (by decide), fun o v ho => ?writes⟩
  case reserved =>
    obtain ⟨j, rfl⟩ := Nat.exists_eq_add_of_le hk
    rw [show 16 + j = 8 + (8 + j) by omega, statusIdle_high]
    exact BitVec.getLsbD_of_ge _ _ (by omega)
  case writes =>
    have hoffset : o < 0x100000 ∧ o % 4 = 0 ∧ o ≠ 0x000 ∧ o ≠ 0x008 ∧ o ≠ 0x010 := by
      revert o
      decide
    obtain ⟨hlt, hal, hcmd, harg, hlen⟩ := hoffset
    exact writeDropped_register hp hlt hal hcmd harg hlen v

/-! ### Reset -/

/-- Settles O1: the tables are constant, the capacity registers read through the bus, and every other value is a
field of the reset state. -/
theorem resetValues : Obligations.ResetValues := by
  have hread : ∀ o, o < 0x100000 → o % 4 = 0 →
      State.reset.busRead (BitVec.ofNat 24 o) .word = State.reset.readRegion o :=
    fun o ho hal => busRead_region rfl ho hal
  exact ⟨rfl, by decide, rfl, rfl, rfl, rfl, rfl, rfl, rfl, rfl, rfl, fun _ => rfl, Table.get_all 0, rfl, rfl, rfl,
    rfl, Table.get_all [], rfl, rfl, hread 0x028 (by decide) (by decide), hread 0x02C (by decide) (by decide),
    hread 0x030 (by decide) (by decide)⟩

end Sys2Proof.Machine
end

section
/-! PROOFS. The unwritten input cell a command comes to (20_memory.md R62). -/

namespace Sys2Proof.Machine

/-- A cell below the input's end that is unwritten is no byte of the input (10_state.md R32). -/
theorem State.InputIs.read_ne_none {s : State} {bytes : List Byte} (hin : s.InputIs bytes) {j : Nat}
    (hj : j < s.ibufLen) : s.ibuf.read j ≠ none := by
  obtain ⟨hlen, hcells⟩ := hin
  have hlt : j < bytes.length := by omega
  simp [hcells j hlt, hlt]

/-- FREQ's body ends at the first unwritten cell of the input (20_memory.md R62). -/
theorem freqBody_unwritten {s : State} {c : Nat} (hbefore : ∀ j, j < c → s.ibuf.read j ≠ none)
    (hnone : s.ibuf.read c = none) (hc : c < s.ibufLen) : freqBody s = .unwritten c := by
  obtain ⟨bytes, hin, -⟩ | ⟨j, -, hj, hfirst, hbody⟩ := freqBody_cases s
  · exact absurd hnone (hin.read_ne_none hc)
  · obtain hlt | rfl | hgt := Nat.lt_trichotomy j c
    · exact absurd hj (hbefore j hlt)
    · exact hbody
    · exact absurd hnone (hfirst c hgt)

/-- BUILD ends where its counting pass does (40_tree_builder.md R90). -/
theorem buildBody_unwritten {s : State} {c : Nat} (h : freqBody s = .unwritten c) :
    buildBody s = .unwritten c := by
  rw [buildBody, h, andThen_unwritten, andThen_unwritten]

/-- The loop of ENCODE ends at an unwritten cell when the bytes before it have codes that fit
(20_memory.md R62, 42_encoder.md R98). -/
theorem encodeFrom_unwritten_after {m : Memory} {code : Table (List Bit)} {cap n : Nat} {before : List Byte}
    (hread : ∀ j, j < before.length → m.read j = before[j]?) (hnone : m.read before.length = none)
    (hn : before.length < n) (hcode : ∀ b ∈ before, code.get b ≠ [])
    (hfit : (codedBits code before).length ≤ cap) :
    encodeFrom m code cap n 0 0 = .unwritten before.length := by
  obtain ⟨k, rfl⟩ := Nat.exists_eq_add_of_lt hn
  rw [Nat.add_assoc, encodeFrom_append before (k + 1) 0 0 (by simpa using hread) hcode (by simpa using hfit),
    Nat.zero_add, encodeFrom, hnone]
  rfl

/-- The loop of UNPACK ends at the first unwritten cell among those it reads (44_bit_packer.md R111). -/
theorem unpackFrom_unwritten_at {m : Memory} {c : Nat} (hbefore : ∀ j, j < c → m.read j ≠ none)
    (hnone : m.read c = none) (n i : Nat) (hi : i ≤ 8 * c) (hc : 8 * c < i + n) :
    unpackFrom m n i = .unwritten c := by
  induction n generalizing i with
  | zero => omega
  | succ n ih =>
    obtain heq | hlt := Nat.eq_or_lt_of_le hi
    · have hcell : i / 8 = c := by omega
      rw [unpackFrom, hcell, hnone]
    · obtain ⟨b, hb⟩ := Option.ne_none_iff_exists'.1 (hbefore (i / 8) (by omega))
      rw [unpackFrom, hb]
      simp only [ih (i + 1) hlt (by omega), Run.map_unwritten]

/-- UNPACK's common end at an unwritten cell among those whose bits it keeps. -/
theorem unpackBits_unwritten {s : State} {c len : Nat} (hbefore : ∀ j, j < c → s.ibuf.read j ≠ none)
    (hnone : s.ibuf.read c = none) (hc : 8 * c < len) (hfit : len ≤ s.params.bitbufCap) :
    unpackBits s len = .unwritten c := by
  rw [unpackBits, if_neg (Nat.not_lt.2 hfit),
    unpackFrom_unwritten_at hbefore hnone len 0 (Nat.zero_le _) (by omega), ofRun_unwritten]

/-- Settles O10: each reader's body ends in `.unwritten` of that cell, and `finish` makes it the fault. -/
theorem unwrittenCellFaults : Obligations.UnwrittenCellFaults := by
  intro s before hread hnone
  have hbefore : ∀ j, j < before.length → s.ibuf.read j ≠ none := by
    intro j hj
    simp [hread j hj, hj]
  refine ⟨fun hlen => ⟨?freq, ?build, fun hvalid hcode hfit => ?encode, fun hfit => ?unpack⟩,
    fun harg hinput hfit => ?unpackT⟩
  case freq =>
    rw [exec, execFreq, freqBody_unwritten hbefore hnone hlen, finish_unwritten]
  case build =>
    rw [exec, execBuild, buildBody_unwritten (freqBody_unwritten hbefore hnone hlen), finish_unwritten]
  case encode =>
    rw [exec, execEncode, encodeBody, if_pos hvalid,
      encodeFrom_unwritten_after hread hnone hlen hcode hfit, ofRun_unwritten, finish_unwritten]
  case unpack =>
    have hbits : 8 * before.length < s.inputBits := by
      rw [State.inputBits]
      omega
    have hbody : unpackBody s = .unwritten before.length :=
      unpackBits_unwritten (s := { s with bitbuf := [] }) hbefore hnone hbits hfit
    rw [exec, execUnpack, hbody, finish_unwritten]
  case unpackT =>
    have hshort : ¬ s.inputBits < s.argBits := Nat.not_lt.2 hinput
    have hbody : unpackTrimBody s = .unwritten before.length := by
      rw [unpackTrimBody, if_neg hshort]
      exact unpackBits_unwritten (s := { s with bitbuf := [] }) hbefore hnone harg hfit
    rw [exec, execUnpackT, hbody, finish_unwritten]

end Sys2Proof.Machine
end

section
/-! PROOFS. The host's accesses at any offset and width: which are refused, what a read and a write turn leave,
what they do while BUSY = 1, and that a write to IBUF may be repeated (20_memory.md R45, R46, R49, R57). -/

namespace Sys2Proof.Machine

/-! ### Well-formed accesses -/

theorem accessWellFormed_iff {o : Offset} {n : AccessSize} : accessWellFormed o n = true ↔
    o.toNat % sizeBytes n = 0 ∧ (0x100000 ≤ o.toNat ∨ n = .word) := by
  simp only [accessWellFormed, Bool.and_eq_true, Bool.or_eq_true, decide_eq_true_eq]

/-- Every offset of the aperture is its own 24-bit number (20_memory.md R50). -/
theorem toNat_aperture {o : Nat} (ho : o < 2 ^ 24) : (BitVec.ofNat 24 o).toNat = o := by
  rw [BitVec.toNat_ofNat, Nat.mod_eq_of_lt ho]

theorem accessWellFormed_aperture {o : Nat} {n : AccessSize} (ho : o < 2 ^ 24) (hal : o % sizeBytes n = 0)
    (hwide : 0x100000 ≤ o ∨ n = .word) : accessWellFormed (BitVec.ofNat 24 o) n = true := by
  rw [accessWellFormed_iff, toNat_aperture ho]
  exact ⟨hal, hwide⟩

/-! ### The host's turns -/

theorem step_read {o : Offset} {n : AccessSize} (hwf : accessWellFormed o n = true) (s : State)
    (rest : List Turn) :
    step { s with agenda := .read o n :: rest } = .next (afterReading s rest (s.busRead o n)) := by
  rw [step_cons rfl, takeTurn, readTurn, if_pos hwf]
  rfl

theorem readGives_of_busRead {s : State} {o : Nat} {n : AccessSize} {v : Word}
    (hwf : accessWellFormed (BitVec.ofNat 24 o) n = true) (hv : s.busRead (BitVec.ofNat 24 o) n = v) :
    ReadGives s o n v := by
  intro rest
  rw [step_read hwf, hv]

/-- `s` with `rest` the turns to come. -/
def State.withAgenda (s : State) (rest : List Turn) : State := { s with agenda := rest }

theorem writeCell_withAgenda (s : State) (rest : List Turn) (i : Nat) (b : Byte) :
    (s.withAgenda rest).writeCell i b = (s.writeCell i b).withAgenda rest := by
  have hparams : (s.withAgenda rest).params = s.params := rfl
  unfold State.writeCell
  rw [hparams]
  split <;> rfl

theorem writeCells_withAgenda (s : State) (rest : List Turn) (i n : Nat) (v : Word) :
    (s.withAgenda rest).writeCells i n v = (s.writeCells i n v).withAgenda rest :=
  List.foldl_hom (fun s : State => s.withAgenda rest)
    (fun s t => writeCell_withAgenda s rest (i + t) (wordByte v t))

theorem writeRegister_withAgenda (s : State) (rest : List Turn) (o : Nat) (v : Word) :
    (s.withAgenda rest).writeRegister o v = (s.writeRegister o v).withAgenda rest := by
  unfold State.writeRegister
  split <;> rfl

theorem writeIdle_withAgenda (s : State) (rest : List Turn) (o : Offset) (n : AccessSize) (v : Word) :
    (s.withAgenda rest).writeIdle o n v = (s.writeIdle o n v).withAgenda rest := by
  unfold State.writeIdle
  split
  · exact writeRegister_withAgenda s rest o.toNat v
  · split
    · exact writeCells_withAgenda s rest _ _ v
    · rfl

/-- A write at the bus neither sees nor changes the turns to come. -/
theorem busWrite_withAgenda (s : State) (rest : List Turn) (o : Offset) (n : AccessSize) (v : Word) :
    (s.withAgenda rest).busWrite o n v = (s.busWrite o n v).withAgenda rest := by
  have hbusy : (s.withAgenda rest).busy = s.busy := rfl
  unfold State.busWrite
  rw [hbusy]
  split
  · split
    · unfold State.writeBusy
      split <;> rfl
    · exact writeIdle_withAgenda s rest o n v
  · rfl

theorem step_write {o : Offset} {n : AccessSize} (hwf : accessWellFormed o n = true) (s : State) (v : Word)
    (rest : List Turn) :
    step { s with agenda := .write o n v :: rest } = .next { s.busWrite o n v with agenda := rest } := by
  rw [step_cons rfl, takeTurn, writeTurn, if_pos hwf]
  exact congrArg Host.Outcome.next (busWrite_withAgenda s rest o n v)

theorem writeDropped_of_busWrite {s : State} {o : Nat} {n : AccessSize} {v : Word}
    (hwf : accessWellFormed (BitVec.ofNat 24 o) n = true) (hs : s.busWrite (BitVec.ofNat 24 o) n v = s) :
    WriteDropped s o n v := by
  intro rest
  rw [step_write hwf, hs]

/-- Settles O47, by whether the access is well-formed. -/
theorem illFormedAccessesAreRefused : Obligations.IllFormedAccessesAreRefused := by
  intro s o n v rest
  refine ⟨fun hbad => ?_, fun hal hwide => ?_⟩
  · have hwf : ¬ accessWellFormed o n = true := by
      rw [accessWellFormed_iff]
      rintro ⟨hal, hwide⟩
      obtain hne | ⟨hlt, hne⟩ := hbad
      · exact hne hal
      · exact hwide.elim (by omega) hne
    refine ⟨?_, ?_, busWrite_illFormed (by simpa using hwf) s v⟩
    · rw [step_cons rfl, takeTurn, readTurn, if_neg hwf]
    · rw [step_cons rfl, takeTurn, writeTurn, if_neg hwf]
  · have hwf := accessWellFormed_iff.2 ⟨hal, hwide⟩
    exact ⟨⟨_, step_read hwf s rest⟩, _, step_write hwf s v rest⟩

/-! ### While BUSY = 1 -/

theorem busRead_busy {s : State} {o : Offset} {n : AccessSize} (hp : s.pending.isSome = true)
    (hwf : accessWellFormed o n = true) : s.busRead o n = s.readBusy o n := by
  rw [State.busRead, if_pos hwf, State.busy, if_pos hp]

theorem busWrite_busy {s : State} {o : Offset} {n : AccessSize} (hp : s.pending.isSome = true)
    (hwf : accessWellFormed o n = true) (v : Word) : s.busWrite o n v = s.writeBusy o := by
  rw [State.busWrite, if_pos hwf, State.busy, if_pos hp]

theorem readGives_busy {s : State} {o : Nat} {n : AccessSize} (hp : s.pending.isSome = true)
    (hwf : accessWellFormed (BitVec.ofNat 24 o) n = true) :
    ReadGives s o n (s.readBusy (BitVec.ofNat 24 o) n) :=
  readGives_of_busRead hwf (busRead_busy hp hwf)

/-- STATUS while BUSY = 1, but for bits 3 and 4 (20_memory.md R57). -/
theorem statusBusy_bits (s : State) :
    s.statusBusy.getLsbD 0 = true ∧ s.statusBusy.getLsbD 1 = false ∧ s.statusBusy.getLsbD 2 = false
    ∧ s.statusBusy.getLsbD 5 = s.overrun ∧ ∀ k, 6 ≤ k → s.statusBusy.getLsbD k = false := by
  simp only [State.statusBusy, statusOf, BitVec.getLsbD_append]
  refine ⟨by simp, by simp, by simp, by simp, fun k hk => ?_⟩
  obtain ⟨j, rfl⟩ := Nat.exists_eq_add_of_le hk
  simp

/-- Settles O48: at the bus a write is `writeBusy` and a read is `readBusy`, whose rows R57 lists. -/
theorem accessesWhileBusy : Obligations.AccessesWhileBusy := by
  intro s hp hparams
  obtain ⟨hibuf, hobuf, hbitbuf⟩ := params_wellFormed_le hparams
  have hread : ∀ o, o < 0x40 → o % 4 = 0 → ReadGives s o .word (s.readBusy (BitVec.ofNat 24 o) .word) :=
    fun o ho hal => readGives_busy hp (accessWellFormed_register (by omega) hal)
  refine ⟨fun o n v ho hne hal hwide => ?write, fun w rest => ?cmd,
    ⟨s.statusBusy, hread 0x004 (by decide) (by decide), statusBusy_bits s⟩,
    (hread 0x028 (by decide) (by decide)).exists_toNat (by omega),
    (hread 0x02C (by decide) (by decide)).exists_toNat (by omega),
    (hread 0x030 (by decide) (by decide)).exists_toNat (by omega),
    fun o n ho hal hwide => ⟨_, readGives_busy hp (accessWellFormed_aperture ho hal hwide)⟩⟩
  case write =>
    have hwf := accessWellFormed_aperture ho hal hwide
    refine writeDropped_of_busWrite hwf ?_
    rw [busWrite_busy hp hwf, State.writeBusy, toNat_aperture ho, if_neg hne]
  case cmd =>
    have hwf : accessWellFormed 0x000000 .word = true := by decide
    rw [step_write hwf, busWrite_busy hp hwf]
    rfl

/-! ### Repeated writes -/

/-- Writes to two different cells commute. -/
theorem Memory.write_comm (m : Memory) {i j : Nat} (b c : Byte) (hij : i < j) :
    (m.write i b).write j c = (m.write j c).write i b := by
  have hji : ¬ j < i := by omega
  have hne : ¬ j = i := by omega
  induction m with
  | nil => simp [Memory.write, hij, hji, hne]
  | cons d rest ih =>
    obtain hd | rfl | hd := Nat.lt_trichotomy i d.1
    · by_cases h1 : j < d.1
      · simp [Memory.write, hd, hij, hji, hne, h1]
      · by_cases h2 : j = d.1
        · simp [Memory.write, hij, ← h2, hji, hne]
        · simp [Memory.write, hd, hji, hne, h1, h2]
    · simp [Memory.write, hji, hne]
    · have h1 : ¬ i < d.1 := by omega
      have h2 : ¬ i = d.1 := by omega
      have h3 : ¬ j < d.1 := by omega
      have h4 : ¬ j = d.1 := by omega
      simp [Memory.write, h1, h2, h3, h4, ih]

theorem writeCell_again (s : State) (i : Nat) (b : Byte) :
    (s.writeCell i b).writeCell i b = s.writeCell i b := by
  by_cases hi : i < s.params.ibufCap
  · simp [State.writeCell, hi, Memory.write_write_same]
  · simp [State.writeCell, hi]

theorem writeCell_comm_of_lt (s : State) {i j : Nat} (b c : Byte) (hij : i < j) :
    (s.writeCell i b).writeCell j c = (s.writeCell j c).writeCell i b := by
  by_cases hj : j < s.params.ibufCap
  · have hi : i < s.params.ibufCap := by omega
    simp [State.writeCell, hi, hj, Memory.write_comm _ _ _ hij]
  · by_cases hi : i < s.params.ibufCap <;> simp [State.writeCell, hi, hj]

/-- The byte writes of one access commute: no two of them are to the same cell. -/
theorem writeCell_comm (s : State) (i : Nat) (v : Word) (t u : Nat) :
    (s.writeCell (i + t) (wordByte v t)).writeCell (i + u) (wordByte v u) =
      (s.writeCell (i + u) (wordByte v u)).writeCell (i + t) (wordByte v t) := by
  obtain hlt | rfl | hgt := Nat.lt_trichotomy t u
  · exact writeCell_comm_of_lt s _ _ (by omega)
  · rfl
  · exact (writeCell_comm_of_lt s _ _ (by omega)).symm

/-- The bytes of `v` that the lanes `lanes` of an access carry, to the IBUF cells from `i` on. -/
def State.writeLanes (s : State) (i : Nat) (v : Word) (lanes : List Nat) : State :=
  lanes.foldl (fun s t => s.writeCell (i + t) (wordByte v t)) s

theorem writeCells_eq_writeLanes (s : State) (i n : Nat) (v : Word) :
    s.writeCells i n v = s.writeLanes i v (List.range n) := rfl

theorem writeLanes_cons (s : State) (i : Nat) (v : Word) (t : Nat) (lanes : List Nat) :
    s.writeLanes i v (t :: lanes) = (s.writeCell (i + t) (wordByte v t)).writeLanes i v lanes := rfl

theorem writeLanes_writeCell (s : State) (i : Nat) (v : Word) (t : Nat) (lanes : List Nat) :
    (s.writeCell (i + t) (wordByte v t)).writeLanes i v lanes =
      (s.writeLanes i v lanes).writeCell (i + t) (wordByte v t) :=
  List.foldl_hom (fun s : State => s.writeCell (i + t) (wordByte v t)) (fun s u => writeCell_comm s i v t u)

theorem writeLanes_again (s : State) (i : Nat) (v : Word) (lanes : List Nat) :
    (s.writeLanes i v lanes).writeLanes i v lanes = s.writeLanes i v lanes := by
  induction lanes generalizing s with
  | nil => rfl
  | cons t lanes ih =>
    simp only [writeLanes_cons, writeLanes_writeCell, ih, writeCell_again]

/-- Writing the same cells twice is writing them once (20_memory.md R49). -/
theorem writeCells_again (s : State) (i n : Nat) (v : Word) :
    (s.writeCells i n v).writeCells i n v = s.writeCells i n v :=
  writeLanes_again s i v (List.range n)

/-- Every offset but those of CMD, ARG and IBUF_LEN drops its write (10_state.md R17, 20_memory.md R58). -/
theorem writeRegister_dropped (s : State) {o : Nat} (hcmd : o ≠ 0x000) (harg : o ≠ 0x008) (hlen : o ≠ 0x010)
    (v : Word) : s.writeRegister o v = s := by
  unfold State.writeRegister
  split
  · contradiction
  · contradiction
  · contradiction
  · rfl

theorem writeRegister_again (s : State) {o : Nat} (ho : o ≠ 0x000) (v : Word) :
    (s.writeRegister o v).writeRegister o v = s.writeRegister o v := by
  by_cases harg : o = 0x008
  · rw [harg]
    rfl
  · by_cases hlen : o = 0x010
    · rw [hlen]
      rfl
    · rw [writeRegister_dropped s ho harg hlen, writeRegister_dropped s ho harg hlen]

theorem writeIdle_again (s : State) {o : Offset} (ho : o ≠ 0) (n : AccessSize) (v : Word) :
    (s.writeIdle o n v).writeIdle o n v = s.writeIdle o n v := by
  have hne : o.toNat ≠ 0 := fun h => ho (BitVec.eq_of_toNat_eq h)
  unfold State.writeIdle
  split
  · exact writeRegister_again s hne v
  · split
    · exact writeCells_again s _ _ v
    · rfl

/-- Away from CMD a write with BUSY = 0 accepts no command. -/
theorem writeIdle_pending (s : State) {o : Offset} (ho : o ≠ 0) (n : AccessSize) (v : Word) :
    (s.writeIdle o n v).pending = s.pending := by
  have hne : o.toNat ≠ 0 := fun h => ho (BitVec.eq_of_toNat_eq h)
  unfold State.writeIdle
  split
  · unfold State.writeRegister
    split
    · contradiction
    · rfl
    · rfl
    · rfl
  · split
    · rw [writeCells_eq]
    · rfl

theorem busWrite_idle {s : State} {o : Offset} {n : AccessSize} (hp : s.pending = none)
    (hwf : accessWellFormed o n = true) (v : Word) : s.busWrite o n v = s.writeIdle o n v := by
  rw [State.busWrite, if_pos hwf, busy_eq_false hp, if_neg Bool.false_ne_true]

/-- Away from CMD a repeated write changes nothing more (20_memory.md R49). -/
theorem busWrite_again (s : State) {o : Offset} (ho : o ≠ 0) (n : AccessSize) (v : Word) :
    (s.busWrite o n v).busWrite o n v = s.busWrite o n v := by
  by_cases hwf : accessWellFormed o n = true
  · cases hp : s.pending with
    | some w =>
      have hbusy : s.pending.isSome = true := by rw [hp, Option.isSome_some]
      have hne : o.toNat ≠ 0 := fun h => ho (BitVec.eq_of_toNat_eq h)
      have hdropped : s.busWrite o n v = s := by rw [busWrite_busy hbusy hwf, State.writeBusy, if_neg hne]
      rw [hdropped, hdropped]
    | none =>
      have hidle : (s.writeIdle o n v).pending = none := (writeIdle_pending s ho n v).trans hp
      rw [busWrite_idle hp hwf, busWrite_idle hidle hwf, writeIdle_again s ho]
  · have hill : accessWellFormed o n = false := by simpa using hwf
    rw [busWrite_illFormed hill, busWrite_illFormed hill]

/-- Settles O49: a read is `readTurn`, and a second write to CMD finds the first one pending. -/
theorem readsAndRepeatedWrites : Obligations.ReadsAndRepeatedWrites := by
  refine ⟨fun s t o n rest hagenda hstep => ?read, fun s o n v ho => busWrite_again s ho n v,
    fun s v hp => ?cmd⟩
  case read =>
    rw [step_cons hagenda, takeTurn] at hstep
    obtain ⟨-, rfl⟩ := readTurn_next hstep
    exact ⟨_, rfl⟩
  case cmd =>
    have hwf : accessWellFormed 0x000000 .word = true := by decide
    have haccept : s.busWrite 0x000000 .word v = s.accept v := busWrite_idle hp hwf v
    rw [haccept, busWrite_busy rfl hwf]
    exact ⟨rfl, rfl⟩

end Sys2Proof.Machine
end

section
/-! PROOFS. The windows of the register region with BUSY = 0: FREQ, NODE, CODE_LEN, CODE_BITS and the reserved
offsets (20_memory.md R53–R55, R58). -/

namespace Sys2Proof.Machine

/-! ### The layout of the region -/

theorem readRegion_freq (s : State) (a : Byte) : s.readRegion (0x400 + 4 * a.toNat) = s.freq.get a := by
  have ha := a.isLt
  have hindex : (0x400 + 4 * a.toNat - 0x400) / 4 = a.toNat := by omega
  rw [State.readRegion, if_neg (by omega), if_neg (by omega), if_pos (by omega), hindex, BitVec.ofNat_toNat,
    BitVec.setWidth_eq]

theorem readRegion_codeLen (s : State) (a : Byte) :
    s.readRegion (0x800 + 4 * a.toNat) = BitVec.ofNat 32 (s.code.get a).length := by
  have ha := a.isLt
  have hindex : (0x800 + 4 * a.toNat - 0x800) / 4 = a.toNat := by omega
  rw [State.readRegion, if_neg (by omega), if_neg (by omega), if_neg (by omega), if_pos (by omega), hindex,
    BitVec.ofNat_toNat, BitVec.setWidth_eq]

theorem readRegion_node (s : State) {d : Nat} (hd : d < 0x1000) :
    s.readRegion (0x1000 + d) = nodeWindow s.nodes d := by
  rw [State.readRegion, if_neg (by omega), if_neg (by omega), if_neg (by omega), if_neg (by omega),
    if_neg (by omega), if_pos (by omega), Nat.add_sub_cancel_left]

theorem readRegion_codeBits (s : State) (a : Byte) {m : Nat} (hm : m < 8) :
    s.readRegion (0x2000 + 32 * a.toNat + 4 * m) = codeBitsWord (s.code.get a) m := by
  have ha := a.isLt
  have hindex : (0x2000 + 32 * a.toNat + 4 * m - 0x2000) / 32 = a.toNat := by omega
  have hword : (0x2000 + 32 * a.toNat + 4 * m - 0x2000) % 32 / 4 = m := by omega
  rw [State.readRegion, if_neg (by omega), if_neg (by omega), if_neg (by omega), if_neg (by omega),
    if_neg (by omega), if_neg (by omega), if_pos (by omega), hindex, hword, BitVec.ofNat_toNat, BitVec.setWidth_eq]

/-- Past BITBUF_CAP's register no control register is left (10_state.md R17, 20_memory.md R58). -/
theorem readRegister_reserved (s : State) {o : Nat} (ho : 0x034 ≤ o) : s.readRegister o = 0 := by
  unfold State.readRegister
  split
  case h_13 => rfl
  all_goals omega

theorem readRegion_reserved (s : State) {o : Nat}
    (ho : (0x034 ≤ o ∧ o < 0x400) ∨ (0xC00 ≤ o ∧ o < 0x1000) ∨ (0x4000 ≤ o ∧ o < 0x100000)) :
    s.readRegion o = 0 := by
  obtain ⟨hlow, hhigh⟩ | ⟨hlow, hhigh⟩ | ⟨hlow, hhigh⟩ := ho
  · by_cases hreg : o < 0x40
    · rw [State.readRegion, if_pos hreg, readRegister_reserved s hlow]
    · rw [State.readRegion, if_neg hreg, if_pos hhigh]
  · rw [State.readRegion, if_neg (by omega), if_neg (by omega), if_neg (by omega), if_neg (by omega), if_pos hhigh]
  · rw [State.readRegion, if_neg (by omega), if_neg (by omega), if_neg (by omega), if_neg (by omega),
      if_neg (by omega), if_neg (by omega), if_neg (by omega)]

/-- A read-only window of the region: what it reads, and that it drops writes (20_memory.md R53–R55). -/
theorem readOnly_region {s : State} {o : Nat} (hp : s.pending = none) (hlow : 0x034 ≤ o) (ho : o < 0x100000)
    (hal : o % 4 = 0) : ReadGives s o .word (s.readRegion o) ∧ ∀ v, WriteDropped s o .word v :=
  ⟨readGives_region hp ho hal,
    fun v => writeDropped_register hp ho hal (by omega) (by omega) (by omega) v⟩

/-! ### FREQ -/

/-- Settles O52: the region's word at the symbol's offset, read-only. -/
theorem freqWindow : Obligations.FreqWindow := by
  intro s a hp
  have ha := a.isLt
  rw [← readRegion_freq]
  exact readOnly_region hp (by omega) (by omega) (by omega)

/-! ### NODE -/

theorem nodeWindow_weight (nodes : List Node) (h : Nat) : nodeWindow nodes (8 * h) = weightWord nodes h := by
  rw [nodeWindow, if_pos (by omega), show 8 * h / 8 = h by omega]

theorem nodeWindow_descriptor (nodes : List Node) (h : Nat) :
    nodeWindow nodes (8 * h + 4) = descriptorWord nodes h := by
  rw [nodeWindow, if_neg (by omega), show (8 * h + 4) / 8 = h by omega]

theorem weightWord_leaf {nodes : List Node} {h : Nat} {a : Byte} {w : Word}
    (hn : nodes[h]? = some (.leaf a w)) : weightWord nodes h = w := by
  simp [weightWord, weightOf, hn]

theorem weightWord_internal {nodes : List Node} {h : Nat} {w : Word} {l r : Handle}
    (hn : nodes[h]? = some (.internal w l r)) : weightWord nodes h = w := by
  simp [weightWord, weightOf, hn]

theorem weightWord_none {nodes : List Node} {h : Nat} (hn : nodes[h]? = none) : weightWord nodes h = 0 := by
  simp [weightWord, weightOf, hn]

/-- The number of two words side by side. -/
theorem toNat_append_eq_add {k m : Nat} (x : BitVec k) (y : BitVec m) :
    (x ++ y).toNat = 2 ^ m * x.toNat + y.toNat := by
  rw [BitVec.toNat_append, ← Nat.shiftLeft_add_eq_or_of_lt y.isLt, Nat.shiftLeft_eq, Nat.mul_comm]

/-- A Leaf's descriptor: bit 31 and the symbol (20_memory.md R54). -/
theorem descriptorWord_leaf {nodes : List Node} {h : Nat} {a : Byte} {w : Word}
    (hn : nodes[h]? = some (.leaf a w)) : descriptorWord nodes h = BitVec.ofNat 32 (2 ^ 31 + a.toNat) := by
  have ha := a.isLt
  have hword : descriptorWord nodes h = (1 : BitVec 1) ++ (0 : BitVec 23) ++ a := by rw [descriptorWord, hn]
  apply BitVec.eq_of_toNat_eq
  rw [hword, toNat_append_eq_add, toNat_append_eq_add, BitVec.toNat_ofNat, Nat.mod_eq_of_lt (by omega)]
  simp only [BitVec.ofNat_eq_ofNat, BitVec.toNat_ofNat]
  omega

/-- An Internal node's descriptor: right(h) in the upper half, left(h) in the lower (20_memory.md R54). -/
theorem descriptorWord_internal {nodes : List Node} {h : Nat} {w : Word} {l r : Handle}
    (hn : nodes[h]? = some (.internal w l r)) :
    descriptorWord nodes h = BitVec.ofNat 32 (2 ^ 16 * r.toNat + l.toNat) := by
  have hl := l.isLt
  have hr := r.isLt
  have hword : descriptorWord nodes h = (0 : BitVec 7) ++ r ++ (0 : BitVec 7) ++ l := by rw [descriptorWord, hn]
  apply BitVec.eq_of_toNat_eq
  rw [hword, toNat_append_eq_add, toNat_append_eq_add, toNat_append_eq_add, BitVec.toNat_ofNat,
    Nat.mod_eq_of_lt (by omega)]
  simp only [BitVec.toNat_zero, BitVec.ofNat_eq_ofNat]
  omega

theorem descriptorWord_none {nodes : List Node} {h : Nat} (hn : nodes[h]? = none) :
    descriptorWord nodes h = 0 := by
  rw [descriptorWord, hn]

/-- Settles O53: the two words of a handle are its weight and its descriptor, by which node is there. The name
`nodeWindow` is the model's own function. -/
theorem nodeWindow_words : Obligations.NodeWindow := by
  intro s h hp hh
  obtain ⟨hreadW, hwriteW⟩ := readOnly_region (o := 0x1000 + 8 * h) hp (by omega) (by omega) (by omega)
  obtain ⟨hreadD, hwriteD⟩ :=
    readOnly_region (o := 0x1000 + (8 * h + 4)) hp (by omega) (by omega) (by omega)
  rw [readRegion_node s (by omega), nodeWindow_weight] at hreadW
  rw [readRegion_node s (by omega), nodeWindow_descriptor, ← Nat.add_assoc] at hreadD
  refine ⟨fun v => ⟨hwriteW v, hwriteD v⟩, fun a w hn => ?leaf, fun w l r hn => ?internal, fun hno => ?absent⟩
  case leaf =>
    rw [weightWord_leaf hn] at hreadW
    rw [descriptorWord_leaf hn] at hreadD
    exact ⟨hreadW, hreadD⟩
  case internal =>
    rw [weightWord_internal hn] at hreadW
    rw [descriptorWord_internal hn] at hreadD
    exact ⟨hreadW, hreadD⟩
  case absent =>
    have hn : s.nodes[h]? = none := by
      obtain hlen | ⟨hinv, hv⟩ := hno
      · exact List.getElem?_eq_none hlen
      · rw [hinv.noTree hv, List.getElem?_nil]
    rw [weightWord_none hn] at hreadW
    rw [descriptorWord_none hn] at hreadD
    exact ⟨hreadW, hreadD⟩

/-! ### CODE_LEN and CODE_BITS -/

/-- Bit 8t + 7 − j of word m of a code's storage is bit 32m + 8t + j of the code (20_memory.md R42, R55). -/
theorem codeBitsWord_bit (code : List Bit) (m : Nat) {t j : Nat} (ht : t < 4) (hj : j < 8) :
    (codeBitsWord code m).getLsbD (8 * t + (7 - j)) = code.getD (32 * m + 8 * t + j) false := by
  have hbyte : ((List.range 4).map (fun t => seqByte code (4 * m + t))).getD t 0 = seqByte code (4 * m + t) := by
    simp [List.getD, ht]
  rw [codeBitsWord, wordOfBytes_bit _ (by simp) t (7 - j) ht (by omega), hbyte, seqByte_bit code _ j hj,
    show 8 * (4 * m + t) + j = 32 * m + 8 * t + j by omega]

/-- Settles O54, window by window. -/
theorem codeWindows : Obligations.CodeWindows := by
  intro s a hp
  have ha := a.isLt
  obtain ⟨hlen, hlenDropped⟩ := readOnly_region (o := 0x800 + 4 * a.toNat) hp (by omega) (by omega) (by omega)
  rw [readRegion_codeLen] at hlen
  refine ⟨hlen, hlenDropped, fun m hm => ?_⟩
  obtain ⟨hbits, hbitsDropped⟩ :=
    readOnly_region (o := 0x2000 + 32 * a.toNat + 4 * m) hp (by omega) (by omega) (by omega)
  rw [readRegion_codeBits s a hm] at hbits
  exact ⟨_, hbits, fun t j ht hj => codeBitsWord_bit _ m ht hj, hbitsDropped⟩

end Sys2Proof.Machine
end

section
/-! PROOFS. The buffer windows with BUSY = 0: IBUF, OBUF and BITBUF byte by byte, wider accesses as their bytes,
and the offsets where there is nothing (20_memory.md R43, R52, R56, R58). -/

namespace Sys2Proof.Machine

/-! ### Bytes and words -/

theorem wordByte_zero (v : Word) : wordByte v 0 = BitVec.ofNat 8 v.toNat := by
  apply BitVec.eq_of_toNat_eq
  simp [wordByte_toNat]

/-- The low byte of a value that is byte `t` of `v`. -/
theorem wordByte_ofNat_byte (v : Word) (t : Nat) :
    wordByte (BitVec.ofNat 32 (v.toNat / 256 ^ t % 256)) 0 = wordByte v t := by
  apply BitVec.eq_of_toNat_eq
  simp only [wordByte_toNat, BitVec.toNat_ofNat]
  omega

/-- Byte `t` of an access's value is its `t`-th byte (20_memory.md R43). -/
theorem wordByte_wordOfBytes {bytes : List Byte} (h : bytes.length ≤ 4) {t : Nat} (ht : t < 4) :
    wordByte (wordOfBytes bytes) t = bytes.getD t 0 := by
  apply BitVec.eq_of_getLsbD_eq
  intro j hj
  rw [← wordOfBytes_bit bytes h t j ht hj, wordByte, BitVec.getLsbD_extractLsb']
  simp [hj]

theorem wordOfBytes_zeros {bytes : List Byte} (h : ∀ b ∈ bytes, b = 0) : wordOfBytes bytes = 0 := by
  induction bytes with
  | nil => rfl
  | cons b rest ih =>
    have hb : b = 0 := h b List.mem_cons_self
    have hrest : wordOfBytes rest = 0 := ih (fun c hc => h c (List.mem_cons_of_mem _ hc))
    rw [wordOfBytes, hb, hrest]
    rfl

/-! ### The bytes of an access -/

theorem sizeBytes_le (n : AccessSize) : sizeBytes n ≤ 4 := by
  cases n <;> decide

/-- An aligned access does not cross a multiple of 4. -/
theorem aligned_lt {o bound t : Nat} {n : AccessSize} (hal : o % sizeBytes n = 0) (hbound : bound % 4 = 0)
    (ho : o < bound) (ht : t < sizeBytes n) : o + t < bound := by
  cases n with
  | byte => simp only [sizeBytes] at ht; omega
  | half => simp only [sizeBytes] at hal ht; omega
  | word => simp only [sizeBytes] at hal ht; omega

theorem toNat_offset_add {o : Offset} {n : AccessSize} {t : Nat} (hal : o.toNat % sizeBytes n = 0)
    (ht : t < sizeBytes n) : (o + BitVec.ofNat 24 t).toNat = o.toNat + t := by
  have hsum := aligned_lt (bound := 2 ^ 24) hal (by decide) o.isLt ht
  rw [BitVec.toNat_add, toNat_aperture (by omega), Nat.mod_eq_of_lt hsum]

theorem accessWellFormed_byte {o : Offset} (ho : 0x100000 ≤ o.toNat) : accessWellFormed o .byte = true :=
  accessWellFormed_iff.2 ⟨Nat.mod_one _, .inl ho⟩

/-- With BUSY = 0 a read of the windows gives their bytes, the lowest address first (20_memory.md R43). -/
theorem busRead_window {s : State} {o : Offset} {n : AccessSize} (hp : s.pending = none)
    (ho : 0x100000 ≤ o.toNat) (hal : o.toNat % sizeBytes n = 0) :
    s.busRead o n = wordOfBytes ((List.range (sizeBytes n)).map
      (fun t => s.windowByte (Config.freeByte (s.freeCtr + t)) (o.toNat + t))) := by
  rw [State.busRead, if_pos (accessWellFormed_iff.2 ⟨hal, .inl ho⟩), busy_eq_false hp,
    if_neg Bool.false_ne_true, State.readIdle, if_neg (by omega)]

theorem busRead_byte {s : State} {o : Offset} (hp : s.pending = none) (ho : 0x100000 ≤ o.toNat) :
    s.busRead o .byte = (s.windowByte (Config.freeByte s.freeCtr) o.toNat).setWidth 32 :=
  (busRead_window hp ho (Nat.mod_one _)).trans (wordOfBytes_single _)

theorem readGives_byte {s : State} {o : Nat} (hp : s.pending = none) (ho : 0x100000 ≤ o) (hlt : o < 2 ^ 24) :
    ReadGives s o .byte ((s.windowByte (Config.freeByte s.freeCtr) o).setWidth 32) := by
  have hnat := toNat_aperture hlt
  have hwindow : 0x100000 ≤ (BitVec.ofNat 24 o).toNat := by omega
  refine readGives_of_busRead (accessWellFormed_byte hwindow) ?_
  rw [busRead_byte hp hwindow, hnat]

theorem writeCells_byte (s : State) (i : Nat) (v : Word) : s.writeCells i 1 v = s.writeCell i (wordByte v 0) :=
  rfl

/-- With BUSY = 0 a write to IBUF's window writes its cells (20_memory.md R52). -/
theorem busWrite_ibuf {s : State} {o : Offset} {n : AccessSize} {i : Nat} (hp : s.pending = none)
    (ho : o.toNat = 0x100000 + i) (hi : i < 0x100000) (hal : o.toNat % sizeBytes n = 0) (v : Word) :
    s.busWrite o n v = s.writeCells i (sizeBytes n) v := by
  rw [busWrite_idle hp (accessWellFormed_iff.2 ⟨hal, .inl (by omega)⟩), State.writeIdle, ho, if_neg (by omega),
    if_pos (by omega), Nat.add_sub_cancel_left]

theorem busWrite_ibuf_byte {s : State} {o : Offset} {i : Nat} (hp : s.pending = none)
    (ho : o.toNat = 0x100000 + i) (hi : i < 0x100000) (v : Word) :
    s.busWrite o .byte v = s.writeCell i (wordByte v 0) :=
  (busWrite_ibuf hp ho hi (Nat.mod_one _) v).trans (writeCells_byte s i v)

/-- With BUSY = 0 a write past IBUF's window is dropped (20_memory.md R56, R58). -/
theorem busWrite_past_ibuf {s : State} {o : Offset} {n : AccessSize} (hp : s.pending = none)
    (ho : 0x200000 ≤ o.toNat) (v : Word) : s.busWrite o n v = s := by
  by_cases hwf : accessWellFormed o n = true
  · rw [busWrite_idle hp hwf, State.writeIdle, if_neg (by omega), if_neg (by omega)]
  · exact busWrite_illFormed (by simpa using hwf) s v

theorem writeDropped_past_ibuf {s : State} {o : Nat} {n : AccessSize} (hp : s.pending = none)
    (ho : 0x200000 ≤ o) (hlt : o < 2 ^ 24) (hal : o % sizeBytes n = 0) (v : Word) : WriteDropped s o n v :=
  writeDropped_of_busWrite (accessWellFormed_aperture hlt hal (.inl (by omega)))
    (busWrite_past_ibuf hp (by rwa [toNat_aperture hlt]) v)

/-! ### What each window holds -/

theorem windowByte_ibuf {s : State} {i : Nat} (free : Byte) (hi : i < 0x100000) (hcap : i < s.params.ibufCap) :
    s.windowByte free (0x100000 + i) = (s.ibuf.read i).getD free := by
  rw [State.windowByte, if_pos (by omega), Nat.add_sub_cancel_left, if_pos hcap]

theorem windowByte_ibuf_past {s : State} {i : Nat} (free : Byte) (hi : i < 0x100000)
    (hcap : s.params.ibufCap ≤ i) : s.windowByte free (0x100000 + i) = 0 := by
  rw [State.windowByte, if_pos (by omega), Nat.add_sub_cancel_left, if_neg (by omega)]

theorem windowByte_obuf {s : State} {k : Nat} (free : Byte) (hk : k < 0x100000) :
    s.windowByte free (0x200000 + k) = s.obuf.getD k 0 := by
  rw [State.windowByte, if_neg (by omega), if_pos (by omega), Nat.add_sub_cancel_left]

theorem windowByte_bitbuf {s : State} {k : Nat} (free : Byte) (hk : k < 0x100000) :
    s.windowByte free (0x300000 + k) = seqByte s.bitbuf k := by
  rw [State.windowByte, if_neg (by omega), if_neg (by omega), if_pos (by omega), Nat.add_sub_cancel_left]

theorem windowByte_reserved {s : State} {o : Nat} (free : Byte) (ho : 0x400000 ≤ o) :
    s.windowByte free o = 0 := by
  rw [State.windowByte, if_neg (by omega), if_neg (by omega), if_neg (by omega)]

/-- Only an unwritten IBUF cell below the capacity reads as a free byte (20_memory.md R52). -/
theorem windowByte_free_irrelevant {s : State} {o : Nat}
    (hwritten : o < 0x200000 → o - 0x100000 < s.params.ibufCap → s.ibuf.read (o - 0x100000) ≠ none)
    (free free' : Byte) : s.windowByte free o = s.windowByte free' o := by
  by_cases hcell : o < 0x200000 ∧ o - 0x100000 < s.params.ibufCap
  · obtain ⟨hlt, hcap⟩ := hcell
    obtain ⟨b, hb⟩ := Option.ne_none_iff_exists'.1 (hwritten hlt hcap)
    rw [State.windowByte, State.windowByte, hb, Option.getD_some, Option.getD_some]
  · unfold State.windowByte
    split
    · next hlt => rw [if_neg (fun hcap => hcell ⟨hlt, hcap⟩), if_neg (fun hcap => hcell ⟨hlt, hcap⟩)]
    · rfl

/-! ### OBUF and BITBUF -/

/-- The bytes of a successful PACK are those of the BITBUF window, and past them the window is 0
(44_bit_packer.md R108, R109). -/
theorem execPack_obuf {s t : State} (h : execPack s = .next t) (hok : t.err = false) (k : Nat) :
    (k < t.obuf.length → t.obuf.getD k 0 = seqByte s.bitbuf k)
    ∧ (t.obuf.length ≤ k → seqByte s.bitbuf k = 0) := by
  obtain ⟨-, rfl⟩ | ⟨-, rfl⟩ := execPack_next h
  · refine ⟨packBits_getD s.bitbuf k, fun hpast => seqByte_past_end s.bitbuf k ?_⟩
    have hlen : (s.bitbuf.length + 7) / 8 ≤ k := by simpa using hpast
    omega
  · simp at hok

/-- Settles O55: the byte of the BITBUF window is `seqByte`, which is also what PACK writes. -/
theorem outputAndBitWindows : Obligations.OutputAndBitWindows := by
  intro s k hp hk
  have hobuf := readGives_byte (o := 0x200000 + k) hp (by omega) (by omega)
  have hbitbuf := readGives_byte (o := 0x300000 + k) hp (by omega) (by omega)
  rw [windowByte_obuf _ hk] at hobuf
  rw [windowByte_bitbuf _ hk] at hbitbuf
  have hdropped : ∀ o, 0x200000 ≤ o → o < 2 ^ 24 → ∀ v, WriteDropped s o .byte v :=
    fun o ho hlt v => writeDropped_past_ibuf hp ho hlt (Nat.mod_one _) v
  exact ⟨hobuf, fun v => ⟨hdropped _ (by omega) (by omega) v, hdropped _ (by omega) (by omega) v⟩,
    seqByte s.bitbuf k, hbitbuf, fun j hj => seqByte_bit s.bitbuf k j hj,
    fun t he hok => execPack_obuf he hok k⟩

/-! ### IBUF -/

/-- Settles O56, below the capacity and past it. -/
theorem inputWindow : Obligations.InputWindow := by
  intro s i hp hwf hi
  have hnat : (BitVec.ofNat 24 (0x100000 + i)).toNat = 0x100000 + i := toNat_aperture (by omega)
  have hbyte : accessWellFormed (BitVec.ofNat 24 (0x100000 + i)) .byte = true :=
    accessWellFormed_byte (by omega)
  have hwrite : ∀ v, s.busWrite (BitVec.ofNat 24 (0x100000 + i)) .byte v = s.writeCell i (wordByte v 0) :=
    fun v => busWrite_ibuf_byte hp hnat hi v
  have hread := readGives_byte (o := 0x100000 + i) hp (by omega) (by omega)
  refine ⟨fun hcap => ⟨fun v rest => ?write, fun b hb => ?written, fun hnone => ?unwritten⟩,
    fun hcap => ⟨?past, fun v => writeDropped_of_busWrite hbyte ?dropped⟩⟩
  case write =>
    refine ⟨s.ibuf.write i (wordByte v 0), ?_, Memory.write_wf i _ hwf, fun j => ?_⟩
    · rw [step_write hbyte, hwrite, State.writeCell, if_pos hcap]
    · rw [Memory.read_write, wordByte_zero]
  case written =>
    rwa [windowByte_ibuf _ hi hcap, hb] at hread
  case unwritten =>
    exact ⟨_, hread⟩
  case past =>
    rwa [windowByte_ibuf_past _ hi hcap] at hread
  case dropped =>
    rw [hwrite, State.writeCell, if_neg (by omega)]

/-! ### Wide accesses -/

theorem busRead_window_byte {s : State} {o : Offset} {n : AccessSize} (hp : s.pending = none)
    (ho : 0x100000 ≤ o.toNat) (hal : o.toNat % sizeBytes n = 0) {t : Nat} (ht : t < sizeBytes n) :
    wordByte (s.busRead o n) t = s.windowByte (Config.freeByte (s.freeCtr + t)) (o.toNat + t) := by
  have hsize := sizeBytes_le n
  rw [busRead_window hp ho hal, wordByte_wordOfBytes (by simpa using hsize) (by omega)]
  simp [List.getD, ht]

theorem writeCell_pending (s : State) (i : Nat) (b : Byte) : (s.writeCell i b).pending = s.pending := by
  unfold State.writeCell
  split <;> rfl

/-- Byte writes to IBUF's window are the cell writes of one wide access. -/
theorem foldl_busWrite_ibuf {s : State} {o : Offset} {n : AccessSize} {i : Nat} (hp : s.pending = none)
    (ho : o.toNat = 0x100000 + i) (hi : i < 0x100000) (hal : o.toNat % sizeBytes n = 0) (v : Word)
    {lanes : List Nat} (hlanes : ∀ t ∈ lanes, t < sizeBytes n) :
    lanes.foldl (fun s t =>
        s.busWrite (o + BitVec.ofNat 24 t) .byte (BitVec.ofNat 32 (v.toNat / 256 ^ t % 256))) s =
      s.writeLanes i v lanes := by
  induction lanes generalizing s with
  | nil => rfl
  | cons t lanes ih =>
    have ht : t < sizeBytes n := hlanes t List.mem_cons_self
    have hnat : (o + BitVec.ofNat 24 t).toNat = 0x100000 + (i + t) := by
      rw [toNat_offset_add hal ht, ho, Nat.add_assoc]
    have hsum := aligned_lt (bound := 0x200000) hal (by decide) (by omega) ht
    rw [List.foldl_cons, writeLanes_cons, busWrite_ibuf_byte hp hnat (by omega), wordByte_ofNat_byte]
    exact ih ((writeCell_pending s _ _).trans hp) (fun u hu => hlanes u (List.mem_cons_of_mem _ hu))

/-- Byte writes past IBUF's window are all dropped. -/
theorem foldl_busWrite_past_ibuf {s : State} {o : Offset} {n : AccessSize} (hp : s.pending = none)
    (ho : 0x200000 ≤ o.toNat) (hal : o.toNat % sizeBytes n = 0) (bytes : Nat → Word)
    {lanes : List Nat} (hlanes : ∀ t ∈ lanes, t < sizeBytes n) :
    lanes.foldl (fun s t => s.busWrite (o + BitVec.ofNat 24 t) .byte (bytes t)) s = s := by
  induction lanes with
  | nil => rfl
  | cons t lanes ih =>
    have hnat := toNat_offset_add hal (hlanes t List.mem_cons_self)
    rw [List.foldl_cons, busWrite_past_ibuf hp (by omega)]
    exact ih (fun u hu => hlanes u (List.mem_cons_of_mem _ hu))

/-- Settles O57: reads by the bytes of `wordOfBytes`, writes by the fold over the lanes. -/
theorem accessesAreLittleEndian : Obligations.AccessesAreLittleEndian := by
  intro s o n hp ho hal
  refine ⟨fun hwritten t ht => ?read, fun v => ?write⟩
  case read =>
    have hnat := toNat_offset_add hal ht
    rw [← wordByte_toNat, busRead_window_byte hp ho hal ht, busRead_byte hp (by omega), hnat,
      windowByte_free_irrelevant (hwritten t ht) _ (Config.freeByte s.freeCtr),
      BitVec.toNat_setWidth_of_le (by decide)]
  case write =>
    have hlanes : ∀ t ∈ List.range (sizeBytes n), t < sizeBytes n := fun t ht => List.mem_range.1 ht
    by_cases hlt : o.toNat < 0x200000
    · obtain ⟨i, hi⟩ := Nat.exists_eq_add_of_le ho
      rw [foldl_busWrite_ibuf hp hi (by omega) hal v hlanes, busWrite_ibuf hp hi (by omega) hal,
        writeCells_eq_writeLanes]
    · rw [busWrite_past_ibuf hp (by omega), foldl_busWrite_past_ibuf hp (by omega) hal _ hlanes]

/-! ### Where there is nothing -/

/-- The window bytes at and past a capacity, and past the windows (20_memory.md R52, R56, R58). -/
def PastCapacity (p : Config.Params) (o : Nat) : Prop :=
  0x400000 ≤ o
  ∨ (0x100000 + p.ibufCap ≤ o ∧ o < 0x200000)
  ∨ (0x200000 + p.obufCap ≤ o ∧ o < 0x300000)
  ∨ (0x300000 + p.bitbufCap / 8 ≤ o ∧ o < 0x400000)

theorem PastCapacity.add {p : Config.Params} {o t : Nat} {n : AccessSize} (h : PastCapacity p o)
    (hal : o % sizeBytes n = 0) (ht : t < sizeBytes n) : PastCapacity p (o + t) := by
  obtain hpast | ⟨hlow, hhigh⟩ | ⟨hlow, hhigh⟩ | ⟨hlow, hhigh⟩ := h
  · exact .inl (by omega)
  · exact .inr (.inl ⟨by omega, aligned_lt hal (by decide) hhigh ht⟩)
  · exact .inr (.inr (.inl ⟨by omega, aligned_lt hal (by decide) hhigh ht⟩))
  · exact .inr (.inr (.inr ⟨by omega, aligned_lt hal (by decide) hhigh ht⟩))

theorem PastCapacity.window {p : Config.Params} {o : Nat} (h : PastCapacity p o) : 0x100000 ≤ o := by
  unfold PastCapacity at h
  omega

/-- BITBUF holds whole bytes (00_scope.md R7). -/
theorem params_wellFormed_bitbufCap {p : Config.Params} (h : p.wellFormed = true) : p.bitbufCap % 8 = 0 := by
  simp only [Config.Params.wellFormed, Bool.and_eq_true, decide_eq_true_eq] at h
  obtain ⟨-, hmod⟩ := h
  exact hmod

/-- Inv's bounds on OBUF and BITBUF make every byte past a capacity 0. -/
theorem Inv.windowByte_past {s : State} (h : Inv s) {o : Nat} (ho : PastCapacity s.params o) (free : Byte) :
    s.windowByte free o = 0 := by
  obtain hpast | ⟨hlow, hhigh⟩ | ⟨hlow, hhigh⟩ | ⟨hlow, hhigh⟩ := ho
  · exact windowByte_reserved free hpast
  · obtain ⟨i, rfl⟩ := Nat.exists_eq_add_of_le (show 0x100000 ≤ o by omega)
    exact windowByte_ibuf_past free (by omega) (by omega)
  · obtain ⟨k, rfl⟩ := Nat.exists_eq_add_of_le (show 0x200000 ≤ o by omega)
    have hlen := h.obuf
    rw [windowByte_obuf free (by omega), List.getD_eq_default _ _ (by omega)]
  · obtain ⟨k, rfl⟩ := Nat.exists_eq_add_of_le (show 0x300000 ≤ o by omega)
    have hlen := h.bitbuf
    have hmod := params_wellFormed_bitbufCap h.params
    rw [windowByte_bitbuf free (by omega), seqByte_past_end _ _ (by omega)]

/-- Cell writes at and past IBUF_CAP are dropped (20_memory.md R52). -/
theorem writeCells_past {s : State} {i : Nat} (hi : s.params.ibufCap ≤ i) (n : Nat) (v : Word) :
    s.writeCells i n v = s := by
  refine List.foldl_fixed' (fun t => ?_) _
  rw [State.writeCell, if_neg (by omega)]

theorem Inv.readOnly_pastCapacity {s : State} (h : Inv s) {o : Nat} {n : AccessSize} (hp : s.pending = none)
    (hlt : o < 2 ^ 24) (hal : o % sizeBytes n = 0) (ho : PastCapacity s.params o) :
    ReadGives s o n 0 ∧ ∀ v, WriteDropped s o n v := by
  have hnat := toNat_aperture hlt
  have hwindow := ho.window
  have hwf := accessWellFormed_aperture hlt hal (.inl hwindow)
  refine ⟨readGives_of_busRead hwf ?_, fun v => ?_⟩
  · rw [busRead_window hp (by omega) (by rwa [hnat]), hnat]
    refine wordOfBytes_zeros (fun b hb => ?_)
    obtain ⟨t, ht, rfl⟩ := List.mem_map.1 hb
    exact h.windowByte_past (ho.add hal (List.mem_range.1 ht)) _
  · by_cases hibuf : o < 0x200000
    · obtain ⟨i, rfl⟩ := Nat.exists_eq_add_of_le hwindow
      have hcap : s.params.ibufCap ≤ i := by
        unfold PastCapacity at ho
        omega
      refine writeDropped_of_busWrite hwf ?_
      rw [busWrite_ibuf hp hnat (by omega) (by rwa [hnat]), writeCells_past hcap]
    · exact writeDropped_past_ibuf hp (by omega) hlt hal v

/-- Settles O58, in the register region and in the windows. -/
theorem reservedOffsetsReadZero : Obligations.ReservedOffsetsReadZero := by
  intro s o n hp h hlt hal ho
  obtain ⟨rfl, hregion⟩ | hpast := ho
  · have hreserved := readOnly_region (o := o) hp (by omega) (by omega) hal
    rwa [readRegion_reserved s hregion] at hreserved
  · exact h.readOnly_pastCapacity hp hlt hal hpast

end Sys2Proof.Machine
end

section
/-! PROOFS. The command word: what the decoder answers on every word, the opcode map and the illegal words
(30_encoding.md R67, R70–R72). -/

namespace Sys2Proof.Machine

/-! ### The fields of a word -/

/-- The three fields make up the word (30_encoding.md R67). -/
theorem fields_append (w : Word) : reservedField w ++ BitVec.ofBool (trimField w) ++ opField w = w := by
  ext k hk
  simp only [reservedField, trimField, opField, BitVec.getElem_append, BitVec.getElem_extractLsb',
    BitVec.getElem_ofBool]
  split
  · rw [Nat.zero_add, BitVec.getLsbD_eq_getElem]
  · split
    · next hop htrim =>
      obtain rfl : k = 4 := by omega
      rfl
    · next hop htrim =>
      rw [show 5 + (k - 4 - 1) = k by omega, BitVec.getLsbD_eq_getElem]

theorem opField_toNat (w : Word) : (opField w).toNat = w.toNat % 16 := by
  rw [opField, BitVec.extractLsb'_toNat, Nat.shiftRight_zero]

theorem reservedField_eq_zero_iff (w : Word) : reservedField w = 0 ↔ w.toNat / 32 = 0 := by
  have hw := w.isLt
  have hzero : (0 : BitVec 27).toNat = 0 := rfl
  rw [← BitVec.toNat_inj, hzero, reservedField, BitVec.extractLsb'_toNat, Nat.shiftRight_eq_div_pow]
  omega

/-! ### The decoder -/

/-- Word `w` has the fields of command `i`'s row (30_encoding.md R70). -/
structure FieldsOf (i : Instr) (w : Word) : Prop where
  reserved : reservedField w = 0
  trim : BitVec.ofBool (trimField w) = trimOf i
  op : opField w = opOf i

/-- The three items of 30_encoding.md R72. -/
def IllegalFields (w : Word) : Prop :=
  ((opField w).toNat = 0 ∨ 0xA ≤ (opField w).toNat) ∨ reservedField w ≠ 0
    ∨ (trimField w = true ∧ opField w ≠ 0x7)

/-- Everything the decoder can answer (30_encoding.md R71). -/
theorem decode_cases (w : Word) :
    (∃ i, decode w = .ok i ∧ FieldsOf i w) ∨ ∃ e, decode w = .error e ∧ IllegalFields w := by
  by_cases hres : reservedField w = 0
  case neg => exact .inr ⟨.reservedBits, by rw [decode, if_pos hres], .inr (.inl hres)⟩
  by_cases htrim : trimField w = true ∧ opField w ≠ 0x7
  case pos => exact .inr ⟨.trimFlag, by rw [decode, if_neg (not_not.2 hres), if_pos htrim], .inr (.inr htrim)⟩
  have plain : ∀ i, trimOf i = 0 → opOf i ≠ 0x7 → (opField w).toNat = (opOf i).toNat → FieldsOf i w := by
    intro i hi hne hop
    have hop := BitVec.eq_of_toNat_eq hop
    have ht : trimField w = false := Bool.eq_false_iff.2 (fun ht => htrim ⟨ht, hop ▸ hne⟩)
    exact ⟨hres, by rw [ht, hi]; rfl, hop⟩
  rw [decode, if_neg (not_not.2 hres), if_neg htrim]
  split
  · next hop => exact .inl ⟨.freq, rfl, plain _ rfl (by decide) hop⟩
  · next hop => exact .inl ⟨.tree, rfl, plain _ rfl (by decide) hop⟩
  · next hop => exact .inl ⟨.codes, rfl, plain _ rfl (by decide) hop⟩
  · next hop => exact .inl ⟨.build, rfl, plain _ rfl (by decide) hop⟩
  · next hop => exact .inl ⟨.encode, rfl, plain _ rfl (by decide) hop⟩
  · next hop => exact .inl ⟨.pack, rfl, plain _ rfl (by decide) hop⟩
  · next hop =>
    have hop : opField w = 0x7 := BitVec.eq_of_toNat_eq hop
    split
    · next ht => exact .inl ⟨.unpackT, rfl, hres, by rw [ht]; rfl, hop⟩
    · next ht => exact .inl ⟨.unpack, rfl, hres, by rw [Bool.eq_false_iff.2 ht]; rfl, hop⟩
  · next hop => exact .inl ⟨.decode, rfl, plain _ rfl (by decide) hop⟩
  · next hop => exact .inl ⟨.clear, rfl, plain _ rfl (by decide) hop⟩
  · refine .inr ⟨.opcode, rfl, .inl ?_⟩
    simp only [imp_false] at *
    omega

theorem FieldsOf.encode_eq {i : Instr} {w : Word} (h : FieldsOf i w) : encode i = w := by
  rw [encode, ← h.reserved, ← h.trim, ← h.op, fields_append]

/-- No row of the opcode map is one of R72's items. -/
theorem FieldsOf.not_illegal {i : Instr} {w : Word} (h : FieldsOf i w) : ¬ IllegalFields w := by
  obtain ⟨hres, htrim, hop⟩ := h
  have hrow : ((opOf i).toNat ≠ 0 ∧ (opOf i).toNat < 0xA) ∧ (trimOf i = 1 → opOf i = 0x7) := by
    cases i <;> decide
  obtain ⟨⟨hpos, hlt⟩, hseven⟩ := hrow
  rw [IllegalFields, hop]
  rintro ((hzero | hhigh) | hne | ⟨ht, hne⟩)
  · exact hpos hzero
  · omega
  · exact hne hres
  · exact hne (hseven (by rw [← htrim, ht]; rfl))

theorem decode_encode (i : Instr) : decode (encode i) = .ok i := by
  cases i <;> rfl

/-- The decoder inverts the encoder on every word (30_encoding.md R70). -/
theorem decode_eq_ok_iff {w : Word} {i : Instr} : decode w = .ok i ↔ encode i = w := by
  constructor
  · intro h
    obtain ⟨j, hj, hfields⟩ | ⟨e, he, -⟩ := decode_cases w
    · obtain rfl : j = i := Except.ok.inj (hj.symm.trans h)
      exact hfields.encode_eq
    · rw [he] at h
      contradiction
  · rintro rfl
    exact decode_encode i

/-- The decoder refuses exactly the words with illegal fields (30_encoding.md R72). -/
theorem decode_error_iff (w : Word) : (∃ e, decode w = .error e) ↔ IllegalFields w := by
  obtain ⟨i, hi, hfields⟩ | ⟨e, he, hillegal⟩ := decode_cases w
  · simp [hi, hfields.not_illegal]
  · exact iff_of_true ⟨e, he⟩ hillegal

/-! ### The opcode map -/

/-- The opcode map pairs each command with its encoding and nothing else (30_encoding.md R70). -/
theorem mem_opcodeMap_iff {w : Word} {i : Instr} : (w, i) ∈ opcodeMap ↔ encode i = w := by
  constructor
  · have hrows : ∀ row ∈ opcodeMap, encode row.2 = row.1 := by decide
    exact hrows (w, i)
  · rintro rfl
    cases i <;> decide

/-- The two UNPACK rows differ in the T bit alone (30_encoding.md R70). -/
theorem and_mask_eq_seven_iff (w : Word) : w &&& 0xFFFFFFEF = 0x00000007 ↔ w = 0x07 ∨ w = 0x17 := by
  constructor
  · intro h
    have hsplit : w = (w &&& 0xFFFFFFEF) ||| (w &&& BitVec.twoPow 32 4) := by
      rw [← BitVec.and_or_distrib_left]
      exact (BitVec.and_allOnes).symm
    rw [h, BitVec.and_twoPow] at hsplit
    split at hsplit
    · exact .inr hsplit
    · exact .inl hsplit
  · rintro (rfl | rfl) <;> rfl

/-- Settles O3: each row's word is the encoding of its command. -/
theorem tableWordsDecode : Obligations.TableWordsDecode :=
  fun _ hrow => decode_eq_ok_iff.2 (mem_opcodeMap_iff.1 hrow)

/-- Settles O4: decoding to `i`, standing in the row of `i` and being the encoding of `i` are the same. -/
theorem decodeInvertsEncodeOnAllWords : Obligations.DecodeInvertsEncodeOnAllWords := by
  intro w
  have hmem : ∀ i, (w, i) ∈ opcodeMap ↔ decode w = .ok i :=
    fun i => mem_opcodeMap_iff.trans decode_eq_ok_iff.symm
  refine ⟨fun i => ⟨decode_eq_ok_iff, (hmem i).symm⟩, ?unpack, fun i j hi hj => ?unique, ?illegal⟩
  case unpack =>
    rw [and_mask_eq_seven_iff, decode_eq_ok_iff, decode_eq_ok_iff, eq_comm, @eq_comm _ w]
    rfl
  case unique =>
    exact Except.ok.inj (((hmem i).1 hi).symm.trans ((hmem j).1 hj))
  case illegal =>
    simp only [hmem]
    cases decode w <;> simp

/-- Settles O5: R72's items on the number of the word are those on its fields, and the block's turn performs the
pending word. -/
theorem illegalWordsFailAndChangeNothing : Obligations.IllegalWordsFailAndChangeNothing := by
  refine ⟨fun w => ?_, fun s w rest hagenda hpending ⟨e, he⟩ => ?_⟩
  · have hop : opField w = 0x7 ↔ w.toNat % 16 = 0x7 := by
      rw [← opField_toNat, ← BitVec.toNat_inj]
      rfl
    rw [decode_error_iff, IllegalFields, opField_toNat, ne_eq, reservedField_eq_zero_iff, ne_eq, hop]
    rfl
  · have hturn : blockTurn { s with agenda := rest } = performWord w { s with agenda := rest } :=
      blockTurn_pending hpending
    rw [step_cons hagenda, takeTurn, hturn, performWord_illegal he]

end Sys2Proof.Machine
end

section
/-! PROOFS. What a command can write (30_encoding.md R69). -/

namespace Sys2Proof.Machine

/-- Settles O11, command by command: apart from its destination, each next state is built from the fields of `s`. -/
theorem commandsWriteOnlyTheirDestination : Obligations.CommandsWriteOnlyTheirDestination := by
  intro i s t h
  cases i with
  | freq =>
    obtain ⟨bytes, -, rfl⟩ := execFreq_next h
    rfl
  | tree => obtain ⟨-, rfl⟩ | ⟨-, rfl⟩ := execTree_next h <;> rfl
  | codes => obtain ⟨-, rfl⟩ | ⟨-, rfl⟩ := execCodes_next h <;> rfl
  | build => obtain ⟨bytes, -, ⟨-, rfl⟩ | ⟨-, rfl⟩⟩ := execBuild_next h <;> rfl
  | encode =>
    obtain ⟨-, rfl⟩ | ⟨bits, -, -, -, rfl⟩ | ⟨pos, -, -, ⟨-, rfl⟩ | ⟨-, rfl⟩⟩ := execEncode_next h <;>
      rfl
  | pack => obtain ⟨-, rfl⟩ | ⟨-, rfl⟩ := execPack_next h <;> rfl
  | unpack => obtain ⟨-, rfl⟩ | ⟨bits, -, -, -, rfl⟩ := execUnpack_next h <;> rfl
  | unpackT => obtain ⟨-, rfl⟩ | ⟨-, ⟨-, rfl⟩ | ⟨bits, -, -, -, rfl⟩⟩ := execUnpackT_next h <;> rfl
  | decode =>
    obtain ⟨-, rfl⟩ | ⟨bytes, -, -, -, rfl⟩ | ⟨e, pos, -, -, -, rfl⟩ := execDecode_next h <;> rfl
  | clear =>
    obtain rfl := execClear_next h
    rfl

end Sys2Proof.Machine
end

section
/-! PROOFS. The tree builder family: what FREQ, TREE and BUILD leave, and what the tree of a frequency table is
(40_tree_builder.md R81–R92). -/

namespace Sys2Proof.Machine

/-! ### FREQ -/

theorem freqBody_of_input {s : State} {bytes : List Byte} (hin : s.InputIs bytes) :
    freqBody s = .ok { s with freq := countBytes bytes } := by
  rw [freqBody, readInput_inputIs hin, ofRun_ok]

/-- Settles O17: the count of the bytes read, entry by entry. -/
theorem freqCountsInput : Obligations.FreqCountsInput := by
  intro s bytes hin
  refine ⟨countBytes bytes, ?_, countBytes_get bytes⟩
  rw [exec, execFreq, freqBody_of_input hin, finish_ok]

/-- FREQ and BUILD leave the counts of their input (40_tree_builder.md R81, R90). -/
theorem exec_counts {i : Instr} (hi : i = .freq ∨ i = .build) {s t : State} (h : exec i s = .next t) :
    ∃ bytes, s.InputIs bytes ∧ t.freq = countBytes bytes := by
  obtain rfl | rfl := hi
  · obtain ⟨bytes, hin, rfl⟩ := execFreq_next h
    exact ⟨bytes, hin, rfl⟩
  · obtain ⟨bytes, hin, ⟨-, rfl⟩ | ⟨-, rfl⟩⟩ := execBuild_next h
    · exact ⟨bytes, hin, rfl⟩
    · exact ⟨bytes, hin, rfl⟩

/-- The counts of an input whose length fits a register sum to that length (40_tree_builder.md R83). -/
theorem exec_freqTotal {i : Instr} (hi : i = .freq ∨ i = .build) {s t : State} (hlen : s.ibufLen < 2 ^ 32)
    (h : exec i s = .next t) : freqTotal t.freq = s.ibufLen := by
  obtain ⟨bytes, ⟨hbytes, -⟩, hfreq⟩ := exec_counts hi h
  rw [hfreq, hbytes]
  exact freqTotal_countBytes (hbytes ▸ hlen)

/-- Settles O18: IBUF_LEN fits a register. -/
theorem frequenciesSumToInputLength : Obligations.FrequenciesSumToInputLength := by
  intro s t hcap h
  have hlen : s.ibufLen < 2 ^ 32 := by omega
  obtain h | h := h
  · exact exec_freqTotal (.inl rfl) hlen h
  · exact exec_freqTotal (.inr rfl) hlen h

/-! ### The alphabet -/

/-- The alphabet is the one increasing list of the symbols with a count (40_tree_builder.md R84). -/
theorem eq_alphabet {freq : Table Word} {symbols : List Byte}
    (hsorted : symbols.Pairwise (fun a b => a.toNat < b.toNat)) (hmem : ∀ a, a ∈ symbols ↔ freq.get a ≠ 0) :
    symbols = alphabet freq := by
  have hnodup : ∀ {l : List Byte}, l.Pairwise (fun a b => a.toNat < b.toNat) → l.Nodup :=
    fun h => h.imp (fun hlt e => by simp [e] at hlt)
  have hperm : symbols.Perm (alphabet freq) :=
    (List.perm_ext_iff_of_nodup (hnodup hsorted) (hnodup (alphabet_sorted freq))).2
      (fun a => (hmem a).trans (mem_alphabet freq a).symm)
  exact hperm.eq_of_pairwise (fun a b _ _ hab hba => absurd hab (by omega)) hsorted (alphabet_sorted freq)

theorem alphabet_eq_singleton {freq : Table Word} {a : Byte} (ha : freq.get a ≠ 0)
    (hother : ∀ b, b ≠ a → freq.get b = 0) : alphabet freq = [a] := by
  refine (eq_alphabet (List.pairwise_singleton _ a) (fun b => ?_)).symm
  rw [List.mem_singleton]
  constructor
  · rintro rfl
    exact ha
  · exact fun hb => not_imp_comm.1 (hother b) hb

theorem alphabet_eq_nil_iff (freq : Table Word) : alphabet freq = [] ↔ ∀ a, freq.get a = 0 := by
  simp [List.eq_nil_iff_forall_not_mem, mem_alphabet]

/-- The alphabet of a buffer is empty exactly when the buffer is (40_tree_builder.md R89). -/
theorem alphabet_countBytes_eq_nil_iff {bytes : List Byte} (h : bytes.length < 2 ^ 32) :
    alphabet (countBytes bytes) = [] ↔ bytes = [] := by
  rw [List.eq_nil_iff_forall_not_mem, List.eq_nil_iff_forall_not_mem]
  exact forall_congr' (fun a => not_congr ((mem_alphabet _ a).trans (countBytes_ne_zero h a)))

/-! ### The tree of a frequency table -/

/-- Merging only appends nodes (40_tree_builder.md R85), whatever the arena and the working set hold. -/
theorem prefix_mergeLoop (fuel : Nat) (nodes : List Node) (q : List Nat) : nodes <+: mergeLoop fuel nodes q := by
  fun_induction mergeLoop fuel nodes q with
  | case1 | case2 | case3 | case4 => exact List.prefix_rfl
  | case5 _ _ _ _ _ _ _ _ _ _ _ _ ih => exact (List.prefix_append _ _).trans ih

/-- The k-th leaf is the k-th symbol of the alphabet, also where a merged weight wraps (40_tree_builder.md R84). -/
theorem buildTree_seeded {freq : Table Word} {k : Nat} {a : Byte} (ha : (alphabet freq)[k]? = some a) :
    (buildTree freq)[k]? = some (.leaf a (freq.get a)) := by
  have hk : k < (seedLeaves freq).length := by
    rw [seedLeaves_length]
    exact (List.getElem?_eq_some_iff.1 ha).1
  obtain ⟨merges, hmerges⟩ : seedLeaves freq <+: buildTree freq := prefix_mergeLoop _ _ _
  rw [← hmerges, List.getElem?_append_left hk, seedLeaves_getElem?, ha, Option.map_some]

theorem buildTree_singleton {freq : Table Word} {a : Byte} (h : alphabet freq = [a]) :
    buildTree freq = [.leaf a (freq.get a)] := by
  rw [buildTree, seedLeaves, h]
  rfl

/-- A working set of one handle holds the root, which carries all the weight (40_tree_builder.md R86). -/
theorem Merging.rootHandle_weight {n total root : Nat} {nodes : List Node} (inv : Merging n total nodes [root]) :
    weightOf nodes (rootHandle nodes) = total := by
  rw [← merging_root inv]
  simpa using inv.weight

section
variable {freq : Table Word} (hne : alphabet freq ≠ []) (hwrap : freqTotal freq < 2 ^ 32)
include hne hwrap

/-- The Leaf at handle `h` is that of the alphabet's `h`-th symbol, and there is no other (40_tree_builder.md R84). -/
theorem buildTree_leafSym_iff (h : Nat) (a : Byte) :
    leafSym (buildTree freq) h = some a ↔ (alphabet freq)[h]? = some a := by
  have hleaf : ∀ b, (alphabet freq)[h]? = some b → leafSym (buildTree freq) h = some b := by
    intro b hb
    rw [leafSym, buildTree_leaf hne hwrap hb]
  refine ⟨fun ha => ?_, hleaf a⟩
  have hlt := (buildTree_shape hne hwrap).leaf_lt ha
  rw [buildTree_leafCount hne hwrap] at hlt
  have hb := List.getElem?_eq_getElem hlt
  rw [hb, ← hleaf _ hb, ha]

theorem buildTree_leaf_weight {h : Nat} {a : Byte} (ha : leafSym (buildTree freq) h = some a) :
    weightOf (buildTree freq) h = (freq.get a).toNat := by
  rw [weightOf, buildTree_leaf hne hwrap ((buildTree_leafSym_iff hne hwrap h a).1 ha)]

/-- The Leaves' symbols are the alphabet (40_tree_builder.md R84). -/
theorem exists_buildTree_leafSym_iff (a : Byte) :
    (∃ h, leafSym (buildTree freq) h = some a) ↔ freq.get a ≠ 0 := by
  simp only [buildTree_leafSym_iff hne hwrap, ← List.mem_iff_getElem?, mem_alphabet]

/-- The weights of the Leaves sum to the sum of the counts (40_tree_builder.md R86). -/
theorem buildTree_leaf_weights :
    ((List.range (alphabet freq).length).map (weightOf (buildTree freq))).sum = freqTotal freq := by
  obtain ⟨root, -, hkeep⟩ := buildTree_merging hne hwrap
  rw [← alphabet_total, ← seed_weights]
  refine congrArg List.sum (List.map_congr_left (fun k hk => ?_))
  rw [weightOf, weightOf, hkeep k (List.mem_range.1 hk)]

/-- The nodes after the Leaves are Internal (40_tree_builder.md R86). -/
theorem buildTree_internal {h : Nat} (hge : (alphabet freq).length ≤ h)
    (hlt : h < 2 * (alphabet freq).length - 1) :
    ∃ w l r, (buildTree freq)[h]? = some (.internal w l r) := by
  obtain ⟨root, inv, -⟩ := buildTree_merging hne hwrap
  obtain ⟨l, r, hc, -⟩ := inv.internals h hge (by rwa [buildTree_length hne hwrap])
  obtain ⟨w, bl, br, hnode, -, -⟩ := children_eq_some hc
  exact ⟨w, bl, br, hnode⟩

end

/-! ### TREE -/

theorem treeBody_of_alphabet {s : State} (hne : alphabet s.freq ≠ []) : treeBody s = .ok s.withTree := by
  obtain ⟨-, hb⟩ | ⟨he, -⟩ := treeBody_cases s
  · exact hb
  · exact absurd he hne

theorem treeBody_of_no_alphabet {s : State} (he : alphabet s.freq = []) :
    treeBody s = .raised s.withoutTree .emptyAlphabet 0 := by
  obtain ⟨hne, -⟩ | ⟨-, hb⟩ := treeBody_cases s
  · exact absurd he hne
  · exact hb

/-- The completion of a TREE or BUILD that finds no symbol (40_tree_builder.md R89, 60_exceptions.md R125). -/
theorem finish_emptyAlphabet (s : State) : finish (.raised s .emptyAlphabet 0) = .next (s.failed 0x02 0) := by
  rw [finish_raised, complete_error _ _ (by decide), ErrorCode.number]

theorem execTree_of_alphabet {s : State} (hne : alphabet s.freq ≠ []) :
    execTree s = .next s.withTree.succeeded := by
  rw [execTree, treeBody_of_alphabet hne, finish_ok]

theorem execTree_of_no_alphabet {s : State} (he : alphabet s.freq = []) :
    execTree s = .next (s.withoutTree.failed 0x02 0) := by
  rw [execTree, treeBody_of_no_alphabet he, finish_emptyAlphabet]

/-- Settles O19: the given symbols are the alphabet, and merging leaves the seeded Leaves where they are. -/
theorem treeSeedsLeavesInSymbolOrder : Obligations.TreeSeedsLeavesInSymbolOrder := by
  intro s symbols hne hsorted hmem
  obtain rfl := eq_alphabet hsorted hmem
  exact ⟨buildTree s.freq, execTree_of_alphabet hne, fun k a => buildTree_seeded⟩

/-- A TREE or BUILD that succeeds leaves the tree of the counts it leaves (40_tree_builder.md R85, R90). -/
theorem exec_success_tree {i : Instr} (hi : i = .tree ∨ i = .build) {s t : State} (h : exec i s = .next t)
    (hok : t.err = false) : alphabet t.freq ≠ [] ∧ t.treeValid = true ∧ t.nodes = buildTree t.freq := by
  obtain rfl | rfl := hi
  · obtain ⟨hne, rfl⟩ | ⟨-, rfl⟩ := execTree_next h
    · exact ⟨hne, rfl, rfl⟩
    · cases hok
  · obtain ⟨bytes, -, ⟨hne, rfl⟩ | ⟨-, rfl⟩⟩ := execBuild_next h
    · exact ⟨hne, rfl, rfl⟩
    · cases hok

/-- Settles O20: the tree left is the tree of the counts. -/
theorem treeResultShape : Obligations.TreeResultShape := by
  intro i s t hi h hok hwrap
  obtain ⟨hne, hvalid, hnodes⟩ := exec_success_tree hi h hok
  have hlen : t.nodes.length = 2 * (alphabet t.freq).length - 1 := hnodes ▸ buildTree_length hne hwrap
  obtain ⟨root, inv, -⟩ := buildTree_merging hne hwrap
  have hweight : t.rootWeight = freqTotal t.freq := by
    rw [State.rootWeight, if_pos hvalid, hnodes, inv.rootHandle_weight]
  refine ⟨(alphabet t.freq).length, rfl, List.length_pos_iff.2 hne, hlen, ?leaves, ?internals, ?root, ?sum,
    hweight, ?input⟩
  case leaves =>
    intro k hk
    exact ⟨_, _, hnodes ▸ buildTree_leaf hne hwrap (List.getElem?_eq_getElem hk)⟩
  case internals =>
    intro k hge hlt
    exact hnodes ▸ buildTree_internal hne hwrap hge hlt
  case root =>
    rw [State.root, if_pos hvalid, rootHandle, hlen]
    omega
  case sum =>
    rw [hweight, hnodes, buildTree_leaf_weights hne hwrap]
  case input =>
    intro hbuild hinput
    rw [hweight, exec_freqTotal (.inr hbuild) hinput h]

/-- Settles O21: every Internal node was made by the merge loop, whose invariant keeps `LeastPair`. -/
theorem treeMergesTheTwoLeastKeys : Obligations.TreeMergesTheTwoLeastKeys := by
  intro s t h hok hwrap k hge hlt
  obtain ⟨hne, rfl⟩ | ⟨-, rfl⟩ := execTree_next h
  · obtain ⟨root, inv, -⟩ := buildTree_merging hne hwrap
    exact inv.least k (buildTree_leafCount hne hwrap ▸ hge) hlt
  · cases hok

/-- Settles O22: on one symbol the working set is a single handle, and there is nothing to merge. -/
theorem treeOfOneSymbolAndOfNone : Obligations.TreeOfOneSymbolAndOfNone := by
  refine ⟨fun s a ha hother => ?one, fun s hzero => execTree_of_no_alphabet ((alphabet_eq_nil_iff _).2 hzero)⟩
  have halpha := alphabet_eq_singleton ha hother
  refine ⟨_, execTree_of_alphabet (by simp [halpha]), ?_⟩
  rw [State.withTree, buildTree_singleton halpha]
  exact ⟨rfl, rfl, rfl⟩

/-! ### BUILD -/

theorem buildBody_of_input {s : State} {bytes : List Byte} (hin : s.InputIs bytes) :
    buildBody s = (treeBody { s with freq := countBytes bytes }).andThen codesBody := by
  rw [buildBody, freqBody_of_input hin, andThen_ok]

theorem execBuild_of_alphabet {s : State} {bytes : List Byte} (hin : s.InputIs bytes)
    (hne : alphabet (countBytes bytes) ≠ []) :
    execBuild s = .next { s with freq := countBytes bytes }.withTree.withCodes.succeeded := by
  rw [execBuild, buildBody_of_input hin, treeBody_of_alphabet hne, andThen_ok]
  exact execCodes_of_valid rfl

theorem execBuild_of_no_alphabet {s : State} {bytes : List Byte} (hin : s.InputIs bytes)
    (he : alphabet (countBytes bytes) = []) :
    execBuild s = .next ({ s with freq := countBytes bytes }.withoutTree.failed 0x02 0) := by
  rw [execBuild, buildBody_of_input hin, treeBody_of_no_alphabet he, andThen_raised, finish_emptyAlphabet]

/-- Settles O23: TREE reads only FREQ, and the counts of two inputs with the same symbols are equal. -/
theorem treeDependsOnlyOnFrequencies : Obligations.TreeDependsOnlyOnFrequencies := by
  refine ⟨fun s s' t t' hfreq ht ht' => ?tree, fun s s' t t' bytes bytes' hin hin' hperm ht ht' => ?build⟩
  case tree =>
    obtain ⟨hne, rfl⟩ | ⟨he, rfl⟩ := execTree_next ht
    · cases (execTree_of_alphabet (hfreq ▸ hne)).symm.trans ht'
      exact ⟨congrArg buildTree hfreq, rfl⟩
    · cases (execTree_of_no_alphabet (hfreq ▸ he)).symm.trans ht'
      exact ⟨rfl, rfl⟩
  case build =>
    have hcounts := countBytes_perm hperm
    by_cases he : alphabet (countBytes bytes) = []
    · cases (execBuild_of_no_alphabet hin he).symm.trans ht
      cases (execBuild_of_no_alphabet hin' (hcounts ▸ he)).symm.trans ht'
      exact ⟨hcounts, rfl, rfl⟩
    · cases (execBuild_of_alphabet hin he).symm.trans ht
      cases (execBuild_of_alphabet hin' (hcounts ▸ he)).symm.trans ht'
      have htree := congrArg buildTree hcounts
      exact ⟨hcounts, htree, congrArg codeTable htree⟩

/-- Settles O24: the tree is that of the input's counts, whose alphabet is empty on empty input only. -/
theorem buildMakesTreeAndCodes : Obligations.BuildMakesTreeAndCodes := by
  intro s bytes hin hcap
  have hlen : bytes.length < 2 ^ 32 := by omega
  refine ⟨fun hbytes => ?nonempty, ?empty⟩
  case nonempty =>
    have hne : alphabet (countBytes bytes) ≠ [] := mt (alphabet_countBytes_eq_nil_iff hlen).1 hbytes
    have htotal := freqTotal_countBytes hlen
    have hwrap : freqTotal (countBytes bytes) < 2 ^ 32 := htotal ▸ hlen
    obtain ⟨root, inv, -⟩ := buildTree_merging hne hwrap
    have shape := buildTree_shape hne hwrap
    have hsymbols : ∀ a, (∃ h, leafSym (buildTree (countBytes bytes)) h = some a) ↔ a ∈ bytes :=
      fun a => (exists_buildTree_leafSym_iff hne hwrap a).trans (countBytes_ne_zero hlen a)
    refine ⟨countBytes bytes, buildTree (countBytes bytes), codeTable (buildTree (countBytes bytes)),
      execBuild_of_alphabet hin hne, countBytes_get bytes, shape, hsymbols, fun k a ha => ?leaf,
      inv.rootHandle_weight.trans htotal, fun a => (codeTable_ne_nil_iff shape a).trans (hsymbols a)⟩
    case leaf =>
      exact ⟨(buildTree_leaf_weight hne hwrap ha).trans (countBytes_toNat hlen a), codeTable_of_leaf shape ha⟩
  case empty =>
    rintro rfl
    exact execBuild_of_no_alphabet hin ((alphabet_countBytes_eq_nil_iff hlen).2 rfl)

/-- Settles O25: BUILD's body is the three bodies in turn, and a failed TREE leaves CODES without a tree. -/
theorem buildIsFreqThenTreeThenCodes : Obligations.BuildIsFreqThenTreeThenCodes := by
  intro s s1 s2 s3 hfreq htree hcodes
  obtain ⟨bytes, hin, rfl⟩ := execFreq_next hfreq
  obtain ⟨hne, rfl⟩ | ⟨he, rfl⟩ := execTree_next htree
  · obtain ⟨-, rfl⟩ | ⟨hno, -⟩ := execCodes_next hcodes
    · exact ⟨_, execBuild_of_alphabet hin hne, fun _ => rfl, fun herr => (Bool.false_ne_true herr).elim, rfl⟩
    · cases hno
  · obtain ⟨hv, -⟩ | ⟨-, rfl⟩ := execCodes_next hcodes
    · cases hv
    · exact ⟨_, execBuild_of_no_alphabet hin he, fun hok => (Bool.false_ne_true hok.symm).elim, fun _ => rfl, rfl⟩

end Sys2Proof.Machine
end

section
/-! PROOFS. The code generator: the code table CODES leaves, and the sums over its code lengths
(41_code_generator.md R93–R97). -/

namespace Sys2Proof.Machine

/-! ### The code table -/

/-- CODES without a tree (41_code_generator.md R94). -/
theorem execCodes_of_no_tree {s : State} (hv : s.treeValid = false) :
    execCodes s = .next ({ s with codesValid := false }.failed 0x06 0) := by
  obtain ⟨hyes, -⟩ | ⟨-, hb⟩ := codesBody_cases s
  · simp [hv] at hyes
  · rw [execCodes, hb, finish_raised, complete_error _ _ (by decide), ErrorCode.number]

theorem Inv.codesValid_of_no_tree {s : State} (h : Inv s) (hv : s.treeValid = false) : s.codesValid = false := by
  by_contra hc
  simpa [hv] using h.codesNeedTree (by simpa using hc)

/-- Settles O26: with no tree CODES_VALID is 0 already, and with a Leaf at the root only its symbol is coded. -/
theorem codesWithoutATreeAndWithOneLeaf : Obligations.CodesWithoutATreeAndWithOneLeaf := by
  refine ⟨fun s h hv => ?noTree, fun s a hv hroot => ?oneLeaf⟩
  case noTree =>
    have hc := h.codesValid_of_no_tree hv
    refine ⟨?_, h.noCodes hc⟩
    rw [exec, execCodes_of_no_tree hv, ← hc]
  case oneLeaf =>
    refine ⟨codeTable s.nodes, execCodes_of_valid hv, ?_, fun b hb => ?_⟩
    · rw [codeTable_single hroot, if_pos rfl]
    · rw [codeTable_single hroot, if_neg hb]

/-- The handles from n to the root, those of the Internal nodes, are n − 1 (10_state.md R29). -/
theorem TreeShape.internal_count {nodes : List Node} (shape : TreeShape nodes) :
    rootHandle nodes + 1 - leafCount nodes = leafCount nodes - 1 := by
  have := shape.size
  have := shape.nonempty
  unfold rootHandle
  omega

/-- Settles O27: a code is a path, and a path has a step for each Internal node at most. -/
theorem codesArePathsFromTheRoot : Obligations.CodesArePathsFromTheRoot := by
  intro s hv shape hroot
  refine ⟨codeTable s.nodes, execCodes_of_valid hv, fun k a ha => ?_, fun a => codeTable_none shape hroot⟩
  have hpath := codeTable_leaf shape hroot ha
  have hcoded : (codeTable s.nodes).get a ≠ [] := (codeTable_ne_nil_iff shape a).2 ⟨k, ha⟩
  exact ⟨hpath, List.length_pos_iff.2 hcoded, shape.internal_count ▸ hpath.length_le shape, codeTable_length _ a⟩

theorem TreeShape.leafCount_eq_one_iff {nodes : List Node} (shape : TreeShape nodes) :
    leafCount nodes = 1 ↔ nodes.length = 1 := by
  have := shape.size
  omega

/-! ### Depths -/

/-- `depth` is the length of each node's path from the root. -/
def IsDepth (nodes : List Node) (depth : Nat → Nat) : Prop :=
  ∀ k p, Path nodes (rootHandle nodes) p k → depth k = p.length

theorem TreeShape.exists_path {nodes : List Node} (shape : TreeShape nodes) {k : Nat} (hk : k ≤ rootHandle nodes) :
    ∃ p, Path nodes (rootHandle nodes) p k :=
  shape.reachable (rootHandle nodes - k) k (Nat.add_sub_of_le hk)

/-- Every node has one path from the root, so it has a depth. -/
theorem TreeShape.exists_isDepth {nodes : List Node} (shape : TreeShape nodes) : ∃ depth, IsDepth nodes depth := by
  choose! path hpath using fun k (hk : k ≤ rootHandle nodes) => shape.exists_path hk
  refine ⟨fun k => (path k).length, fun k p hp => ?_⟩
  exact congrArg List.length ((hpath k (hp.le shape).1).unique shape hp)

theorem children_le_root {nodes : List Node} {h l r : Nat} (hc : children nodes h = some (l, r)) :
    h ≤ rootHandle nodes :=
  Nat.le_sub_one_of_lt (children_lt hc)

section
variable {nodes : List Node} (shape : TreeShape nodes) {depth : Nat → Nat} (hdepth : IsDepth nodes depth)
include hdepth

theorem IsDepth.root : depth (rootHandle nodes) = 0 := hdepth _ [] (.here _)

include shape

/-- A child is one step below its parent, and no deeper than MAX_CODE_LEN (41_code_generator.md R96). -/
theorem IsDepth.children {h l r : Nat} (hc : children nodes h = some (l, r)) :
    depth l = depth h + 1 ∧ depth r = depth h + 1 ∧ depth h + 1 ≤ 255 := by
  obtain ⟨p, hp⟩ := shape.exists_path (children_le_root hc)
  have hleft : Path nodes (rootHandle nodes) (p ++ [false]) l := hp.append (.left hc (.here l))
  have hright : Path nodes (rootHandle nodes) (p ++ [true]) r := hp.append (.right hc (.here r))
  have hlen : (p ++ [false]).length ≤ Config.maxCodeLen :=
    Nat.le_of_lt_succ ((hleft.length_le shape).trans_lt shape.root_fuel)
  rw [hdepth _ _ hp, hdepth _ _ hleft, hdepth _ _ hright]
  rw [List.length_append] at hlen
  exact ⟨List.length_append, List.length_append, hlen⟩

/-- A code is as long as its Leaf is deep (41_code_generator.md R96). -/
theorem IsDepth.leaf (hmany : nodes.length ≠ 1) {k : Nat} {a : Byte} (ha : leafSym nodes k = some a) :
    depth k = ((codeTable nodes).get a).length :=
  hdepth _ _ ((codeTable_of_leaf shape ha).2 hmany)

end

/-! ### Sums over a tree -/

section
variable {nodes : List Node} (shape : TreeShape nodes)
include shape

/-- Every node but the root is a child of exactly one Internal node, so the nodes below the root can be summed
parent by parent. -/
theorem TreeShape.sum_below_root {g s : Nat → Nat}
    (hsum : ∀ h l r, children nodes h = some (l, r) → g l + g r = s h) :
    ∑ c ∈ Finset.range (rootHandle nodes), g c = ∑ h ∈ Finset.Ico (leafCount nodes) nodes.length, s h := by
  choose! parent hparent hunique using shape.oneParent
  have hmaps : ∀ c ∈ Finset.range (rootHandle nodes), parent c ∈ Finset.Ico (leafCount nodes) nodes.length := by
    intro c hc
    obtain ⟨l, r, hlr, -⟩ := hparent c (Finset.mem_range.1 hc)
    obtain ⟨-, -, -, hinternal⟩ := shape.child_lt hlr
    exact Finset.mem_Ico.2 ⟨hinternal, children_lt hlr⟩
  rw [← Finset.sum_fiberwise_of_maps_to hmaps]
  refine Finset.sum_congr rfl (fun h hh => ?_)
  obtain ⟨hge, hlt⟩ := Finset.mem_Ico.1 hh
  obtain ⟨l, r, hlr, hl, hr, hne, -⟩ := shape.internals h hge hlt
  have hroot := children_le_root hlr
  have hfiber : {c ∈ Finset.range (rootHandle nodes) | parent c = h} = ({l, r} : Finset Nat) := by
    ext c
    simp only [Finset.mem_filter, Finset.mem_range, Finset.mem_insert, Finset.mem_singleton]
    constructor
    · rintro ⟨hc, rfl⟩
      obtain ⟨l', r', hlr', hcc⟩ := hparent c hc
      rw [hlr] at hlr'
      cases hlr'
      exact hcc
    · intro hc
      have hbelow : c < rootHandle nodes := by omega
      exact ⟨hbelow, (hunique c hbelow h ⟨l, r, hlr, hc⟩).symm⟩
  rw [hfiber, Finset.sum_pair hne, hsum h l r hlr]

/-- Where the children of each Internal node `h` exceed it together by `f h`, the Leaves exceed the root by the
sum of all `f h`. -/
theorem TreeShape.sum_leaves {g f : Nat → Nat}
    (hstep : ∀ h l r, children nodes h = some (l, r) → g l + g r = g h + f h) :
    ∑ k ∈ Finset.range (leafCount nodes), g k =
      g (rootHandle nodes) + ∑ h ∈ Finset.Ico (leafCount nodes) nodes.length, f h := by
  have hbelow := shape.sum_below_root hstep
  have hle : leafCount nodes ≤ nodes.length := by
    have := shape.size
    have := shape.nonempty
    omega
  have hleaves := Finset.sum_range_add_sum_Ico g hle
  have hroot : ∑ k ∈ Finset.range nodes.length, g k =
      ∑ k ∈ Finset.range (rootHandle nodes), g k + g (rootHandle nodes) := by
    rw [← Finset.sum_range_succ, rootHandle, Nat.sub_add_cancel shape.length_pos]
  rw [Finset.sum_add_distrib] at hbelow
  omega

/-- The coded symbols are the symbols of the Leaves, each once (41_code_generator.md R97). -/
theorem TreeShape.coded_perm :
    (allSymbols.filter (fun a => decide ((codeTable nodes).get a ≠ []))).Perm
      ((List.range (leafCount nodes)).filterMap (leafSym nodes)) := by
  have hnodup : ((List.range (leafCount nodes)).filterMap (leafSym nodes)).Nodup :=
    List.nodup_range.filterMap (fun _ _ _ => shape.leaf_unique)
  refine (List.perm_ext_iff_of_nodup (allSymbols_nodup.filter _) hnodup).2 (fun a => ?_)
  simp only [List.mem_filter, mem_allSymbols, true_and, decide_eq_true_eq, List.mem_filterMap, List.mem_range,
    codeTable_ne_nil_iff shape]
  exact exists_congr (fun k => ⟨fun hk => ⟨shape.leaf_lt hk, hk⟩, And.right⟩)

/-- A sum over the coded symbols is a sum over the Leaves. -/
theorem TreeShape.sum_coded {F : Byte → Nat} {g : Nat → Nat}
    (hleaf : ∀ k a, leafSym nodes k = some a → F a = g k) :
    ((allSymbols.filter (fun a => decide ((codeTable nodes).get a ≠ []))).map F).sum =
      ∑ k ∈ Finset.range (leafCount nodes), g k := by
  have hmap : ((List.range (leafCount nodes)).filterMap (leafSym nodes)).map F =
      (List.range (leafCount nodes)).map g := by
    rw [List.map_filterMap, List.filterMap_eq_map_iff_forall_eq_some]
    intro k hk
    obtain ⟨a, ha⟩ := shape.leaves k (List.mem_range.1 hk)
    rw [ha, Option.map_some, hleaf k a ha]
  rw [(shape.coded_perm.map F).sum_eq, hmap, ← List.sum_toFinset g List.nodup_range, List.toFinset_range]

end

/-! ### The sums of a code table -/

/-- The two halves of a Kraft term are those of the next level. -/
theorem two_pow_sub_succ_add_self {m d : Nat} (h : d + 1 ≤ m) :
    2 ^ (m - (d + 1)) + 2 ^ (m - (d + 1)) = 2 ^ (m - d) := by
  rw [← two_mul, ← pow_succ', show m - (d + 1) + 1 = m - d by omega]

/-- Settles O29: an Internal node's Kraft term is the sum of its children's, so the Leaves' terms sum to the
root's. -/
theorem kraftSumIsOne : Obligations.KraftSumIsOne := by
  intro s t hv shape htwo h
  obtain ⟨-, rfl⟩ | ⟨hno, -⟩ := execCodes_next h
  · have hmany : s.nodes.length ≠ 1 := by
      have := shape.size
      omega
    obtain ⟨depth, hdepth⟩ := shape.exists_isDepth
    have hstep : ∀ h l r, children s.nodes h = some (l, r) →
        2 ^ (255 - depth l) + 2 ^ (255 - depth r) = 2 ^ (255 - depth h) + 0 := by
      intro h l r hc
      obtain ⟨hl, hr, hle⟩ := hdepth.children shape hc
      rw [hl, hr, two_pow_sub_succ_add_self hle, Nat.add_zero]
    calc ((allSymbols.filter (fun a => decide ((codeTable s.nodes).get a ≠ []))).map
          (fun a => 2 ^ (255 - ((codeTable s.nodes).get a).length))).sum
      _ = ∑ k ∈ Finset.range (leafCount s.nodes), 2 ^ (255 - depth k) :=
        shape.sum_coded (fun k a ha => by rw [hdepth.leaf shape hmany ha])
      _ = 2 ^ (255 - depth (rootHandle s.nodes)) := by
        rw [shape.sum_leaves hstep, Finset.sum_const_zero, Nat.add_zero]
      _ = 2 ^ 255 := by rw [hdepth.root, Nat.sub_zero]
  · simp [hv] at hno

/-- Symbols that contribute nothing can be left out of a sum. -/
theorem sum_filter_allSymbols {F : Byte → Nat} {p : Byte → Prop} [DecidablePred p] (hp : ∀ a, F a ≠ 0 → p a) :
    ((allSymbols.filter (fun a => decide (p a))).map F).sum = (allSymbols.map F).sum := by
  rw [← List.sum_toFinset F (allSymbols_nodup.filter _), ← List.sum_toFinset F allSymbols_nodup,
    List.toFinset_filter]
  simpa using Finset.sum_filter_of_ne (fun a _ => hp a)

/-- An Internal node weighs what its children weigh (10_state.md R29). -/
theorem TreeShape.weight_children {nodes : List Node} (shape : TreeShape nodes) {h l r : Nat}
    (hc : children nodes h = some (l, r)) : weightOf nodes h = weightOf nodes l + weightOf nodes r := by
  obtain ⟨-, -, -, hge⟩ := shape.child_lt hc
  obtain ⟨l', r', hc', -, -, -, hweight⟩ := shape.internals h hge (children_lt hc)
  cases hc.symm.trans hc'
  exact hweight

/-- In a tree of more than one node the weighted code lengths sum to the weights of the Internal nodes: going one
level down adds an Internal node's weight once. -/
theorem TreeShape.weighted_length {nodes : List Node} (shape : TreeShape nodes) (hmany : nodes.length ≠ 1)
    {F : Byte → Nat} (hF : ∀ k a, leafSym nodes k = some a → F a = weightOf nodes k) :
    (allSymbols.map (fun a => F a * ((codeTable nodes).get a).length)).sum =
      ∑ h ∈ Finset.Ico (leafCount nodes) nodes.length, weightOf nodes h := by
  obtain ⟨depth, hdepth⟩ := shape.exists_isDepth
  have hstep : ∀ h l r, children nodes h = some (l, r) →
      weightOf nodes l * depth l + weightOf nodes r * depth r = weightOf nodes h * depth h + weightOf nodes h := by
    intro h l r hc
    obtain ⟨hl, hr, -⟩ := hdepth.children shape hc
    rw [hl, hr, ← Nat.add_mul, ← shape.weight_children hc, Nat.mul_succ]
  have hcoded : ∀ a, F a * ((codeTable nodes).get a).length ≠ 0 → (codeTable nodes).get a ≠ [] := by
    intro a hne hnil
    simp [hnil] at hne
  rw [← sum_filter_allSymbols hcoded,
    shape.sum_coded (fun k a ha => by rw [hF k a ha, ← hdepth.leaf shape hmany ha]), shape.sum_leaves hstep,
    hdepth.root, Nat.mul_zero, Nat.zero_add]

/-- With a single Leaf every symbol that counts has a one-bit code (41_code_generator.md R95). -/
theorem TreeShape.single_length {nodes : List Node} (shape : TreeShape nodes) (hone : nodes.length = 1)
    {F : Byte → Nat} (hF : ∀ a, F a ≠ 0 → ∃ k, leafSym nodes k = some a) :
    (allSymbols.map (fun a => F a * ((codeTable nodes).get a).length)).sum = (allSymbols.map F).sum := by
  refine congrArg List.sum (List.map_congr_left (fun a _ => ?_))
  by_cases ha : F a = 0
  · rw [ha, Nat.zero_mul]
  · obtain ⟨k, hk⟩ := hF a ha
    rw [(codeTable_of_leaf shape hk).1 hone, List.length_singleton, Nat.mul_one]

theorem sum_filter_range_le (f : Nat → Nat) (m n : Nat) :
    (((List.range n).filter (fun h => decide (m ≤ h))).map f).sum = ∑ h ∈ Finset.Ico m n, f h := by
  rw [← List.sum_toFinset f (List.nodup_range.filter _)]
  refine Finset.sum_congr ?_ (fun _ _ => rfl)
  ext h
  simp [and_comm]

/-- Settles O30: the Leaves of the tree are the counted symbols, and they weigh their counts. -/
theorem encodedLengthIsInternalWeight : Obligations.EncodedLengthIsInternalWeight := by
  intro s t u hwrap ht hok hu
  obtain ⟨hne, rfl⟩ | ⟨-, rfl⟩ := execTree_next ht
  · obtain ⟨-, rfl⟩ | ⟨hno, -⟩ := execCodes_next hu
    · have shape := buildTree_shape hne hwrap
      split
      case isTrue hone =>
        exact shape.single_length (shape.leafCount_eq_one_iff.1 hone) (fun a ha =>
          (exists_buildTree_leafSym_iff hne hwrap a).2 (fun h => ha (congrArg BitVec.toNat h)))
      case isFalse hmany =>
        rw [sum_filter_range_le]
        exact shape.weighted_length (mt shape.leafCount_eq_one_iff.2 hmany)
          (fun k a hk => (buildTree_leaf_weight hne hwrap hk).symm)
    · cases hno
  · cases hok

end Sys2Proof.Machine
end

section
/-! PROOFS. ENCODE: the codes of the input in order, the two errors of a byte, and what ENCODE reads
(42_encoder.md R98–R101). -/

namespace Sys2Proof.Machine

/-! ### The loop of ENCODE -/

/-- Past the bytes whose codes fit, the loop goes on at the next cell with their bits already in the output
(42_encoder.md R98). -/
theorem encodeFrom_after {m : Memory} {code : Table (List Bit)} {cap : Nat} {before : List Byte}
    (hread : ∀ j, j < before.length → m.read j = before[j]?) (hcode : ∀ c ∈ before, code.get c ≠ [])
    (hfit : (codedBits code before).length ≤ cap) (n : Nat) :
    encodeFrom m code cap (before.length + n) 0 0 =
      (encodeFrom m code cap n before.length (codedBits code before).length).map (codedBits code before ++ ·) := by
  rw [encodeFrom_append before n 0 0 (by simpa using hread) hcode (by simpa using hfit), Nat.zero_add, Nat.zero_add]

/-- At a byte without a code (42_encoder.md R99). -/
theorem encodeFrom_uncoded {m : Memory} {code : Table (List Bit)} {i : Nat} {b : Byte}
    (hcell : m.read i = some b) (hb : code.get b = []) (cap n used : Nat) :
    encodeFrom m code cap (n + 1) i used = .raised .unknownSymbol i := by
  rw [encodeFrom, hcell]
  exact if_pos (by rw [hb, List.length_nil])

/-- At a byte whose code no longer fits (42_encoder.md R100). -/
theorem encodeFrom_overflow {m : Memory} {code : Table (List Bit)} {cap i used : Nat} {b : Byte}
    (hcell : m.read i = some b) (hb : code.get b ≠ []) (hover : cap < used + (code.get b).length) (n : Nat) :
    encodeFrom m code cap (n + 1) i used = .raised .bitbufOverflow i := by
  rw [encodeFrom, hcell]
  exact (if_neg (mt List.length_eq_zero_iff.1 hb)).trans (if_pos hover)

/-! ### ENCODE by the end of its loop -/

theorem exec_encode_of_ok {s : State} {bits : List Bit} (hvalid : s.codesValid = true)
    (hrun : encodeFrom s.ibuf s.code s.params.bitbufCap s.ibufLen 0 0 = .ok bits) :
    exec .encode s = .next { s with bitbuf := bits }.succeeded := by
  rw [exec, execEncode, encodeBody, if_pos hvalid, hrun, ofRun_ok, finish_ok]

theorem exec_encode_of_raised {s : State} {e : ErrorCode} {pos : Nat} (he : e ≠ .none)
    (hvalid : s.codesValid = true)
    (hrun : encodeFrom s.ibuf s.code s.params.bitbufCap s.ibufLen 0 0 = .raised e pos) :
    exec .encode s = .next ({ s with bitbuf := [] }.failed e.number pos) := by
  rw [exec, execEncode, encodeBody, if_pos hvalid, hrun, ofRun_raised, finish_raised, complete_error _ _ he]

theorem exec_encode_of_no_codes {s : State} (hvalid : s.codesValid = false) :
    exec .encode s = .next ({ s with bitbuf := [] }.failed 0x07 0) := by
  have hbody : encodeBody s = .raised { s with bitbuf := [] } .noCodes 0 :=
    if_neg (by rw [hvalid]; exact Bool.false_ne_true)
  rw [exec, execEncode, hbody, finish_raised, complete_error _ _ (by decide), ErrorCode.number]

/-- ENCODE carries another tree and another old BITBUF through: its loop reads neither (42_encoder.md R101). -/
theorem exec_encode_withTree (s : State) (nodes : List Node) (treeValid : Bool) (bits : List Bit) :
    exec .encode { s with nodes := nodes, treeValid := treeValid, bitbuf := bits } =
      mapNext (fun t => { t with nodes := nodes, treeValid := treeValid }) (exec .encode s) := by
  simp only [exec, execEncode, encodeBody]
  split
  · cases encodeFrom s.ibuf s.code s.params.bitbufCap s.ibufLen 0 0 with
    | ok out => rfl
    | raised e pos => rfl
    | unwritten i => rfl
  · rfl

/-! ### The statements -/

/-- Settles O31: all of the input is the part with codes that fit, and nothing is left for the loop. -/
theorem encodeConcatenatesCodes : Obligations.EncodeConcatenatesCodes := by
  intro s bytes hvalid hin hcode hfit
  obtain ⟨hlen, hread⟩ := hin
  have hrun := encodeFrom_after hread hcode hfit 0
  rw [Nat.add_zero, ← hlen, encodeFrom, Run.map_ok, List.append_nil] at hrun
  exact exec_encode_of_ok hvalid hrun

/-- Settles O32: the loop reaches the byte after the part that fits, and raises there. -/
theorem encodeErrorsNameTheirByte : Obligations.EncodeErrorsNameTheirByte := by
  intro s before b hvalid hlen hread hcell hcode hfit
  obtain ⟨n, hn⟩ := Nat.exists_eq_add_of_lt hlen
  have hrun := encodeFrom_after hread hcode hfit (n + 1)
  rw [← Nat.add_assoc, ← hn] at hrun
  refine ⟨fun hb => ?uncoded, fun hb hover => ?overflow⟩
  case uncoded =>
    rw [encodeFrom_uncoded hcell hb, Run.map_raised] at hrun
    exact exec_encode_of_raised (by decide) hvalid hrun
  case overflow =>
    rw [encodeFrom_overflow hcell hb hover, Run.map_raised] at hrun
    exact exec_encode_of_raised (by decide) hvalid hrun

/-- Settles O33: the completion in NO_CODES, and a loop that is given neither the tree nor BITBUF. -/
theorem encodeReadsOnlyTheCodeTable : Obligations.EncodeReadsOnlyTheCodeTable :=
  ⟨fun _ => exec_encode_of_no_codes, exec_encode_withTree⟩

end Sys2Proof.Machine
end

section
/-! PROOFS. DECODE: the loop along a path of the tree, a codeword, the codes of a byte string, the ends of the loop,
and what DECODE reads (43_decoder.md R102–R107). -/

namespace Sys2Proof.Machine

theorem Run.map_id {α : Type} (r : Run α) : r.map id = r := by
  cases r with
  | ok a => rfl
  | raised e pos => rfl
  | unwritten i => rfl

theorem Run.map_map {α β γ : Type} (f : α → β) (g : β → γ) (r : Run α) : (r.map f).map g = r.map (g ∘ f) := by
  cases r with
  | ok a => rfl
  | raised e pos => rfl
  | unwritten i => rfl

/-! ### The cursor in the tree -/

theorem child_of_children {nodes : List Node} {h l r : Nat} (hc : children nodes h = some (l, r)) (b : Bit) :
    child nodes b h = if b then r else l := by
  rw [child, hc]

/-- One bit that ends above no Leaf moves the cursor only (43_decoder.md R103). -/
theorem decodeTree_step {nodes : List Node} {b : Bit} {cur : Nat} (hnone : leafSym nodes (child nodes b cur) = none)
    (root cap : Nat) (bits : List Bit) (i start count : Nat) :
    decodeTree nodes root cap (b :: bits) i cur start count =
      decodeTree nodes root cap bits (i + 1) (child nodes b cur) start count := by
  rw [decodeTree, hnone]

/-- One bit that ends at a Leaf emits its symbol, if there is room for it (43_decoder.md R103, R106). -/
theorem decodeTree_emit {nodes : List Node} {b : Bit} {cur : Nat} {a : Byte}
    (ha : leafSym nodes (child nodes b cur) = some a) (root cap : Nat) (bits : List Bit) (i start count : Nat) :
    decodeTree nodes root cap (b :: bits) i cur start count =
      if count = cap then .raised .obufOverflow i
      else (decodeTree nodes root cap bits (i + 1) root (i + 1) (count + 1)).map (a :: ·) := by
  rw [decodeTree, ha]

/-- Above a node that is no Leaf there is no Leaf. -/
theorem Path.leafSym_start {nodes : List Node} {h k : Nat} {p : List Bit} (hp : Path nodes h p k)
    (hk : leafSym nodes k = none) : leafSym nodes h = none := by
  by_contra hleaf
  obtain ⟨a, ha⟩ := Option.ne_none_iff_exists'.1 hleaf
  rw [(hp.from_leaf ha).2, ha] at hk
  cases hk

/-- The cursor follows the bits of a path that ends at no Leaf, and nothing is emitted. -/
theorem decodeTree_along {nodes : List Node} {h k : Nat} {p : List Bit} (hp : Path nodes h p k)
    (hk : leafSym nodes k = none) (root cap : Nat) (bits : List Bit) (i start count : Nat) :
    decodeTree nodes root cap (p ++ bits) i h start count =
      decodeTree nodes root cap bits (i + p.length) k start count := by
  induction hp generalizing i with
  | here => rfl
  | left hc hp ih =>
    have hchild := child_of_children hc false
    rw [List.cons_append, decodeTree_step (by rw [hchild]; exact hp.leafSym_start hk), hchild]
    simp [ih hk, Nat.add_assoc, Nat.add_comm 1]
  | right hc hp ih =>
    have hchild := child_of_children hc true
    rw [List.cons_append, decodeTree_step (by rw [hchild]; exact hp.leafSym_start hk), hchild]
    simp [ih hk, Nat.add_assoc, Nat.add_comm 1]

/-- The last bit of a path to a Leaf emits its symbol, and the cursor is at the root again. -/
theorem decodeTree_path {nodes : List Node} {h k : Nat} {p : List Bit} {a : Byte} (hp : Path nodes h p k)
    (hne : p ≠ []) (ha : leafSym nodes k = some a) (root cap : Nat) (bits : List Bit) (i start count : Nat) :
    decodeTree nodes root cap (p ++ bits) i h start count =
      if count = cap then .raised .obufOverflow (i + p.length - 1)
      else (decodeTree nodes root cap bits (i + p.length) root (i + p.length) (count + 1)).map (a :: ·) := by
  obtain rfl | ⟨q, x, rfl⟩ := List.eq_nil_or_concat' p
  · exact absurd rfl hne
  · obtain ⟨c, l, r, hq, hc, rfl⟩ := hp.last
    rw [List.append_assoc, List.singleton_append, decodeTree_along hq (leafSym_of_children hc),
      decodeTree_emit (by rw [child_of_children hc]; exact ha), List.length_append, List.length_singleton,
      ← Nat.add_assoc, Nat.add_sub_cancel]

/-! ### Codewords -/

/-- `p` is the code of `a` in the tree: `0` when the root is the Leaf of `a` (41_code_generator.md R95), the path
to the Leaf of `a` when the root is Internal (41_code_generator.md R96). -/
inductive Codeword (nodes : List Node) (a : Byte) : List Bit → Prop where
  | single : leafSym nodes (rootHandle nodes) = some a → Codeword nodes a [false]
  | path {p : List Bit} {k : Nat} : leafSym nodes (rootHandle nodes) = none → Path nodes (rootHandle nodes) p k →
      leafSym nodes k = some a → Codeword nodes a p

/-- The code table of a tree holds codewords. -/
theorem codeword_codeTable {nodes : List Node} (shape : TreeShape nodes) {a : Byte}
    (ha : (codeTable nodes).get a ≠ []) : Codeword nodes a ((codeTable nodes).get a) := by
  cases hroot : leafSym nodes (rootHandle nodes) with
  | some r =>
    rw [codeTable_single hroot] at ha ⊢
    obtain rfl : a = r := by simpa using ha
    rw [if_pos rfl]
    exact .single hroot
  | none =>
    obtain ⟨k, hk⟩ := (codeTable_ne_nil_iff shape a).1 ha
    exact .path hroot (codeTable_leaf shape hroot hk) hk

/-- The loop of DECODE between two codewords: at bit `i` with the cursor at the root and `count` symbols emitted. -/
def decodeFrom (nodes : List Node) (cap : Nat) (bits : List Bit) (i count : Nat) : Run (List Byte) :=
  match leafSym nodes (rootHandle nodes) with
  | some sym => decodeLeaf sym cap bits i count
  | none => decodeTree nodes (rootHandle nodes) cap bits i (rootHandle nodes) i count

theorem decodeBits_eq_decodeFrom (nodes : List Node) (cap : Nat) (bits : List Bit) :
    decodeBits nodes cap bits = decodeFrom nodes cap bits 0 0 := rfl

theorem decodeFrom_leaf {nodes : List Node} {a : Byte} (hroot : leafSym nodes (rootHandle nodes) = some a)
    (cap : Nat) (bits : List Bit) (i count : Nat) :
    decodeFrom nodes cap bits i count = decodeLeaf a cap bits i count := by
  rw [decodeFrom, hroot]

theorem decodeFrom_internal {nodes : List Node} (hroot : leafSym nodes (rootHandle nodes) = none)
    (cap : Nat) (bits : List Bit) (i count : Nat) :
    decodeFrom nodes cap bits i count =
      decodeTree nodes (rootHandle nodes) cap bits i (rootHandle nodes) i count := by
  rw [decodeFrom, hroot]

@[simp] theorem decodeFrom_nil (nodes : List Node) (cap i count : Nat) :
    decodeFrom nodes cap [] i count = .ok [] := by
  cases hroot : leafSym nodes (rootHandle nodes) with
  | some a => rw [decodeFrom_leaf hroot, decodeLeaf]
  | none => rw [decodeFrom_internal hroot, decodeTree, if_pos rfl]

/-- A codeword emits its symbol, or overflows the output at its last bit (43_decoder.md R103, R105, R106). -/
theorem decodeFrom_codeword {nodes : List Node} {a : Byte} {p : List Bit} (hp : Codeword nodes a p)
    (cap : Nat) (bits : List Bit) (i count : Nat) :
    decodeFrom nodes cap (p ++ bits) i count =
      if count = cap then .raised .obufOverflow (i + p.length - 1)
      else (decodeFrom nodes cap bits (i + p.length) (count + 1)).map (a :: ·) := by
  cases hp with
  | single hroot =>
    simp only [decodeFrom_leaf hroot]
    rfl
  | path hroot hpath ha =>
    have hne : p ≠ [] := by
      rintro rfl
      cases hpath
      simp [hroot] at ha
    simp only [decodeFrom_internal hroot]
    exact decodeTree_path hpath hne ha _ _ _ _ _ _

/-- Codewords whose symbols fit the output emit them in order, and the loop goes on at the bit after them
(43_decoder.md R103). -/
theorem decodeFrom_codedBits {nodes : List Node} {code : Table (List Bit)} {cap : Nat} {bytes : List Byte}
    (hcode : ∀ b ∈ bytes, Codeword nodes b (code.get b)) (rest : List Bit) (i count : Nat)
    (hfit : count + bytes.length ≤ cap) :
    decodeFrom nodes cap (codedBits code bytes ++ rest) i count =
      (decodeFrom nodes cap rest (i + (codedBits code bytes).length) (count + bytes.length)).map (bytes ++ ·) := by
  induction bytes generalizing i count with
  | nil => exact (Run.map_id _).symm
  | cons b bytes ih =>
    obtain ⟨hb, hbytes⟩ := List.forall_mem_cons.1 hcode
    rw [List.length_cons] at hfit
    have hcoded : codedBits code (b :: bytes) = code.get b ++ codedBits code bytes := List.flatMap_cons
    have hroom : count ≠ cap := by omega
    rw [hcoded, List.append_assoc, decodeFrom_codeword hb, if_neg hroom, ih hbytes _ _ (by omega), Run.map_map,
      List.length_append, List.length_cons, Nat.add_assoc i, Nat.add_right_comm count 1, Nat.add_assoc count]
    rfl

/-- Decoding a whole sequence that begins with codewords whose symbols fit the output. -/
theorem decodeBits_codedBits {nodes : List Node} {code : Table (List Bit)} {cap : Nat} {bytes : List Byte}
    (hcode : ∀ b ∈ bytes, Codeword nodes b (code.get b)) (hfit : bytes.length ≤ cap) (rest : List Bit) :
    decodeBits nodes cap (codedBits code bytes ++ rest) =
      (decodeFrom nodes cap rest (codedBits code bytes).length bytes.length).map (bytes ++ ·) := by
  rw [decodeBits_eq_decodeFrom, decodeFrom_codedBits hcode rest 0 0 (by rwa [Nat.zero_add]), Nat.zero_add,
    Nat.zero_add]

/-! ### The errors of the loop -/

/-- Only a beginning of a codeword is left: the cursor ends below the root and above the Leaf (43_decoder.md
R104). -/
theorem decodeFrom_truncated {nodes : List Node} (shape : TreeShape nodes) {a : Byte} {p q : List Bit}
    (hpq : Codeword nodes a (p ++ q)) (hp : p ≠ []) (hq : q ≠ []) (cap i count : Nat) :
    decodeFrom nodes cap p i count = .raised .truncatedStream i := by
  generalize hw : p ++ q = w at hpq
  cases hpq with
  | single hroot =>
    obtain ⟨hnil, -⟩ | ⟨-, hnil⟩ := List.append_eq_singleton_iff.1 hw
    · exact absurd hnil hp
    · exact absurd hnil hq
  | path hroot hpath ha =>
    subst hw
    obtain ⟨c, habove, hbelow⟩ := hpath.split
    have hinner : leafSym nodes c = none := by
      by_contra hleaf
      obtain ⟨b, hb⟩ := Option.ne_none_iff_exists'.1 hleaf
      exact hq (hbelow.from_leaf hb).1
    have hlt : c < rootHandle nodes := (habove.le shape).2 hp
    have hrun := decodeTree_along habove hinner (rootHandle nodes) cap [] i i count
    rw [List.append_nil, decodeTree, if_neg hlt.ne] at hrun
    rw [decodeFrom_internal hroot, hrun]

/-- With a Leaf at the root a 1 is invalid, whether or not there is room for a symbol (43_decoder.md R105,
60_exceptions.md R129). -/
theorem decodeFrom_invalid {nodes : List Node} {a : Byte} (hroot : leafSym nodes (rootHandle nodes) = some a)
    (cap : Nat) (bits : List Bit) (i count : Nat) :
    decodeFrom nodes cap (true :: bits) i count = .raised .invalidCode i := by
  rw [decodeFrom_leaf hroot, decodeLeaf, if_pos rfl]

/-! ### DECODE by the end of its loop -/

theorem exec_decode_of_ok {s : State} {bytes : List Byte} (hvalid : s.treeValid = true)
    (hrun : decodeBits s.nodes s.params.obufCap s.bitbuf = .ok bytes) :
    exec .decode s = .next { s with obuf := bytes }.succeeded := by
  rw [exec, execDecode, decodeBody, if_pos hvalid, hrun, ofRun_ok, finish_ok]

theorem exec_decode_of_raised {s : State} {e : ErrorCode} {pos : Nat} (he : e ≠ .none)
    (hvalid : s.treeValid = true) (hrun : decodeBits s.nodes s.params.obufCap s.bitbuf = .raised e pos) :
    exec .decode s = .next ({ s with obuf := [] }.failed e.number pos) := by
  rw [exec, execDecode, decodeBody, if_pos hvalid, hrun, ofRun_raised, finish_raised, complete_error _ _ he]

theorem exec_decode_of_no_tree {s : State} (hvalid : s.treeValid = false) :
    exec .decode s = .next ({ s with obuf := [] }.failed 0x06 0) := by
  have hbody : decodeBody s = .raised { s with obuf := [] } .noTree 0 :=
    if_neg (by rw [hvalid]; exact Bool.false_ne_true)
  rw [exec, execDecode, hbody, finish_raised, complete_error _ _ (by decide), ErrorCode.number]

/-- DECODE carries another code table through and forgets the old OBUF: its loop reads neither (43_decoder.md
R102). -/
theorem exec_decode_withCode (s : State) (code : Table (List Bit)) (codesValid : Bool) (out : List Byte) :
    exec .decode { s with code := code, codesValid := codesValid, obuf := out } =
      mapNext (fun t => { t with code := code, codesValid := codesValid }) (exec .decode s) := by
  simp only [exec, execDecode, decodeBody]
  split
  · cases decodeBits s.nodes s.params.obufCap s.bitbuf with
    | ok bytes => rfl
    | raised e pos => rfl
    | unwritten i => rfl
  · rfl

/-- CODES on a tree leaves the tree's code table. -/
theorem exec_codes_code {s t : State} (hvalid : s.treeValid = true) (h : exec .codes s = .next t) :
    t.code = codeTable s.nodes := by
  rw [exec, execCodes_of_valid hvalid] at h
  cases h
  rfl

/-! ### The statements -/

/-- Settles O39: the sequence is codewords to its end. -/
theorem decodeInvertsTheCodeTable : Obligations.DecodeInvertsTheCodeTable := by
  intro s bytes hvalid shape hcode hbits hfit
  have hrun := decodeBits_codedBits (fun b hb => codeword_codeTable shape (hcode b hb)) hfit []
  rw [List.append_nil, ← hbits, decodeFrom_nil, Run.map_ok, List.append_nil] at hrun
  exact exec_decode_of_ok hvalid hrun

/-- Settles O40: after the codewords the cursor is at the root, and the beginning of a code leaves it below. -/
theorem decodeTruncatedStreamFails : Obligations.DecodeTruncatedStreamFails := by
  intro s t bytes a p q hvalid shape hcodes hcode hp hq ha hbits hfit
  rw [exec_codes_code hvalid hcodes] at hcode ha hbits ⊢
  have hpq : Codeword s.nodes a (p ++ q) :=
    ha ▸ codeword_codeTable shape (by rw [ha]; exact List.append_ne_nil_of_left_ne_nil hp q)
  have hrun := decodeBits_codedBits (fun b hb => codeword_codeTable shape (hcode b hb)) hfit p
  rw [← hbits, decodeFrom_truncated shape hpq hp hq, Run.map_raised] at hrun
  exact exec_decode_of_raised (by decide) hvalid hrun

/-- Settles O41: the only codeword is `0`. -/
theorem decodeOfTheOnlySymbol : Obligations.DecodeOfTheOnlySymbol := by
  intro s a k hvalid hroot hfit
  have hcode : (codeTable s.nodes).get a = [false] := by rw [codeTable_single hroot, if_pos rfl]
  have hcoded : codedBits (codeTable s.nodes) (List.replicate k a) = List.replicate k false := by
    simp [codedBits, hcode, List.flatMap_replicate]
  have hword : ∀ b ∈ List.replicate k a, Codeword s.nodes b ((codeTable s.nodes).get b) := fun b hb => by
    rw [List.eq_of_mem_replicate hb, hcode]
    exact .single hroot
  have hrun := decodeBits_codedBits hword (List.length_replicate.trans_le hfit)
  rw [hcoded, List.length_replicate] at hrun
  refine ⟨fun hbits => ?zeros, fun rest hbits => ?one⟩
  case zeros =>
    refine exec_decode_of_ok hvalid ?_
    rw [hbits, ← List.append_nil (List.replicate k false), hrun, decodeFrom_nil, Run.map_ok, List.append_nil]
  case one =>
    refine exec_decode_of_raised (e := .invalidCode) (by decide) hvalid ?_
    rw [hbits, hrun, decodeFrom_invalid hroot, Run.map_raised]

/-- Settles O42: the codeword after the bytes that fill the output overflows it. -/
theorem decodeOverflowFails : Obligations.DecodeOverflowFails := by
  intro s t bytes a rest hvalid shape hcodes hcode ha hfull hbits
  rw [exec_codes_code hvalid hcodes] at hcode ha hbits ⊢
  have hrun := decodeBits_codedBits (fun b hb => codeword_codeTable shape (hcode b hb)) hfull.le
    ((codeTable s.nodes).get a ++ rest)
  rw [← List.append_assoc, ← hbits, decodeFrom_codeword (codeword_codeTable shape ha), if_pos hfull,
    Run.map_raised] at hrun
  exact exec_decode_of_raised (by decide) hvalid hrun

/-- Settles O43: the completion in NO_TREE, and a loop that is given neither the code table nor OBUF. -/
theorem decodeReadsOnlyTheTree : Obligations.DecodeReadsOnlyTheTree :=
  ⟨fun _ => exec_decode_of_no_tree, exec_decode_withCode⟩

end Sys2Proof.Machine
end

section
/-! PROOFS. The bit packer: PACK's bytes, UNPACK's bits, and the round trips through them (44_bit_packer.md
R108–R114). -/

namespace Sys2Proof.Machine

/-! ### PACK by the size of its output -/

theorem exec_pack_of_fits {s : State} (hfit : s.bitbuf.length ≤ 8 * s.params.obufCap) :
    exec .pack s = .next { s with obuf := packBits s.bitbuf }.succeeded := by
  have hcap : ¬ s.params.obufCap < ceilDiv8 s.bitbuf.length := by rw [ceilDiv8]; omega
  rw [exec, execPack, packBody, if_neg hcap, finish_ok]

theorem exec_pack_of_overflow {s : State} (hover : 8 * s.params.obufCap < s.bitbuf.length) :
    exec .pack s = .next ({ s with obuf := [] }.failed 0x09 0) := by
  have hcap : s.params.obufCap < ceilDiv8 s.bitbuf.length := by rw [ceilDiv8]; omega
  rw [exec, execPack, packBody, if_pos hcap, finish_raised, complete_error _ _ (by decide), ErrorCode.number]

/-- A PACK that completes without an error has written the packed bytes (44_bit_packer.md R108). -/
theorem exec_pack_success {s t : State} (h : exec .pack s = .next t) (hok : t.err = false) :
    t = { s with obuf := packBits s.bitbuf }.succeeded := by
  obtain ⟨-, rfl⟩ | ⟨-, rfl⟩ := execPack_next h
  · rfl
  · cases hok

theorem length_le_packBits (bits : List Bit) : bits.length ≤ 8 * (packBits bits).length := by
  rw [packBits_length]
  omega

/-! ### The bits of a byte string -/

/-- The first `n` bits of `bytes`, most significant first in each byte (44_bit_packer.md R111). -/
def bitsOfBytes (bytes : List Byte) (n : Nat) : List Bit :=
  (List.range n).map (fun i => byteBit (bytes.getD (i / 8) 0) i)

@[simp] theorem bitsOfBytes_length (bytes : List Byte) (n : Nat) : (bitsOfBytes bytes n).length = n := by
  rw [bitsOfBytes, List.length_map, List.length_range]

theorem bitsOfBytes_getD (bytes : List Byte) {n i : Nat} (hi : i < n) :
    (bitsOfBytes bytes n).getD i false = (bytes.getD (i / 8) 0).getLsbD (7 - i % 8) := by
  simp [bitsOfBytes, byteBit, List.getD, hi]

theorem eq_bitsOfBytes {bits : List Bit} {bytes : List Byte} {n : Nat} (hlen : bits.length = n)
    (hbits : ∀ i, i < n → bits.getD i false = (bytes.getD (i / 8) 0).getLsbD (7 - i % 8)) :
    bits = bitsOfBytes bytes n := by
  refine List.ext_getElem (by rw [hlen, bitsOfBytes_length]) (fun i hi hi' => ?_)
  rw [← List.getD_eq_getElem _ false hi, ← List.getD_eq_getElem _ false hi', hbits i (hlen ▸ hi),
    bitsOfBytes_getD bytes (hlen ▸ hi)]

/-- The bits of packed bytes are the sequence, and then zeros (44_bit_packer.md R113). -/
theorem bitsOfBytes_packBits {bits : List Bit} {n : Nat} (hge : bits.length ≤ n)
    (hle : n ≤ 8 * (packBits bits).length) :
    bitsOfBytes (packBits bits) n = bits ++ List.replicate (n - bits.length) false := by
  refine (eq_bitsOfBytes ?length fun i hi => ?bit).symm
  case length =>
    rw [List.length_append, List.length_replicate]
    omega
  case bit =>
    rw [packBits_getD bits (i / 8) (by omega), seqByte_bit bits _ _ (Nat.mod_lt i (by decide)), Nat.div_add_mod]
    by_cases hlt : i < bits.length
    · exact List.getD_append _ _ _ _ hlt
    · have hpast : bits.length ≤ i := Nat.le_of_not_lt hlt
      rw [List.getD_append_right _ _ _ _ hpast, List.getD_eq_default _ _ hpast, List.getD_replicate _ (by omega)]

/-! ### UNPACK by the number of bits it keeps -/

/-- The loop of UNPACK over written cells (44_bit_packer.md R111). -/
theorem unpackFrom_cells {m : Memory} {bytes : List Byte} (hread : ∀ j, j < bytes.length → m.read j = bytes[j]?)
    {n : Nat} (hn : n ≤ 8 * bytes.length) : unpackFrom m n 0 = .ok (bitsOfBytes bytes n) := by
  have hcell : ∀ k, k < n → m.read (k / 8) = some (bytes.getD (k / 8) 0) := fun k hk => by
    have hlt : k / 8 < bytes.length := by omega
    rw [hread _ hlt, List.getElem?_eq_getElem hlt, List.getD_eq_getElem _ _ hlt]
  obtain ⟨bits, hrun⟩ := unpackFrom_written (m := m) n 0 fun k hk => by
    rw [Nat.zero_add, hcell k hk]
    exact Option.some_ne_none _
  obtain ⟨hlen, hbits⟩ := unpackFrom_ok hrun
  rw [hrun, eq_bitsOfBytes hlen fun k hk => ?_]
  obtain ⟨b, hb, hbit⟩ := hbits k hk
  rw [Nat.zero_add, hcell k hk] at hb
  cases hb
  rw [hbit, Nat.zero_add]

theorem unpackBits_of_cells {s : State} {bytes : List Byte} {n : Nat}
    (hread : ∀ j, j < bytes.length → s.ibuf.read j = bytes[j]?) (hn : n ≤ 8 * bytes.length)
    (hfit : n ≤ s.params.bitbufCap) :
    finish (unpackBits s n) = .next { s with bitbuf := bitsOfBytes bytes n }.succeeded := by
  rw [unpackBits, if_neg (Nat.not_lt.2 hfit), unpackFrom_cells hread hn, ofRun_ok, finish_ok]

theorem unpackBits_of_overflow {s : State} {n : Nat} (hover : s.params.bitbufCap < n) :
    finish (unpackBits s n) = .next (s.failed 0x08 0) := by
  rw [unpackBits, if_pos hover, finish_raised, complete_error _ _ (by decide), ErrorCode.number]

theorem exec_unpack_of_input {s : State} {bytes : List Byte} (hin : s.InputIs bytes)
    (hfit : 8 * bytes.length ≤ s.params.bitbufCap) :
    exec .unpack s = .next { s with bitbuf := bitsOfBytes bytes (8 * bytes.length) }.succeeded := by
  obtain ⟨hlen, hread⟩ := hin
  rw [← hlen] at hfit ⊢
  exact unpackBits_of_cells (s := { s with bitbuf := [] }) hread (Nat.mul_le_mul_left 8 hlen.le) hfit

/-- UNPACK.T past the check of ARG is UNPACK's common end with ARG bits to keep (44_bit_packer.md R112). -/
theorem exec_unpackT_of_arg {s : State} (harg : s.arg.toNat ≤ 8 * s.ibufLen) :
    exec .unpackT s = finish (unpackBits { s with bitbuf := [] } s.arg.toNat) := by
  rw [exec, execUnpackT, unpackTrimBody]
  exact congrArg finish (if_neg (Nat.not_lt.2 harg))

theorem exec_unpackT_of_cells {s : State} {bytes : List Byte} (harg : s.arg.toNat ≤ 8 * s.ibufLen)
    (hread : ∀ j, j < bytes.length → s.ibuf.read j = bytes[j]?) (hcells : s.arg.toNat ≤ 8 * bytes.length)
    (hfit : s.arg.toNat ≤ s.params.bitbufCap) :
    exec .unpackT s = .next { s with bitbuf := bitsOfBytes bytes s.arg.toNat }.succeeded := by
  rw [exec_unpackT_of_arg harg]
  exact unpackBits_of_cells (s := { s with bitbuf := [] }) hread hcells hfit

theorem exec_unpackT_of_badLength {s : State} (harg : 8 * s.ibufLen < s.arg.toNat) :
    exec .unpackT s = .next ({ s with bitbuf := [] }.failed 0x0A 0) := by
  have hbody : unpackTrimBody s = .raised { s with bitbuf := [] } .badLength 0 := if_pos harg
  rw [exec, execUnpackT, hbody, finish_raised, complete_error _ _ (by decide), ErrorCode.number]

/-- UNPACK.T of packed bytes with ARG the number of bits packed (44_bit_packer.md R113). -/
theorem exec_unpackT_of_packed {s : State} {bits : List Bit} (hin : s.InputIs (packBits bits))
    (harg : s.arg.toNat = bits.length) (hfit : bits.length ≤ s.params.bitbufCap) :
    exec .unpackT s = .next { s with bitbuf := bits }.succeeded := by
  obtain ⟨hlen, hread⟩ := hin
  have hcells := length_le_packBits bits
  rw [exec_unpackT_of_cells (by rwa [harg, hlen]) hread (by rwa [harg]) (by rwa [harg]), harg,
    bitsOfBytes_packBits le_rfl hcells, Nat.sub_self, List.replicate_zero, List.append_nil]

/-! ### The statements about PACK and UNPACK -/

/-- Settles O34: the bytes are `packBits`, and the default BITBUF_CAP is eight times the default OBUF_CAP. -/
theorem packIsMostSignificantBitFirst : Obligations.PackIsMostSignificantBitFirst := by
  refine ⟨fun s hfit => ?fits, fun s => exec_pack_of_overflow, fun s t hparams hbits h => ?defaults⟩
  case fits =>
    refine ⟨packBits s.bitbuf, exec_pack_of_fits hfit, length_le_packBits _, ?length, fun k j hk hj => ?bit⟩
    case length =>
      rw [packBits_length]
      omega
    case bit => rw [packBits_getD _ _ hk, seqByte_bit _ _ _ hj]
  case defaults =>
    rw [hparams] at hbits
    have hfit : s.bitbuf.length ≤ 8 * s.params.obufCap := by rw [hparams]; exact hbits
    cases (exec_pack_of_fits hfit).symm.trans h
    rfl

/-- Settles O35: the loop's bits are `bitsOfBytes`, and the check of the capacity comes before the loop. -/
theorem unpackGivesEightBitsAByte : Obligations.UnpackGivesEightBitsAByte := by
  refine fun s => ⟨fun bytes hin hfit => ?fits, fun hover => ?overflow⟩
  case fits =>
    refine ⟨_, exec_unpack_of_input hin hfit, bitsOfBytes_length _ _, fun i hi => bitsOfBytes_getD bytes ?_⟩
    rwa [bitsOfBytes_length] at hi
  case overflow => exact unpackBits_of_overflow (s := { s with bitbuf := [] }) hover

/-- Settles O36: UNPACK.T checks ARG, then the capacity, and then runs UNPACK's loop for ARG bits. -/
theorem unpackTrimKeepsArgBits : Obligations.UnpackTrimKeepsArgBits := by
  refine fun s => ⟨fun bytes harg hfit hcells _ hread => ?fits, exec_unpackT_of_badLength, fun harg hover => ?overflow⟩
  case fits =>
    refine ⟨_, exec_unpackT_of_cells harg hread hcells hfit, bitsOfBytes_length _ _,
      fun i hi => bitsOfBytes_getD bytes ?_⟩
    rwa [bitsOfBytes_length] at hi
  case overflow =>
    rw [exec_unpackT_of_arg harg]
    exact unpackBits_of_overflow (s := { s with bitbuf := [] }) hover

/-- Settles O37: the bits of the packed bytes are the sequence and the zeros that fill its last byte. -/
theorem packUnpackRoundTrip : Obligations.PackUnpackRoundTrip := by
  intro s t u hpack hok hin
  cases exec_pack_success hpack hok
  refine ⟨fun hfit => ?unpack, fun hfit harg => ?trimmed⟩
  case unpack =>
    have hlen := packBits_length s.bitbuf
    have hpad : 8 * (packBits s.bitbuf).length - s.bitbuf.length = (8 - s.bitbuf.length % 8) % 8 := by omega
    exact ⟨_, exec_unpack_of_input hin hfit, rfl, hpad ▸ bitsOfBytes_packBits (length_le_packBits _) le_rfl⟩
  case trimmed => exact ⟨_, exec_unpackT_of_packed hin harg hfit, rfl, rfl⟩

/-! ### ENCODE of coded bytes -/

/-- Over written cells whose bytes all have codes, the loop of ENCODE gives the codes in order or overflows BITBUF
(42_encoder.md R98, R100). -/
theorem encodeFrom_coded {m : Memory} {code : Table (List Bit)} (cap : Nat) {bytes : List Byte}
    (hcode : ∀ b ∈ bytes, code.get b ≠ []) (i used : Nat)
    (hread : ∀ j, j < bytes.length → m.read (i + j) = bytes[j]?) :
    encodeFrom m code cap bytes.length i used = .ok (codedBits code bytes)
    ∨ ∃ pos, encodeFrom m code cap bytes.length i used = .raised .bitbufOverflow pos := by
  induction bytes generalizing i used with
  | nil => exact .inl rfl
  | cons b bytes ih =>
    obtain ⟨hb, hbytes⟩ := List.forall_mem_cons.1 hcode
    have hcell : m.read i = some b := hread 0 (Nat.succ_pos _)
    by_cases hover : cap < used + (code.get b).length
    · exact .inr ⟨i, encodeFrom_overflow hcell hb hover bytes.length⟩
    · have hnext : encodeFrom m code cap (b :: bytes).length i used =
          (encodeFrom m code cap bytes.length (i + 1) (used + (code.get b).length)).map (code.get b ++ ·) := by
        rw [List.length_cons, encodeFrom, hcell]
        exact (if_neg (mt List.length_eq_zero_iff.1 hb)).trans (if_neg hover)
      have hrest : ∀ j, j < bytes.length → m.read (i + 1 + j) = bytes[j]? := fun j hj => by
        rw [Nat.add_right_comm, Nat.add_assoc, hread (j + 1) (Nat.succ_lt_succ hj), List.getElem?_cons_succ]
      obtain hok | ⟨pos, hraised⟩ := ih hbytes (i + 1) (used + (code.get b).length) hrest
      · exact .inl (by rw [hnext, hok, Run.map_ok, codedBits, codedBits, List.flatMap_cons])
      · exact .inr ⟨pos, by rw [hnext, hraised, Run.map_raised]⟩

/-! ### The pipeline -/

/-- What BUILD leaves for the commands after it: a tree, its code table, and a code for each of `bytes`. -/
structure HasCodesFor (s : State) (bytes : List Byte) : Prop where
  treeValid : s.treeValid = true
  codesValid : s.codesValid = true
  shape : TreeShape s.nodes
  code : s.code = codeTable s.nodes
  coded : ∀ b ∈ bytes, (codeTable s.nodes).get b ≠ []

theorem exec_build_of_input {s : State} {bytes : List Byte} (hin : s.InputIs bytes) (hne : bytes ≠ [])
    (hlen : bytes.length ≤ 2 ^ 20) :
    ∃ t, exec .build s = .next t ∧ t.err = false ∧ HasCodesFor t bytes ∧ t.InputIs bytes ∧ t.params = s.params := by
  have hlen32 : bytes.length < 2 ^ 32 := by omega
  have halpha : alphabet (countBytes bytes) ≠ [] := mt (alphabet_countBytes_eq_nil_iff hlen32).1 hne
  have hwrap : freqTotal (countBytes bytes) < 2 ^ 32 := by rwa [freqTotal_countBytes hlen32]
  have shape := buildTree_shape halpha hwrap
  have hcoded : ∀ b ∈ bytes, (codeTable (buildTree (countBytes bytes))).get b ≠ [] := fun b hb =>
    (codeTable_ne_nil_iff shape b).2
      ((exists_buildTree_leafSym_iff halpha hwrap b).2 ((countBytes_ne_zero hlen32 b).2 hb))
  exact ⟨_, execBuild_of_alphabet hin halpha, rfl, ⟨rfl, rfl, shape, rfl, hcoded⟩, hin, rfl⟩

/-- ENCODE after BUILD: the codes of the input in order, or BITBUF_OVERFLOW. -/
theorem exec_encode_of_coded {s : State} {bytes : List Byte} (hcodes : HasCodesFor s bytes) (hin : s.InputIs bytes) :
    ((codedBits (codeTable s.nodes) bytes).length ≤ s.params.bitbufCap
      ∧ exec .encode s = .next { s with bitbuf := codedBits (codeTable s.nodes) bytes }.succeeded)
    ∨ ∃ pos, exec .encode s = .next ({ s with bitbuf := [] }.failed 0x08 pos) := by
  obtain ⟨hlen, hread⟩ := hin
  rw [← hcodes.code]
  have hrun := encodeFrom_coded s.params.bitbufCap (hcodes.code ▸ hcodes.coded) 0 0 (by simpa using hread)
  rw [← hlen] at hrun
  obtain hok | ⟨pos, hraised⟩ := hrun
  · exact .inl ⟨by simpa using encodeFrom_length (Nat.zero_le _) hok, exec_encode_of_ok hcodes.codesValid hok⟩
  · exact .inr ⟨pos, exec_encode_of_raised (by decide) hcodes.codesValid hraised⟩

/-- Settles O44: BUILD gives every byte of the input a code, and DECODE inverts the code table. -/
theorem pipelineRoundTrip : Obligations.PipelineRoundTrip := by
  intro s bytes hin hne hlen hout
  obtain ⟨s1, hbuild, hok, hcodes, hin1, hparams⟩ := exec_build_of_input hin hne hlen
  obtain ⟨-, hencode⟩ | ⟨pos, hencode⟩ := exec_encode_of_coded hcodes hin1
  · have hdecode := decodeInvertsTheCodeTable { s1 with bitbuf := codedBits (codeTable s1.nodes) bytes }.succeeded
      bytes hcodes.treeValid hcodes.shape hcodes.coded rfl (by rwa [← hparams] at hout)
    exact ⟨s1, _, hbuild, hok, hencode, .inl rfl, fun _ => ⟨_, hdecode, rfl, rfl⟩⟩
  · exact ⟨s1, _, hbuild, hok, hencode, .inr rfl, fun herr => absurd (show (0x08 : Byte) = 0x00 from herr) (by decide)⟩

/-- Settles O45: UNPACK.T gives ENCODE's bits back, beside the tree whose codes they are. -/
theorem packedPipelineRoundTrip : Obligations.PackedPipelineRoundTrip := by
  intro s s1 s2 s3 u bytes hin hne hlen hout hwf hbuild hencode hok2 hpack hok3 hinu harg hparams hnodes htree
  obtain ⟨t, hbuild', -, hcodes, hin1, hparams1⟩ := exec_build_of_input hin hne hlen
  cases hbuild'.symm.trans hbuild
  obtain ⟨hfit, hencode'⟩ | ⟨pos, hencode'⟩ := exec_encode_of_coded hcodes hin1
  · cases hencode'.symm.trans hencode
    cases exec_pack_success hpack hok3
    have hparamsU : u.params = s.params := hparams.trans hparams1
    have hnodesU : u.nodes = s1.nodes := hnodes
    have hcap := (params_wellFormed_le hwf).2.2
    rw [hparams1] at hfit
    have harg' : u.arg.toNat = (codedBits (codeTable s1.nodes) bytes).length := by
      rw [harg, BitVec.toNat_ofNat]
      exact Nat.mod_eq_of_lt (hfit.trans_lt (by omega))
    have hdecode := decodeInvertsTheCodeTable { u with bitbuf := codedBits (codeTable s1.nodes) bytes }.succeeded
      bytes (htree.trans hcodes.treeValid) (hnodesU ▸ hcodes.shape) (hnodesU ▸ hcodes.coded) (by simp [hnodesU])
      (by simpa [hparamsU] using hout)
    exact ⟨_, _, exec_unpackT_of_packed hinu harg' (hparamsU ▸ hfit), rfl, hdecode, rfl, rfl⟩
  · cases hencode'.symm.trans hencode
    cases hok2

end Sys2Proof.Machine
end

section
/-! PROOFS. The control family: acceptance, the perform step, what a completion leaves and how a command can stop,
and CLEAR (45_control.md R115–R123). -/

namespace Sys2Proof.Machine

/-! ### Completion -/

/-- What `complete` can leave: a success, or a failure with a number of 60_exceptions.md R125 but 0x00
(45_control.md R117). -/
inductive Completed : State → Prop where
  | succeeded (s : State) : Completed s.succeeded
  | failed (s : State) {number : Byte} (pos : Nat) (h : number ≠ 0x00) : Completed (s.failed number pos)

/-- Every command that answers a next state has completed (45_control.md R117). -/
theorem exec_completed {i : Instr} {s t : State} (h : exec i s = .next t) : Completed t := by
  cases i with
  | freq => obtain ⟨_, -, rfl⟩ := execFreq_next h; exact .succeeded _
  | tree =>
    obtain ⟨-, rfl⟩ | ⟨-, rfl⟩ := execTree_next h
    · exact .succeeded _
    · exact .failed _ _ (by decide)
  | codes =>
    obtain ⟨-, rfl⟩ | ⟨-, rfl⟩ := execCodes_next h
    · exact .succeeded _
    · exact .failed _ _ (by decide)
  | build =>
    obtain ⟨_, -, ⟨-, rfl⟩ | ⟨-, rfl⟩⟩ := execBuild_next h
    · exact .succeeded _
    · exact .failed _ _ (by decide)
  | encode =>
    obtain ⟨-, rfl⟩ | ⟨_, -, -, -, rfl⟩ | ⟨_, -, -, ⟨-, rfl⟩ | ⟨-, rfl⟩⟩ := execEncode_next h
    · exact .failed _ _ (by decide)
    · exact .succeeded _
    · exact .failed _ _ (by decide)
    · exact .failed _ _ (by decide)
  | pack =>
    obtain ⟨-, rfl⟩ | ⟨-, rfl⟩ := execPack_next h
    · exact .succeeded _
    · exact .failed _ _ (by decide)
  | unpack =>
    obtain ⟨-, rfl⟩ | ⟨_, -, -, -, rfl⟩ := execUnpack_next h
    · exact .failed _ _ (by decide)
    · exact .succeeded _
  | unpackT =>
    obtain ⟨-, rfl⟩ | ⟨-, ⟨-, rfl⟩ | ⟨_, -, -, -, rfl⟩⟩ := execUnpackT_next h
    · exact .failed _ _ (by decide)
    · exact .failed _ _ (by decide)
    · exact .succeeded _
  | decode =>
    obtain ⟨-, rfl⟩ | ⟨_, -, -, -, rfl⟩ | ⟨e, _, -, herr, -, rfl⟩ := execDecode_next h
    · exact .failed _ _ (by decide)
    · exact .succeeded _
    · have hne : e ≠ .none := by rintro rfl; simp at herr
      exact .failed _ _ (number_ne_zero hne)
  | clear =>
    obtain rfl := execClear_next h
    exact .succeeded _

/-- Settles O8: a completion is a success or a failure, and a failure has a non-zero number. -/
theorem completionStatus : Obligations.CompletionStatus := by
  intro i s t h
  cases exec_completed h with
  | succeeded u => exact ⟨rfl, rfl, rfl, fun _ => rfl⟩
  | failed u pos hne => exact ⟨rfl, rfl, (decide_eq_true hne).symm, fun hzero => absurd hzero hne⟩

/-! ### Faults -/

/-- A body stops, if at all, at an unwritten cell of `s`'s input (45_control.md R123). -/
def Body.StopsInInput (s : State) (b : Body) : Prop :=
  ∀ j, b = .unwritten j → j < s.ibufLen ∧ s.ibuf.read j = none

theorem Body.stopsInInput_ok (s t : State) : (Body.ok t).StopsInInput s := nofun

theorem Body.stopsInInput_raised (s t : State) (code : ErrorCode) (pos : Nat) :
    (Body.raised t code pos).StopsInInput s := nofun

theorem Body.stopsInInput_unwritten {s : State} {j : Nat} (hj : j < s.ibufLen) (hnone : s.ibuf.read j = none) :
    (Body.unwritten j).StopsInInput s := by
  rintro _ ⟨⟩
  exact ⟨hj, hnone⟩

theorem ofRun_eq_unwritten {α : Type} {s : State} {commit : α → State} {r : Run α} {j : Nat}
    (h : Body.ofRun s commit r = .unwritten j) : r = .unwritten j := by
  cases r with
  | ok a => cases h
  | raised code pos => cases h
  | unwritten k =>
    cases h
    rfl

theorem freqBody_stopsInInput (s : State) : (freqBody s).StopsInInput s := by
  obtain ⟨bytes, -, hb⟩ | ⟨j, hj, hnone, -, hb⟩ := freqBody_cases s <;> rw [hb]
  · exact Body.stopsInInput_ok s _
  · exact Body.stopsInInput_unwritten hj hnone

theorem treeBody_stopsInInput (s : State) : (treeBody s).StopsInInput s := by
  obtain ⟨-, hb⟩ | ⟨-, hb⟩ := treeBody_cases s <;> rw [hb]
  · exact Body.stopsInInput_ok s _
  · exact Body.stopsInInput_raised s _ _ _

theorem codesBody_stopsInInput (s : State) : (codesBody s).StopsInInput s := by
  obtain ⟨-, hb⟩ | ⟨-, hb⟩ := codesBody_cases s <;> rw [hb]
  · exact Body.stopsInInput_ok s _
  · exact Body.stopsInInput_raised s _ _ _

theorem buildBody_stopsInInput (s : State) : (buildBody s).StopsInInput s := by
  obtain ⟨bytes, -, -, hb⟩ | ⟨bytes, -, -, hb⟩ | ⟨j, hj, hnone, -, hb⟩ := buildBody_cases s <;> rw [hb]
  · exact Body.stopsInInput_ok s _
  · exact Body.stopsInInput_raised s _ _ _
  · exact Body.stopsInInput_unwritten hj hnone

theorem encodeBody_stopsInInput (s : State) : (encodeBody s).StopsInInput s := by
  unfold encodeBody
  split
  · intro j h
    obtain ⟨-, hj, hnone⟩ := encodeFrom_unwritten (ofRun_eq_unwritten h)
    exact ⟨by omega, hnone⟩
  · exact Body.stopsInInput_raised s _ _ _

theorem packBody_stopsInInput (s : State) : (packBody s).StopsInInput s := by
  unfold packBody
  split
  · exact Body.stopsInInput_raised s _ _ _
  · exact Body.stopsInInput_ok s _

/-- UNPACK's common end reads no cell past the input when it keeps no more bits than the input has
(44_bit_packer.md R111, R112). -/
theorem unpackBits_stopsInInput (s : State) {len : Nat} (hlen : len ≤ s.inputBits) :
    (unpackBits { s with bitbuf := [] } len).StopsInInput s := by
  unfold unpackBits
  split
  · exact Body.stopsInInput_raised s _ _ _
  · intro j h
    obtain ⟨⟨k, -, hk, hj⟩, hnone⟩ := unpackFrom_unwritten (ofRun_eq_unwritten h)
    rw [State.inputBits] at hlen
    exact ⟨by omega, hnone⟩

theorem unpackTrimBody_stopsInInput (s : State) : (unpackTrimBody s).StopsInInput s := by
  unfold unpackTrimBody
  split
  · exact Body.stopsInInput_raised s _ _ _
  · next hle => exact unpackBits_stopsInInput s (Nat.le_of_not_lt hle)

theorem decodeBody_stopsInInput (s : State) : (decodeBody s).StopsInInput s := by
  unfold decodeBody
  split
  · obtain ⟨bytes, hr, -⟩ | ⟨e, pos, hr, -⟩ := decodeBits_cases s.nodes s.params.obufCap s.bitbuf <;> rw [hr]
    · exact Body.stopsInInput_ok s _
    · exact Body.stopsInInput_raised s _ _ _
  · exact Body.stopsInInput_raised s _ _ _

theorem bodyOf_stopsInInput (i : Instr) (s : State) : (bodyOf i s).StopsInInput s := by
  cases i with
  | freq => exact freqBody_stopsInInput s
  | tree => exact treeBody_stopsInInput s
  | codes => exact codesBody_stopsInInput s
  | build => exact buildBody_stopsInInput s
  | encode => exact encodeBody_stopsInInput s
  | pack => exact packBody_stopsInInput s
  | unpack => exact unpackBits_stopsInInput s (Nat.le_refl _)
  | unpackT => exact unpackTrimBody_stopsInInput s
  | decode => exact decodeBody_stopsInInput s
  | clear => exact Body.stopsInInput_ok s _

/-- Settles O9: the end of a body is a completion or the fault of the cell the body stopped at. -/
theorem onlyUnwrittenInputFaults : Obligations.OnlyUnwrittenInputFaults := by
  intro i s
  rw [exec_eq_finish]
  by_cases hnext : ∃ t, finish (bodyOf i s) = .next t
  · exact .inl hnext
  · obtain ⟨j, hb, hfault⟩ := finish_stops (not_exists.1 hnext)
    obtain ⟨hj, hnone⟩ := bodyOf_stopsInInput i s j hb
    exact .inr ⟨j, hj, hnone, hfault⟩

/-! ### CLEAR -/

/-- Settles O46; that a command other than CLEAR leaves OVERRUN is part of what commands can write. -/
theorem clearEmptiesTheWorkingTables : Obligations.ClearEmptiesTheWorkingTables := by
  refine ⟨decode_encode .clear, execClear_eq, fun i s t hne h => ?_, execClear_eq State.reset⟩
  have hoverrun := congrArg State.overrun (commandsWriteOnlyTheirDestination i s t h)
  simpa only [if_neg hne] using hoverrun

/-! ### Acceptance -/

theorem step_writeBusy {s : State} {o : Offset} {n : AccessSize} {v : Word} {rest : List Turn}
    (hp : s.pending.isSome = true) (hwf : accessWellFormed o n = true) (hagenda : s.agenda = .write o n v :: rest) :
    step s = .next (State.writeBusy { s with agenda := rest } o) := by
  have hwrite := busWrite_busy (s := { s with agenda := rest }) hp hwf v
  rw [step_cons hagenda, takeTurn, writeTurn, if_pos hwf, hwrite]

/-- Settles O6: CMD takes the word with BUSY = 0, and with BUSY = 1 the write only sets OVERRUN. -/
theorem commandWriteIsAccepted : Obligations.CommandWriteIsAccepted :=
  fun _ _ _ hagenda => ⟨fun hp => step_writeRegister hp (by decide) (by decide) hagenda,
    fun hp => step_writeBusy hp (by decide) hagenda⟩

/-! ### The perform step -/

theorem step_block {s : State} {rest : List Turn} (h : s.agenda = .block :: rest) :
    step s = blockTurn { s with agenda := rest } := step_cons h

/-- While BUSY = 1 a `wait` gives its turn to the block (30_encoding.md R78). -/
theorem step_wait_busy {s : State} {rest : List Turn} (h : s.agenda = .wait :: rest)
    (hp : s.pending.isSome = true) : step s = blockTurn s := by
  rw [step_cons h, takeTurn, waitTurn, State.busy, if_pos hp, ← h]

/-- With BUSY = 0 a `wait` ends in its STATUS read (30_encoding.md R78). -/
theorem step_wait_idle {s : State} {rest : List Turn} (h : s.agenda = .wait :: rest) (hp : s.pending = none) :
    step s = .next (afterReading s rest s.statusIdle) := by
  have hbusy : { s with agenda := rest }.busy = false := busy_eq_false hp
  rw [step_cons h, takeTurn, waitTurn, hbusy, if_neg Bool.false_ne_true, readTurn, if_pos (by decide),
    State.busRead, if_pos (by decide), hbusy]
  rfl

/-- In each of the three ways the block comes to move, the step performs the pending word. -/
theorem step_performs {s : State} {w : Word} (hp : s.pending = some w) (rest : List Turn) :
    (s.agenda = [] → step s = performWord w s)
    ∧ (s.agenda = .block :: rest → step s = performWord w { s with agenda := rest })
    ∧ (s.agenda = .wait :: rest → step s = performWord w s) := by
  refine ⟨fun h => ?_, fun h => ?_, fun h => ?_⟩
  · rw [step_empty h, blockTurn_pending hp]
  · rw [step_block h]
    exact blockTurn_pending hp
  · rw [step_wait_busy h (by rw [hp, Option.isSome_some]), blockTurn_pending hp]

/-- Settles O7: the step performs the pending word, and performing is by what the word decodes to. -/
theorem stepRunsDecodedCommand : Obligations.StepRunsDecodedCommand := by
  intro s rest
  refine ⟨fun w i hp hdec => ?_, fun w e hp hdec => ?_, fun hp => ⟨fun h => ?_, fun h => ?_, fun h => ?_⟩⟩
  · simpa only [performWord_ok hdec] using step_performs hp rest
  · simpa only [performWord_illegal hdec] using step_performs hp rest
  · rw [step_empty h, blockTurn_idle hp]
  · rw [step_block h]
    exact blockTurn_idle hp
  · exact step_wait_idle h hp

end Sys2Proof.Machine
end

section
/-! PROOFS. The end of a run: the slots a script uses up, the last statement of a script, and what it leaves pending
(45_control.md R124, 20_memory.md R60). -/

namespace Sys2Proof.Machine

/-! ### The slots of a run -/

/-- A part of a run that begins with `slots` uses entries from its front, if it goes on (20_memory.md R60). -/
def HostRun.TakesFrom (r : HostRun) (slots : Slots) : Prop :=
  ∀ t slots', r = .next (t, slots') → slots' <:+ slots

theorem HostRun.TakesFrom.andThen {r : HostRun} {slots : Slots} {next : State → Slots → HostRun}
    (hr : r.TakesFrom slots) (hnext : ∀ s slots, (next s slots).TakesFrom slots) :
    (r.andThen next).TakesFrom slots := by
  intro t slots' h
  obtain ⟨s, mid, hs, ht⟩ := HostRun.andThen_eq_next.1 h
  exact (hnext s mid t slots' ht).trans (hr s mid hs)

theorem takesFrom_next (s : State) (slots : Slots) : HostRun.TakesFrom (.next (s, slots)) slots := by
  rintro _ _ ⟨⟩
  exact List.suffix_refl slots

theorem runSlot_takesFrom (turns : List Turn) (s : State) (slots : Slots) :
    (runSlot turns s slots).TakesFrom slots := by
  intro t slots' h
  obtain ⟨rfl, -⟩ := runSlot_next h
  exact List.tail_suffix slots

theorem runTurns_takesFrom (turns : List Turn) (s : State) (slots : Slots) :
    (runTurns turns s slots).TakesFrom slots := by
  induction turns generalizing s slots with
  | nil => exact takesFrom_next s slots
  | cons turn turns ih => exact (runSlot_takesFrom [turn] s slots).andThen ih

theorem copyBytes_takesFrom (n k : Nat) (s : State) (slots : Slots) : (copyBytes n k s slots).TakesFrom slots := by
  induction n generalizing k s slots with
  | zero => exact takesFrom_next s slots
  | succ n ih =>
    exact (runSlot_takesFrom _ s slots).andThen fun s slots => (runSlot_takesFrom _ s slots).andThen (ih (k + 1))

theorem runCopyout_takesFrom (s : State) (slots : Slots) : (runCopyout s slots).TakesFrom slots :=
  (runSlot_takesFrom _ s slots).andThen fun s slots =>
    (copyBytes_takesFrom _ 0 s slots).andThen (runSlot_takesFrom _)

theorem runStmt_takesFrom (st : Stmt) (s : State) (slots : Slots) : (runStmt st s slots).TakesFrom slots := by
  unfold runStmt
  split
  · exact runTurns_takesFrom _ s slots
  · exact runCopyout_takesFrom s slots

/-! ### The last statement of a script -/

/-- A script that comes to its end has run its last statement, with slots that its other statements left, and then
the slot after it. -/
theorem runScript_append_next {script : List Stmt} {last : Stmt} {s t : State} {slots slots' : Slots}
    (h : runScript (script ++ [last]) s slots = .next (t, slots')) :
    ∃ u before v after, before <:+ slots ∧ runStmt last u before = .next (v, after)
      ∧ runSlot [] v after = .next (t, slots') := by
  induction script generalizing s slots with
  | nil =>
    obtain ⟨v, after, hlast, hend⟩ := HostRun.andThen_eq_next.1 h
    exact ⟨s, slots, v, after, List.suffix_refl slots, hlast, hend⟩
  | cons st script ih =>
    obtain ⟨s1, mid, hst, hrest⟩ := HostRun.andThen_eq_next.1 h
    obtain ⟨u, before, v, after, hsuffix, hlast, hend⟩ := ih hrest
    exact ⟨u, before, v, after, hsuffix.trans (runStmt_takesFrom st s slots s1 mid hst), hlast, hend⟩

/-- Turns that end in a `wait` leave nothing pending (30_encoding.md R78). -/
theorem runTurns_wait_pending {turns : List Turn} {s t : State} {slots slots' : Slots}
    (h : runTurns (turns ++ [.wait]) s slots = .next (t, slots')) : t.pending = none := by
  induction turns generalizing s slots with
  | nil =>
    obtain ⟨u, mid, hwait, hend⟩ := HostRun.andThen_eq_next.1 h
    cases hend
    exact runSlot_wait_pending hwait
  | cons turn turns ih =>
    obtain ⟨u, mid, -, hrest⟩ := HostRun.andThen_eq_next.1 h
    exact ih hrest

/-- `wait`, and `run`, which expands to one, leave nothing pending (30_encoding.md R76, R78). -/
theorem runStmt_wait_pending {last : Stmt} (hlast : last = .wait ∨ ∃ i, last = .run i) {s t : State}
    {slots slots' : Slots} (h : runStmt last s slots = .next (t, slots')) : t.pending = none := by
  obtain rfl | ⟨i, rfl⟩ := hlast
  · exact runTurns_wait_pending (turns := []) h
  · exact runTurns_wait_pending (turns := [.write (regOffset .cmd) .word (encode i)]) h

/-- A write to CMD leaves a command pending: it is accepted, or another one is pending already (45_control.md R115). -/
theorem busWrite_cmd_pending (s : State) (w : Word) : (s.busWrite (regOffset .cmd) .word w).pending.isSome = true := by
  cases hp : s.pending with
  | none =>
    rw [busWrite_idle hp (by decide)]
    rfl
  | some v =>
    have hbusy : s.pending.isSome = true := by rw [hp, Option.isSome_some]
    rw [busWrite_busy hbusy (by decide)]
    exact hbusy

/-- With no turn of the block before it, a CMD write leaves a command pending. -/
theorem runStmt_cmd_pending {i : Instr} {s t : State} {slots' : Slots}
    (h : runStmt (.cmd i) s [] = .next (t, slots')) : t.pending.isSome = true := by
  obtain ⟨u, mid, hslot, hend⟩ := HostRun.andThen_eq_next.1 h
  cases hend
  obtain ⟨-, hdrain⟩ := runSlot_next hslot
  obtain ⟨v, hwrite, hrest⟩ := drain_cons_next (rest := []) rfl hdrain
  obtain ⟨-, hv⟩ := writeTurn_next hwrite
  obtain rfl := hv.trans (busWrite_withAgenda s [] _ _ _)
  rw [drain_empty rfl] at hrest
  cases hrest
  exact busWrite_cmd_pending s (encode i)

/-! ### Where a run ends -/

/-- A run that has ended reached its final state with nothing pending (45_control.md R124). -/
theorem endOfRun_eq_some {script : List Stmt} {s t : State} {slots : Slots} (h : endOfRun script s slots = some t) :
    (∃ slots', runScript script s slots = .next (t, slots')) ∧ t.pending = none := by
  unfold endOfRun at h
  split at h
  · next u slots' hrun =>
    obtain ⟨hp, rfl⟩ : u.pending = none ∧ u = t := by simpa using h
    exact ⟨⟨slots', hrun⟩, hp⟩
  · cases h
  · cases h

theorem endOfRun_of_next {script : List Stmt} {s t : State} {slots slots' : Slots}
    (hrun : runScript script s slots = .next (t, slots')) (hp : t.pending = none) :
    endOfRun script s slots = some t := by
  simp only [endOfRun, hrun, hp, Option.isNone_none, if_true]

/-- Settles O59: a `wait` leaves nothing pending and the slot after it keeps that; with no slots nothing comes
between the last CMD write and the end. -/
theorem runEndsWithNothingPending : Obligations.RunEndsWithNothingPending := by
  intro script s slots
  refine ⟨fun t h => (endOfRun_eq_some h).2, fun last t slots' hlast hrun => ?_, fun i => ?_⟩
  · obtain ⟨u, before, v, after, -, hstmt, hend⟩ := runScript_append_next hrun
    have hv := runStmt_wait_pending hlast hstmt
    obtain rfl := runSlot_nil_idle hv hend
    exact ⟨hv, endOfRun_of_next hrun hv⟩
  · rw [Option.eq_none_iff_forall_ne_some]
    intro t h
    obtain ⟨⟨slots', hrun⟩, hp⟩ := endOfRun_eq_some h
    obtain ⟨u, before, v, after, hbefore, hstmt, hend⟩ := runScript_append_next hrun
    obtain rfl := List.suffix_nil.1 hbefore
    obtain rfl := List.suffix_nil.1 (runStmt_takesFrom _ u [] v after hstmt)
    have hv := runStmt_cmd_pending hstmt
    cases hend
    have hidle : v.pending = none := hp
    simp [hidle] at hv

end Sys2Proof.Machine
end

section
/-! PROOFS. Failed commands: the error numbers of each command and the state it leaves (60_exceptions.md R125,
R127). -/

namespace Sys2Proof.Machine

/-! ### The failures of a command -/

/-- The commands' rows of 60_exceptions.md R125 and R127 together: command `i` performed in `s` can fail with error
`number`, and `u` is what it has written by then (R126). FREQ and CLEAR have no row. -/
inductive FailsFrom (s : State) : (i : Instr) → (u : State) → (number : Byte) → Prop where
  | tree : FailsFrom s .tree s.withoutTree 0x02
  | codes (h : s.treeValid = false) : FailsFrom s .codes { s with codesValid := false } 0x06
  | build {bytes : List Byte} (h : s.InputIs bytes) :
      FailsFrom s .build { s with freq := countBytes bytes }.withoutTree 0x02
  | encode {number : Byte} (h : number = 0x03 ∨ number = 0x07 ∨ number = 0x08) :
      FailsFrom s .encode { s with bitbuf := [] } number
  | pack : FailsFrom s .pack { s with obuf := [] } 0x09
  | unpack : FailsFrom s .unpack { s with bitbuf := [] } 0x08
  | unpackT {number : Byte} (h : number = 0x08 ∨ number = 0x0A) :
      FailsFrom s .unpackT { s with bitbuf := [] } number
  | decode {number : Byte} (h : number = 0x04 ∨ number = 0x05 ∨ number = 0x06 ∨ number = 0x09) :
      FailsFrom s .decode { s with obuf := [] } number

/-- A command that completes has succeeded, or it has failed in one of the ways of its row. -/
theorem exec_succeeded_or_failsFrom {i : Instr} {s t : State} (h : exec i s = .next t) :
    (∃ u : State, t = u.succeeded) ∨ ∃ u number pos, FailsFrom s i u number ∧ t = u.failed number pos := by
  cases i with
  | freq =>
    obtain ⟨_, -, rfl⟩ := execFreq_next h
    exact .inl ⟨_, rfl⟩
  | tree =>
    obtain ⟨-, rfl⟩ | ⟨-, rfl⟩ := execTree_next h
    · exact .inl ⟨_, rfl⟩
    · exact .inr ⟨_, _, _, .tree, rfl⟩
  | codes =>
    obtain ⟨-, rfl⟩ | ⟨hv, rfl⟩ := execCodes_next h
    · exact .inl ⟨_, rfl⟩
    · exact .inr ⟨_, _, _, .codes hv, rfl⟩
  | build =>
    obtain ⟨_, hin, ⟨-, rfl⟩ | ⟨-, rfl⟩⟩ := execBuild_next h
    · exact .inl ⟨_, rfl⟩
    · exact .inr ⟨_, _, _, .build hin, rfl⟩
  | encode =>
    obtain ⟨-, rfl⟩ | ⟨_, -, -, -, rfl⟩ | ⟨_, -, -, ⟨-, rfl⟩ | ⟨-, rfl⟩⟩ := execEncode_next h
    · exact .inr ⟨_, _, _, .encode (.inr (.inl rfl)), rfl⟩
    · exact .inl ⟨_, rfl⟩
    · exact .inr ⟨_, _, _, .encode (.inl rfl), rfl⟩
    · exact .inr ⟨_, _, _, .encode (.inr (.inr rfl)), rfl⟩
  | pack =>
    obtain ⟨-, rfl⟩ | ⟨-, rfl⟩ := execPack_next h
    · exact .inl ⟨_, rfl⟩
    · exact .inr ⟨_, _, _, .pack, rfl⟩
  | unpack =>
    obtain ⟨-, rfl⟩ | ⟨_, -, -, -, rfl⟩ := execUnpack_next h
    · exact .inr ⟨_, _, _, .unpack, rfl⟩
    · exact .inl ⟨_, rfl⟩
  | unpackT =>
    obtain ⟨-, rfl⟩ | ⟨-, ⟨-, rfl⟩ | ⟨_, -, -, -, rfl⟩⟩ := execUnpackT_next h
    · exact .inr ⟨_, _, _, .unpackT (.inr rfl), rfl⟩
    · exact .inr ⟨_, _, _, .unpackT (.inl rfl), rfl⟩
    · exact .inl ⟨_, rfl⟩
  | decode =>
    obtain ⟨-, rfl⟩ | ⟨_, -, -, -, rfl⟩ | ⟨e, pos, -, herr, -, rfl⟩ := execDecode_next h
    · exact .inr ⟨_, _, _, .decode (.inr (.inr (.inl rfl))), rfl⟩
    · exact .inl ⟨_, rfl⟩
    · refine .inr ⟨_, _, pos, .decode ?_, rfl⟩
      obtain rfl | rfl | rfl := herr
      · exact .inr (.inr (.inr rfl))
      · exact .inl rfl
      · exact .inr (.inl rfl)
  | clear =>
    obtain rfl := execClear_next h
    exact .inl ⟨_, rfl⟩

/-- Settles O13: a success has ERRCODE = 0x00, and each failure has a number of its command's row. -/
theorem errorCodesOfEachCommand : Obligations.ErrorCodesOfEachCommand := by
  intro i s t h hne
  obtain ⟨u, rfl⟩ | ⟨u, number, pos, hfail, rfl⟩ := exec_succeeded_or_failsFrom h
  · exact absurd rfl hne
  · cases hfail with
    | tree => rfl
    | codes _ => rfl
    | build _ => rfl
    | encode hnumber => exact hnumber
    | pack => rfl
    | unpack => rfl
    | unpackT hnumber => exact hnumber
    | decode hnumber => exact hnumber

/-! ### The state left -/

/-- A failed state is made from its own error fields: ERRPOS holds the position, cut to 32 bits
(10_state.md R21). -/
theorem failed_errcode_errpos (u : State) (number : Byte) (pos : Nat) :
    u.failed number pos = u.failed (u.failed number pos).errcode (u.failed number pos).errpos.toNat := by
  simp only [State.failed, BitVec.ofNat_toNat, BitVec.setWidth_eq]

/-- Performing an illegal word only fails (45_control.md R121). -/
theorem performWord_next_of_illegal {w : Word} {s t : State} (hdec : ∃ e, decode w = .error e)
    (h : performWord w s = .next t) : t = s.failed 0x01 0 := by
  obtain ⟨e, hdec⟩ := hdec
  rw [performWord_illegal hdec] at h
  cases h
  rfl

/-- Settles O14: what each failure of R127 has written by then. For CODES the invariant makes the code table of a
state without a tree empty, and clearing CODES_VALID there changes nothing. -/
theorem stateAfterAnError : Obligations.StateAfterAnError := by
  refine ⟨fun i s t hinv h herr => ?command, fun s t w hdec h => ?illegal⟩
  case command =>
    obtain ⟨u, rfl⟩ | ⟨u, number, pos, hfail, rfl⟩ := exec_succeeded_or_failsFrom h
    · exact absurd herr Bool.false_ne_true
    · have hleft := failed_errcode_errpos u number pos
      cases hfail with
      | tree => exact hleft
      | codes hv =>
        have hclear := hinv.clearCodesValid_eq hv
        have hcodes : s.codesValid = false := congrArg State.codesValid hclear.symm
        rw [hclear] at hleft ⊢
        exact ⟨hleft, hinv.noCodes hcodes⟩
      | build hin => exact ⟨⟨_, hin, countBytes_get _⟩, hleft⟩
      | encode _ => exact hleft
      | pack => exact hleft
      | unpack => exact hleft
      | unpackT _ => exact hleft
      | decode _ => exact hleft
  case illegal =>
    obtain rfl := performWord_next_of_illegal hdec h
    exact failed_errcode_errpos s 0x01 0

end Sys2Proof.Machine
end

section
/-! PROOFS. Reset against the pending command (70_reset_and_hazards.md R141, R142). -/

namespace Sys2Proof.Machine

theorem step_reset {s : State} {rest : List Turn} (h : s.agenda = .reset :: rest) :
    step s = .next { s.hardReset with agenda := rest } := step_cons h

/-- A reset undoes all that a command does: no command writes the fields that a reset keeps (30_encoding.md R69). -/
theorem exec_hardReset {i : Instr} {s t : State} (h : exec i s = .next t) : t.hardReset = s.hardReset :=
  (congrArg State.hardReset (commandsWriteOnlyTheirDestination i s t h)).trans rfl

/-- A reset undoes all that the block's turn does. -/
theorem blockTurn_hardReset {s t : State} (h : blockTurn s = .next t) : t.hardReset = s.hardReset := by
  obtain ⟨-, rfl⟩ | ⟨w, i, -, -, hexec⟩ | ⟨w, e, -, -, rfl⟩ := blockTurn_next h
  · rfl
  · exact exec_hardReset hexec
  · rfl

/-- Settles O2: whatever the block's turn does before the reset, the reset undoes, and it leaves the agenda. -/
theorem resetDiscardsPendingCommand : Obligations.ResetDiscardsPendingCommand := by
  refine fun s rest => ⟨step_reset, fun s1 hagenda hblock => ?_⟩
  rw [step_block hagenda] at hblock
  have hreset := blockTurn_hardReset hblock
  have hnext : s1.agenda = .reset :: rest := congrArg State.agenda hreset
  rw [step_reset hnext, hreset]
  rfl

end Sys2Proof.Machine
end
